-- ==== Sys2Proof/Word.lean ====
section
/-! DEFINITION. The word, byte and bit-string types of the engine (R10, R11, R22). -/

namespace Sys2Proof

/-- A register or table word, 32 bits (R22, R81). -/
abbrev Word := BitVec 32

/-- A symbol: one byte value, 0 to 255 (R7, R17). -/
abbrev Byte := BitVec 8

/-- A code of the codebook, right aligned in 256 bits (R51, R119). -/
abbrev CodeWord := BitVec 256

/-- The frequency of a tree node, 40 bits (R53). -/
abbrev Freq40 := BitVec 40

/-- A node number, 9 bits; `511` is NIL (R44, R53). -/
abbrev NodeNum := BitVec 9

/-- A bit string, first bit first (R11). -/
abbrev BitStr := List Bool

end Sys2Proof
end

