-- ==== Sys2Proof/Syntax.lean ====
section
/-! DEFINITION. The commands: one constructor per row of `spec/opcode_table.json` (R112). -/

namespace Sys2Proof

/-- A command (R112). The only operand encoded in a command word is `IMM8`, a byte (R110, R111). -/
inductive Instr where
  /-- `NOP` (R271). -/
  | nop
  /-- `LZ.FIND` (R148). -/
  | lzFind
  /-- `LZ.PUTL imm8` (R162). -/
  | lzPutl (b : Byte)
  /-- `LZ.PUTM` (R163). -/
  | lzPutm
  /-- `LZ.STEP` (R165). -/
  | lzStep
  /-- `LZ.ENC` (R166). -/
  | lzEnc
  /-- `LZ.DSTEP` (R191). -/
  | lzDstep
  /-- `LZ.DEC` (R197). -/
  | lzDec
  /-- `HF.COUNT` (R211). -/
  | hfCount
  /-- `HF.BUILD` (R215). -/
  | hfBuild
  /-- `HF.DERIVE` (R233). -/
  | hfDerive
  /-- `HF.PUTS imm8` (R242). -/
  | hfPuts (b : Byte)
  /-- `HF.ENC` (R243). -/
  | hfEnc
  /-- `HF.DSYM` (R245). -/
  | hfDsym
  /-- `HF.DEC` (R246). -/
  | hfDec
  /-- `BS.INIT` (R161). -/
  | bsInit
  /-- `BS.FLUSH` (R164). -/
  | bsFlush
  /-- `BUF.XFER` (R272). -/
  | bufXfer
  /-- `SYS.CLRERR` (R273). -/
  | sysClrerr
  /-- `SYS.RESET` (R274). -/
  | sysReset
  deriving DecidableEq, Repr

end Sys2Proof
end

