-- ==== Sys2Proof/WellFormed.lean ====
section
/-! DEFINITION. Well-formedness: the three checks R121 makes on a raw command word, and the (empty) check on an `Instr`. -/

namespace Sys2Proof

/-- `OPC`, bits [31:24] (R110). -/
def opcField (w : Word) : BitVec 8 := w.extractLsb' 24 8

/-- `RSV`, bits [23:8] (R110). -/
def rsvField (w : Word) : BitVec 16 := w.extractLsb' 8 16

/-- `IMM8`, bits [7:0] (R110). -/
def immField (w : Word) : Byte := w.extractLsb' 0 8

/-- The twenty values of `OPC` that name a command (R112, R121): 0x00 to 0x07, 0x10 to 0x16, 0x20 to 0x22, 0x7E, 0x7F. -/
def opcAssigned (w : Word) : Bool :=
  let o := (opcField w).toNat
  o ≤ 0x07 || (0x10 ≤ o && o ≤ 0x16) || (0x20 ≤ o && o ≤ 0x22) || o == 0x7E || o == 0x7F

/-- `RSV` must be 0 (R110, R121). -/
def rsvZero (w : Word) : Bool := rsvField w == 0

/-- `IMM8` must be 0 in every command but `LZ.PUTL` (0x02) and `HF.PUTS` (0x13) (R110, R121). -/
def immAllowed (w : Word) : Bool := immField w == 0 || opcField w == 0x02 || opcField w == 0x13

/-- A legal command word (R121: illegal words are exactly those that fail one of the three checks). -/
def wordWellFormed (w : Word) : Bool := opcAssigned w && rsvZero w && immAllowed w

/-- Every `Instr` is well formed: its only operand is `IMM8`, and that it is a byte (R111) is in its type. -/
def Instr.wellFormed : Instr → Bool
  | .nop | .lzFind | .lzPutl _ | .lzPutm | .lzStep | .lzEnc | .lzDstep | .lzDec => true
  | .hfCount | .hfBuild | .hfDerive | .hfPuts _ | .hfEnc | .hfDsym | .hfDec => true
  | .bsInit | .bsFlush | .bufXfer | .sysClrerr | .sysReset => true

end Sys2Proof
end

