-- ==== Sys2Proof/Decode.lean ====
section
/-! DEFINITION. The command decoder and encoder, from the command map (R110 to R112, R121). A command is one 32-bit word,
taken from the data of the `CMD` write itself (R96), so there are no bytes to order. -/

namespace Sys2Proof

/-- Why a word is illegal (R121). -/
inductive Illegal where
  /-- `OPC` is none of the twenty values of R112. -/
  | unassignedOpc
  /-- `RSV` is not 0. -/
  | reservedBits
  /-- `IMM8` is not 0 in a command that takes no immediate. -/
  | strayImmediate
  deriving DecidableEq, Repr

/-- One row of the command map R112. -/
structure OpcodeRow where
  pattern : Word
  mask    : Word
  make    : Byte → Instr

/-- The mask of the commands without an immediate (R111). -/
def maskFull : Word := 0xFFFFFFFF

/-- The mask of the two immediate commands (R111). -/
def maskImm : Word := 0xFFFFFF00

/-- The command map (R112). -/
def opcodeRows : List OpcodeRow :=
  [⟨0x00000000, maskFull, fun _ => .nop⟩,
   ⟨0x01000000, maskFull, fun _ => .lzFind⟩,
   ⟨0x02000000, maskImm, .lzPutl⟩,
   ⟨0x03000000, maskFull, fun _ => .lzPutm⟩,
   ⟨0x04000000, maskFull, fun _ => .lzStep⟩,
   ⟨0x05000000, maskFull, fun _ => .lzEnc⟩,
   ⟨0x06000000, maskFull, fun _ => .lzDstep⟩,
   ⟨0x07000000, maskFull, fun _ => .lzDec⟩,
   ⟨0x10000000, maskFull, fun _ => .hfCount⟩,
   ⟨0x11000000, maskFull, fun _ => .hfBuild⟩,
   ⟨0x12000000, maskFull, fun _ => .hfDerive⟩,
   ⟨0x13000000, maskImm, .hfPuts⟩,
   ⟨0x14000000, maskFull, fun _ => .hfEnc⟩,
   ⟨0x15000000, maskFull, fun _ => .hfDsym⟩,
   ⟨0x16000000, maskFull, fun _ => .hfDec⟩,
   ⟨0x20000000, maskFull, fun _ => .bsInit⟩,
   ⟨0x21000000, maskFull, fun _ => .bsFlush⟩,
   ⟨0x22000000, maskFull, fun _ => .bufXfer⟩,
   ⟨0x7E000000, maskFull, fun _ => .sysClrerr⟩,
   ⟨0x7F000000, maskFull, fun _ => .sysReset⟩]

/-- The reason a word that matches no row is illegal (R121), the first check that fails. -/
def illegalReason (w : Word) : Illegal :=
  if opcAssigned w then if rsvZero w then .strayImmediate else .reservedBits else .unassignedOpc

/-- Decoding (R111): the command of the first (and only) row with `(w & mask) = match`, `IMM8` being `w[7:0]`. -/
def decode (w : Word) : Except Illegal Instr :=
  match opcodeRows.find? (fun r => w &&& r.mask == r.pattern) with
  | some r => .ok (r.make (immField w))
  | none => .error (illegalReason w)

/-- The word of a command whose `OPC` is `opc` and whose `IMM8` is `imm` (R110); `RSV` is 0. -/
def commandWord (opc imm : Byte) : Word := opc ++ (0 : BitVec 16) ++ imm

/-- Encoding: the command word of an instruction (R110, R112). -/
def encode : Instr → Word
  | .nop => commandWord 0x00 0
  | .lzFind => commandWord 0x01 0
  | .lzPutl b => commandWord 0x02 b
  | .lzPutm => commandWord 0x03 0
  | .lzStep => commandWord 0x04 0
  | .lzEnc => commandWord 0x05 0
  | .lzDstep => commandWord 0x06 0
  | .lzDec => commandWord 0x07 0
  | .hfCount => commandWord 0x10 0
  | .hfBuild => commandWord 0x11 0
  | .hfDerive => commandWord 0x12 0
  | .hfPuts b => commandWord 0x13 b
  | .hfEnc => commandWord 0x14 0
  | .hfDsym => commandWord 0x15 0
  | .hfDec => commandWord 0x16 0
  | .bsInit => commandWord 0x20 0
  | .bsFlush => commandWord 0x21 0
  | .bufXfer => commandWord 0x22 0
  | .sysClrerr => commandWord 0x7E 0
  | .sysReset => commandWord 0x7F 0

/-- The 32-bit command word of an instruction given as `nbits` bits `w`: the bits above `nbits` are 0. -/
def tableWord (nbits w : Nat) : Word := BitVec.ofNat 32 (w % 2 ^ nbits)

/-- What the decoder reads from the instruction whose bits, numbered as `spec/opcode_table.json` numbers them, are `w`.
Every command is exactly one 32-bit word (R110): a longer instruction decodes to none. -/
def decodeTableWord (nbits w : Nat) : Option Instr :=
  if nbits ≤ 32 then (decode (tableWord nbits w)).toOption else none

end Sys2Proof
end

