-- ==== Sys2Proof/Config.lean ====
section
/-! DEFINITION. What is fixed for the machine: the parameters of the bitstream format (R7), the reset values of the
configuration registers (R8), the capacities a model is given (R9), and the free values (U1 of
`93_implementation_defined.md`). -/

namespace Sys2Proof.Config

/-- Largest value of the 4-bit length field, `MAX_LENGTH_FIELD` (R7). -/
def maxLengthField : Nat := 15

/-- Largest value of the 12-bit distance field (R7); `MAXD = min(WSIZE, 4095)` (R30). -/
def maxDistField : Nat := 4095

/-- Largest legal `WSIZE` (R29). -/
def maxWindow : Nat := 4096

/-- `WSIZE` after reset (R8, R26). -/
def resetWsize : Nat := 4096

/-- `MINM` after reset (R8, R27). -/
def resetMinm : Nat := 3

/-- `MAXM` after reset (R8, R28). -/
def resetMaxm : Nat := 18

/-- The node number that means "no node" (R44, R53). -/
def nil : Nat := 511

/-- `IBUF_CAP` of `State.reset` (R9, R45). DESIGN CHOICE (log 5): the spec leaves the value open in 1 to 2^28; 64 is what its
own test vectors start from. The capacity is a field of State, and every statement holds for every value of it. -/
def ibufCap : Nat := 64

/-- `OBUF_CAP` of `State.reset` (R9, R45). DESIGN CHOICE (log 5), as `ibufCap`. -/
def obufCap : Nat := 64

/-- The value of `IBUF[i]` while nothing has written it since the `epoch`-th reset: any byte (U1; R55, R60, R279).
A FREE VALUE (log 3): nothing can be proved of it but that repeated reads give the same byte. -/
opaque ibufUnspecified (epoch i : Nat) : Byte

end Sys2Proof.Config
end

