-- ==== Sys2Proof/Machine/Bits.lean ====
section
/-! DEFINITION. Bit strings and the arithmetic of streams (R10, R11, R14, R116). -/

namespace Sys2Proof.Machine

/-- `bits_n(v)`: the `n`-bit string of `v`, most significant bit first (R11). -/
def bits (n v : Nat) : BitStr := (List.range n).map fun i => v.testBit (n - 1 - i)

/-- `val(c)`: the natural a bit string spells, most significant bit first (R11). -/
def val (c : BitStr) : Nat := c.foldl (fun a b => 2 * a + b.toNat) 0

/-- `ceil8(n)`: the bytes that `n` bits take (R10). -/
def ceil8 (n : Nat) : Nat := (n + 7) / 8

/-- The number of padding bits after `n` bits (R116): none when `n` is a multiple of 8. -/
def padLen (n : Nat) : Nat := (8 - n % 8) % 8

/-- `rep(w, n)`: `n` bytes that repeat `w` (R14). -/
def rep (w : List Byte) (n : Nat) : List Byte := (List.range n).map fun i => w.getD (i % w.length) 0

/-- The byte spelled by a string of at most 8 bits, the missing low bits being 0 (R57). -/
def byteOf (c : BitStr) : Byte := BitVec.ofNat 8 (val (c ++ List.replicate (8 - c.length) false))

end Sys2Proof.Machine
end

