-- ==== Sys2Proof/Machine/State.lean ====
section
/-! DEFINITION. The architectural state of the engine (R20), as plain data, and its value right after reset (R60). -/

namespace Sys2Proof.Machine

/-- Why the MODEL stops. The faults of the spec are not here: they are next states with `STATUS.ERR = 1` (R293). -/
inductive Fault where
  /-- Raised by the host transactions `readMem` and `writeMem` when the index is outside the space. The spec says such an
  access does not occur at the logical level (R84). Safe: the model stops (log 6). -/
  | noSuchIndex
  deriving DecidableEq, Repr

/-- What the model refuses. -/
inductive Refusal where
  /-- Raised only by an arm of `exec` for a command that has no meaning yet. No arm does. Safe: the model stops. -/
  | notModelled (mnemonic : String)
  deriving DecidableEq, Repr

/-- The fault codes of R291 by name; their numbers are `ErrCode.code`. -/
inductive ErrCode where
  | illegalCmd | cfgErr | badLen | tokenRange | obufFull | unaligned
  | lzTrunc | lzDistZero | lzDistRange
  | hfNotree | hfCbDup | hfMissingKey | hfNoCode | hfTrunc | hfBadPbits
  deriving DecidableEq, Repr

/-- What a decoder step produced last: the values of `T_KIND` (R40). -/
inductive UnitKind where
  | none | literal | matched | symbol
  deriving DecidableEq, Repr

/-- A node of the Huffman tree (R53): "either a Leaf(symbol, frequency) or an Internal(frequency, left child, right child)". -/
inductive Node where
  | leaf (sym : Byte) (freq : Freq40)
  | internal (freq : Freq40) (left right : NodeNum)
  deriving DecidableEq, Repr

/-- A table with one entry per symbol (R50, R51). -/
abbrev Table (α : Type) := Vector α 256

/-- The written bytes of a byte memory, in canonical form: addresses strictly rising. An unlisted address is one nothing has
written since reset (log 4). -/
abbrev Memory := List Host.Cell

/-- The table and buffer spaces of R80; the registers (space REG) are reached by number. -/
inductive Space where
  | freq | cbl | cbc | tree | ibuf | obuf
  deriving DecidableEq, Repr

/-- The five things the host can do (R276). A register number is 0 to 31 by its type (R46). The unit of `ibuf` is a byte: a
write carries it in `v[7:0]` (R81, log 8). -/
inductive HostTxn where
  /-- `HostReadReg(n)` (R277). -/
  | readReg (n : BitVec 5)
  /-- `HostWriteReg(n, v)` (R278); register 0 is `CMD` (R275). -/
  | writeReg (n : BitVec 5) (v : Word)
  /-- `HostReadMem(space, i)` (R279). -/
  | readMem (sp : Space) (i : Nat)
  /-- `HostWriteMem(space, i, v)` (R279). -/
  | writeMem (sp : Space) (i : Nat) (v : Word)
  /-- Hardware reset (R320). -/
  | hardReset
  deriving DecidableEq, Repr

/-- The state (R20). `OBITS` and `OLEN` are computed from `ostr` (R35, R56); `CMD` and the reserved registers hold nothing
(R23, R46). The last three fields are the model's own (INVENTORY.md, State). -/
structure State where
  /-- `STATUS.ERR` (R24, R49) -/
  err : Bool
  /-- `STATUS.END` (R24, R47) -/
  endFlag : Bool
  /-- `STATUS.MVALID` (R24, R39) -/
  mvalid : Bool
  /-- `STATUS.TVALID` (R24, R48) -/
  tvalid : Bool
  /-- `STATUS.ERRCODE` (R24, R49) -/
  errCode : BitVec 8
  /-- `ERRINFO`, REG 2 (R25) -/
  errInfo : Word
  /-- `WSIZE`, REG 3 (R26) -/
  wsize : BitVec 13
  /-- `MINM`, REG 4 (R27) -/
  minm : BitVec 8
  /-- `MAXM`, REG 5 (R28) -/
  maxm : BitVec 9
  /-- `IN_LEN`, REG 6 (R31) -/
  inLen : Word
  /-- `POS`, REG 7 (R32) -/
  pos : Word
  /-- `BITPOS`, REG 8 (R33) -/
  bitpos : Word
  /-- `PBITS`, REG 11 (R36) -/
  pbits : Word
  /-- `M_DIST`, REG 12 (R37) -/
  mDist : Word
  /-- `M_LEN`, REG 13 (R38) -/
  mLen : Word
  /-- `T_KIND`, REG 14 (R40) -/
  tKind : UnitKind
  /-- `T_BYTE`, REG 15 (R41) -/
  tByte : Byte
  /-- `T_DIST`, REG 16 (R42) -/
  tDist : BitVec 12
  /-- `T_LEN`, REG 17 (R43) -/
  tLen : BitVec 9
  /-- `NNODES`, REG 18 (R44) -/
  nnodes : BitVec 9
  /-- `ROOT`, REG 19 (R44) -/
  root : NodeNum
  /-- `IBUF_CAP`, REG 20: the implementation's constant, which nothing writes (R9, R45) -/
  ibufCap : Nat
  /-- `OBUF_CAP`, REG 21: the implementation's constant, which nothing writes (R9, R45) -/
  obufCap : Nat
  /-- `FREQ[0..256)` (R50) -/
  freq : Table Word
  /-- `CBL[0..256)` (R51) -/
  cbl : Table (BitVec 8)
  /-- `CBC[0..256)` (R51) -/
  cbc : Table CodeWord
  /-- `NODE[0..NNODES)` (R53) -/
  nodes : List Node
  /-- `IBUF` (R55) -/
  ibuf : Memory
  /-- the output bit stream `OSTR` (R56) -/
  ostr : BitStr
  /-- MODEL: the number of resets so far, by which the free values of U1 are drawn (log 3) -/
  epoch : Nat
  /-- MODEL: the transactions the host is going to issue, in order (R276, R94; log 1) -/
  hostq : List HostTxn
  /-- MODEL: what the last host read returned (R277, R279; log 2) -/
  rdata : Option Word
  deriving DecidableEq, Repr

/-- The reset state of an engine with the given capacities (R60, R321). -/
def State.resetWith (ibufCap obufCap : Nat) : State where
  err := false
  endFlag := false
  mvalid := false
  tvalid := false
  errCode := 0
  errInfo := 0
  wsize := BitVec.ofNat 13 Config.resetWsize
  minm := BitVec.ofNat 8 Config.resetMinm
  maxm := BitVec.ofNat 9 Config.resetMaxm
  inLen := 0
  pos := 0
  bitpos := 0
  pbits := 0
  mDist := 0
  mLen := 0
  tKind := .none
  tByte := 0
  tDist := 0
  tLen := 0
  nnodes := 0
  root := BitVec.ofNat 9 Config.nil
  ibufCap := ibufCap
  obufCap := obufCap
  freq := Vector.replicate 256 0
  cbl := Vector.replicate 256 0
  cbc := Vector.replicate 256 0
  nodes := []
  ibuf := []
  ostr := []
  epoch := 0
  hostq := []
  rdata := none

/-- The machine right after reset (R60): no byte of `IBUF` written, no transaction pending. -/
def State.reset : State := State.resetWith Config.ibufCap Config.obufCap

end Sys2Proof.Machine
end

