-- ==== Sys2Proof/Machine/Ops.lean ====
section
/-! DEFINITION. The named operations over registers, memories and the output stream; raising a fault (R13, R293) and the
return from one (R273, R297); the loop of the pipeline commands; reset (R60, R320). -/

namespace Sys2Proof.Machine

/-! ### Byte memory -/

/-- The byte last written at `a`, if any since reset. -/
def Memory.read? : Memory → Nat → Option Byte
  | [], _ => none
  | (k, v) :: m, a => if a = k then some v else Memory.read? m a

/-- Write one byte, keeping the addresses strictly rising. -/
def Memory.write : Memory → Nat → Byte → Memory
  | [], a, b => [(a, b)]
  | (k, v) :: m, a, b =>
    if a < k then (a, b) :: (k, v) :: m
    else if a = k then (a, b) :: m
    else (k, v) :: Memory.write m a b

/-- Write `bs` at `a`, `a + 1`, ... in this order. -/
def Memory.writeList : Memory → Nat → List Byte → Memory
  | m, _, [] => m
  | m, a, b :: bs => Memory.writeList (Memory.write m a b) (a + 1) bs

/-- The canonical form of a byte memory: addresses strictly rising (log 4). -/
def Memory.wf : Memory → Bool
  | [] => true
  | [_] => true
  | (a, _) :: (b, v) :: m => decide (a < b) && Memory.wf ((b, v) :: m)

/-! ### Tables -/

/-- Entry `s` of a table. -/
def Table.get {α : Type} (t : Table α) (s : Byte) : α := t[s.toNat]'s.isLt

/-- `t` with entry `s` replaced. -/
def Table.put {α : Type} (t : Table α) (s : Byte) (v : α) : Table α := t.set s.toNat v s.isLt

/-- The table whose entry `s` is `f s`. -/
def Table.tabulate {α : Type} (f : Byte → α) : Table α :=
  ⟨⟨(List.range 256).map fun i => f (BitVec.ofNat 8 i)⟩, by simp⟩

/-! ### Registers that are computed -/

/-- `OBITS` (R34): the length of the output bit stream (R56). -/
def State.obits (s : State) : Nat := s.ostr.length

/-- `OLEN` (R35). -/
def State.olen (s : State) : Nat := ceil8 s.obits

/-- The bits the output buffer holds, `8 * OBUF_CAP` (R34). -/
def State.obufBits (s : State) : Nat := 8 * s.obufCap

/-- `n` more bits fit in the output buffer (the check before every `OutAppend`, R90). -/
def State.fits (s : State) (n : Nat) : Bool := s.obits + n ≤ s.obufBits

/-! ### Configuration -/

/-- `CfgOK` (R29). -/
def cfgOK (s : State) : Bool :=
  1 ≤ s.wsize.toNat && s.wsize.toNat ≤ Config.maxWindow && 1 ≤ s.minm.toNat && s.minm.toNat ≤ s.maxm.toNat &&
    s.maxm.toNat - s.minm.toNat ≤ Config.maxLengthField

/-- `IN_LEN <= IBUF_CAP`, the check before every read of `IBUF` (R31). -/
def lenOK (s : State) : Bool := s.inLen.toNat ≤ s.ibufCap

/-! ### Output stream -/

/-- `OutAppend(c)` (R90). -/
def outAppend (c : BitStr) (s : State) : State := { s with ostr := s.ostr ++ c }

/-- `OSTR <- ""; OBITS <- 0` (R161). -/
def emptyOut (s : State) : State := { s with ostr := [] }

/-- Record the payload length and pad with zero bits to a byte boundary (R164, R116). -/
def flushOut (s : State) : State :=
  { s with pbits := BitVec.ofNat 32 s.obits, ostr := s.ostr ++ List.replicate (padLen s.obits) false }

/-! ### Cursors -/

/-- `POS <- n` (R32). -/
def setPos (n : Nat) (s : State) : State := { s with pos := BitVec.ofNat 32 n }

/-- `BITPOS <- n` (R33). -/
def setBitpos (n : Nat) (s : State) : State := { s with bitpos := BitVec.ofNat 32 n }

/-! ### Faults -/

/-- What `raise Fault(CODE, info)` carries (R13). -/
abbrev Raise := ErrCode × Word

/-- The number of a fault code (R291). -/
def ErrCode.code : ErrCode → BitVec 8
  | .illegalCmd => 0x01
  | .cfgErr => 0x02
  | .badLen => 0x03
  | .tokenRange => 0x04
  | .obufFull => 0x05
  | .unaligned => 0x06
  | .lzTrunc => 0x10
  | .lzDistZero => 0x11
  | .lzDistRange => 0x12
  | .hfNotree => 0x20
  | .hfCbDup => 0x21
  | .hfMissingKey => 0x22
  | .hfNoCode => 0x23
  | .hfTrunc => 0x24
  | .hfBadPbits => 0x25

/-- `raise Fault(CODE, info)`: taking a fault (R13, R293). Nothing else changes. -/
def raise (r : Raise) (s : State) : State :=
  { s with err := true, errCode := r.1.code, errInfo := r.2 }

/-- The return from a fault (R273, R297). -/
def clearFault (s : State) : State := { s with err := false, errCode := 0, errInfo := 0 }

/-- A fault whose information word is a bit or byte count (R292). -/
def raiseAt (c : ErrCode) (n : Nat) : Raise := (c, BitVec.ofNat 32 n)

/-- The `CfgOK` check before `k` (R29). -/
def checkCfg {α : Type} (s : State) (k : Except Raise α) : Except Raise α :=
  if cfgOK s then k else .error (.cfgErr, 0)

/-- The `IN_LEN <= IBUF_CAP` check before `k` (R31). -/
def checkLen {α : Type} (s : State) (k : Except Raise α) : Except Raise α :=
  if lenOK s then k else .error (.badLen, s.inLen)

/-- The `OBITS mod 8 = 0` check of the decoder steps before `k` (R88). -/
def checkAligned {α : Type} (s : State) (k : Except Raise α) : Except Raise α :=
  if s.obits % 8 = 0 then k else .error (raiseAt .unaligned s.obits)

/-- Append a token or code whole, or raise `OBUF_FULL` and append nothing (R90). -/
def putUnit (c : BitStr) (s : State) : Except Raise State :=
  if s.fits c.length then .ok (outAppend c s) else .error (raiseAt .obufFull s.obits)

/-- How a command ends (R293, R294): a unit that raises leaves the state it started from, with the fault recorded. -/
def settle (s : State) : Except Raise State → State
  | .ok t => t
  | .error r => raise r s

/-- The outcome of a command: always a next state, the recorded fault being part of it (R293). -/
def complete (s : State) (r : Except Raise State) : Host.Outcome State Fault Refusal := .next (settle s r)

/-- The loop of a pipeline command: run `unit` until `done`, or until it raises (R294: the state is then that after the last
completed unit, with the fault recorded). `fuel` bounds the number of units (R329; log 11). -/
def iterate (done : State → Bool) (unit : State → Except Raise State) : Nat → State → State × Option Raise
  | 0, s => (s, none)
  | fuel + 1, s =>
    if done s then (s, none)
    else match unit s with
      | .ok t => iterate done unit fuel t
      | .error r => (s, some r)

/-- The end of a pipeline command: `final` after a loop that ran to its end, the recorded fault after one that raised. -/
def finish (final : State → State) : State × Option Raise → State
  | (t, none) => final t
  | (t, some r) => raise r t

/-! ### Reset -/

/-- The reset state (R60, R274, R320). The capacities are not state; the contents of `IBUF` become unspecified anew, which the
next `epoch` stands for (log 3); what the host has read and is going to do is the host's own (log 16). -/
def resetEngine (s : State) : State :=
  { State.resetWith s.ibufCap s.obufCap with epoch := s.epoch + 1, hostq := s.hostq, rdata := s.rdata }

end Sys2Proof.Machine
end

