-- ==== Sys2Proof/Machine/Flags.lean ====
section
/-! DEFINITION. `STATUS` (R24) and the result registers that mirror the last search and the last decoded unit (R39 to R43). -/

namespace Sys2Proof.Machine

/-- `T_KIND` as a register reads it (R40). -/
def UnitKind.code : UnitKind → BitVec 2
  | .none => 0
  | .literal => 1
  | .matched => 2
  | .symbol => 3

/-- `STATUS` assembled (R24): `ERR` bit 0, `END` bit 1, `MVALID` bit 2, `TVALID` bit 3, `ERRCODE` bits [15:8], other bits 0. -/
def statusWord (s : State) : Word :=
  (0 : BitVec 16) ++ s.errCode ++ (0 : BitVec 4) ++ BitVec.ofBool s.tvalid ++ BitVec.ofBool s.mvalid ++
    BitVec.ofBool s.endFlag ++ BitVec.ofBool s.err

/-- `STATUS.END <- b` (R47). -/
def setEnd (b : Bool) (s : State) : State := { s with endFlag := b }

/-- The result of a match search in `MVALID`, `M_DIST`, `M_LEN`: zeros for `None` (R37, R38, R39). -/
def setMatch (r : Option (Nat × Nat)) (s : State) : State :=
  { s with
    mvalid := r.isSome
    mDist := BitVec.ofNat 32 (r.elim 0 (·.1))
    mLen := BitVec.ofNat 32 (r.elim 0 (·.2)) }

/-- The unit a decoder step produced, in the `T_*` registers (R40 to R43). -/
def setToken (k : UnitKind) (b : Byte) (d l : Nat) (s : State) : State :=
  { s with tKind := k, tByte := b, tDist := BitVec.ofNat 12 d, tLen := BitVec.ofNat 9 l }

/-- A decoder step that found its terminal condition: `END <- 1`, `T_* <- 0` (R191, R245). -/
def setTerminal (s : State) : State := setEnd true (setToken .none 0 0 0 s)

end Sys2Proof.Machine
end

