-- ==== Sys2Proof/Machine/Operands.lean ====
section
/-! DEFINITION. The operands commands take from the buffers and tables (R282): input bytes and bits, output bytes, codes of
the codebook, tree nodes. -/

namespace Sys2Proof.Machine

/-! ### Input buffer -/

/-- `IBUF[i]` (R55): the byte written last, or the unspecified byte of U1 (log 3). -/
def ibufAt (s : State) (i : Nat) : Byte := (s.ibuf.read? i).getD (Config.ibufUnspecified s.epoch i)

/-- `InBit(i)`: bit `7 - (i mod 8)` of `IBUF[i div 8]` (R12, R91). -/
def inBit (s : State) (i : Nat) : Bool := (ibufAt s (i / 8)).getLsbD (7 - i % 8)

/-- `InBits(i, n)` (R12). -/
def inBits (s : State) (i n : Nat) : BitStr := (List.range n).map fun j => inBit s (i + j)

/-- The unread bits of the input stream, `8 * IN_LEN -. BITPOS` (R91). -/
def unreadBits (s : State) : Nat := 8 * s.inLen.toNat - s.bitpos.toNat

/-! ### Output buffer -/

/-- `OUT[k]` (R57): the unwritten low bits of a partly filled byte are 0. -/
def outByte (s : State) (k : Nat) : Byte := byteOf ((s.ostr.drop (8 * k)).take 8)

/-- `OUT[0..OLEN)`. -/
def outBytes (s : State) : List Byte := (List.range s.olen).map (outByte s)

/-! ### Codebook -/

/-- The code in an entry of length `n` and value `c` (R52, R119): `n` bits, the first in bit `n - 1`; none when `n = 0`. -/
def codeOfEntry (n : BitVec 8) (c : CodeWord) : Option BitStr :=
  if n.toNat = 0 then none else some ((List.range n.toNat).map fun i => c.getLsbD (n.toNat - 1 - i))

/-- `code(s)` (R52). -/
def code (s : State) (sym : Byte) : Option BitStr := codeOfEntry (Table.get s.cbl sym) (Table.get s.cbc sym)

/-- The codebook as a mapping (R51): the symbols that have a code, ascending, each with its code. -/
def codebook (s : State) : List (Byte × BitStr) :=
  ((s.cbl.toList.zip s.cbc.toList).zipIdx).filterMap fun e =>
    (codeOfEntry e.1.1 e.1.2).map fun c => (BitVec.ofNat 8 e.2, c)

/-- The duplicate pair `(s1, s2)` with the smallest `s1` and, for it, the smallest `s2 > s1` (R241), in a mapping listed by
ascending symbol; none when no two symbols have the same code. -/
def firstDup : List (Byte × BitStr) → Option (Byte × Byte)
  | [] => none
  | e :: rest =>
    match rest.find? fun e' => e'.2 == e.2 with
    | some e' => some (e.1, e'.1)
    | none => firstDup rest

/-- `(s2 << 8) | s1` (R292). -/
def dupInfo (p : Byte × Byte) : Word := (0 : BitVec 16) ++ p.2 ++ p.1

/-- The `CbOK` check (R52, R241) before `k`: `HF_CB_DUP` with the first duplicate pair when it fails. -/
def checkCodebook {α : Type} (cb : List (Byte × BitStr)) (k : Except Raise α) : Except Raise α :=
  match firstDup cb with
  | some p => .error (.hfCbDup, dupInfo p)
  | none => k

/-! ### Tree nodes -/

/-- `NFREQ` of a node (R53). -/
def Node.nfreq : Node → Freq40
  | .leaf _ f => f
  | .internal f _ _ => f

/-- `SYM` of a node: 0 for an internal node (R53). -/
def Node.sym : Node → Byte
  | .leaf x _ => x
  | .internal _ _ _ => 0

/-- `KIND` of a node: 0 leaf, 1 internal (R53). -/
def Node.kind : Node → BitVec 1
  | .leaf _ _ => 0
  | .internal _ _ _ => 1

/-- `LEFT` of a node: NIL for a leaf (R53). -/
def Node.left : Node → NodeNum
  | .leaf _ _ => BitVec.ofNat 9 Config.nil
  | .internal _ l _ => l

/-- `RIGHT` of a node: NIL for a leaf (R53). -/
def Node.right : Node → NodeNum
  | .leaf _ _ => BitVec.ofNat 9 Config.nil
  | .internal _ _ r => r

/-- Word `w` of a node record (R120). -/
def Node.word (n : Node) (w : Nat) : Word :=
  match w with
  | 0 => n.nfreq.extractLsb' 0 32
  | 1 => (0 : BitVec 24) ++ n.nfreq.extractLsb' 32 8
  | 2 => (0 : BitVec 23) ++ n.kind ++ n.sym
  | _ => (0 : BitVec 7) ++ n.right ++ (0 : BitVec 7) ++ n.left

/-- Word `i` of space TREE (R54, R120): 0 when no tree is held or the node number is at or above `NNODES`. -/
def treeWord (s : State) (i : Nat) : Word :=
  if s.tvalid && i / 4 < s.nnodes.toNat then
    match s.nodes[i / 4]? with
    | some n => n.word (i % 4)
    | none => 0
  else 0

end Sys2Proof.Machine
end

