-- ==== Sys2Proof/Machine/HuffTree.lean ====
section
/-! DEFINITION. The frequency counter and the Huffman tree builder (R210 to R218): `HF.COUNT`, `HF.BUILD`. -/

namespace Sys2Proof.Machine

/-- The number of `i` in `[0, IN_LEN)` with `IBUF[i] = x` (R211). -/
def countSymbol (s : State) (x : Byte) : Nat := (List.range s.inLen.toNat).countP fun i => ibufAt s i == x

/-- Write all 256 entries of `FREQ` (R211). -/
def setFreq (t : Table Word) (s : State) : State := { s with freq := t }

/-- `HF.COUNT` (R211). -/
def execHfCount (s : State) : Host.Outcome State Fault Refusal :=
  complete s (checkLen s (.ok (setFreq (Table.tabulate fun x => BitVec.ofNat 32 (countSymbol s x)) s)))

/-- The leaves, one per symbol with a non-zero frequency, in ascending symbol value (R212). -/
def leaves (freq : Table Word) : List Node :=
  freq.toList.zipIdx.filterMap fun e =>
    if e.1.toNat = 0 then none else some (.leaf (BitVec.ofNat 8 e.2) (e.1.setWidth 40))

/-- `NFREQ[n]` as a natural. -/
def nfreqOf (ns : List Node) (n : Nat) : Nat := (ns.getD n (.leaf 0 0)).nfreq.toNat

/-- The priority order: node `a` comes before node `b` (R213). -/
def before (ns : List Node) (a b : Nat) : Bool :=
  nfreqOf ns a < nfreqOf ns b || (nfreqOf ns a == nfreqOf ns b && a < b)

/-- The lowest member of a queue (R213). -/
def lowest (ns : List Node) : List Nat → Option Nat
  | [] => none
  | a :: q => some (q.foldl (fun x y => if before ns y x then y else x) a)

/-- Remove the lowest member of a queue. -/
def takeLowest (ns : List Node) (q : List Nat) : Option (Nat × List Nat) := (lowest ns q).map fun a => (a, q.erase a)

/-- The internal node over `a` and `b`: their frequencies' sum, first-removed on the left (R214). -/
def mergeNode (ns : List Node) (a b : Nat) : Node :=
  .internal (BitVec.ofNat 40 (nfreqOf ns a + nfreqOf ns b)) (BitVec.ofNat 9 a) (BitVec.ofNat 9 b)

/-- The merge loop (R214): while the queue has two members, replace the two lowest by a new internal node. The next free node
number is the number of nodes so far. `fuel` bounds the merges (R218, R329). -/
def mergeLoop : Nat → List Node → List Nat → List Node
  | 0, ns, _ => ns
  | fuel + 1, ns, q =>
    match takeLowest ns q with
    | none => ns
    | some (a, q₁) =>
      match takeLowest ns q₁ with
      | none => ns
      | some (b, q₂) => mergeLoop fuel (ns ++ [mergeNode ns a b]) (q₂ ++ [ns.length])

/-- The nodes of the Huffman tree of a frequency table, in order of node number (R212 to R214). -/
def buildTree (freq : Table Word) : List Node :=
  mergeLoop ((leaves freq).length - 1) (leaves freq) (List.range (leaves freq).length)

/-- Hold a tree: `NODE`, `NNODES`, `ROOT` (the last node, NIL when there is none) and `TVALID` (R215, R216). -/
def setTree (ns : List Node) (s : State) : State :=
  { s with
    nodes := ns
    nnodes := BitVec.ofNat 9 ns.length
    root := BitVec.ofNat 9 (if ns.length = 0 then Config.nil else ns.length - 1)
    tvalid := true }

/-- `HF.BUILD` (R215). -/
def execHfBuild (s : State) : Host.Outcome State Fault Refusal := complete s (.ok (setTree (buildTree s.freq) s))

end Sys2Proof.Machine
end

