-- ==== Sys2Proof/Machine/HuffCode.lean ====
section
/-! DEFINITION. The Huffman codebook deriver (R230 to R236): `HF.DERIVE`. -/

namespace Sys2Proof.Machine

/-- The leaves below node `n`, each with its path: `c` is the path of `n`, a left edge adds 0 and a right edge adds 1
(R230, R231). `fuel` bounds the depth, at most 255 edges (R218, R231). -/
def paths : Nat → List Node → Nat → BitStr → List (Byte × BitStr)
  | 0, _, _, _ => []
  | fuel + 1, ns, n, c =>
    match ns[n]? with
    | some (.leaf x _) => [(x, c)]
    | some (.internal _ l r) => paths fuel ns l.toNat (c ++ [false]) ++ paths fuel ns r.toNat (c ++ [true])
    | none => []

/-- The codes of the tree that is held (R231): the one-bit code "0" for a one-node tree (R232), none for an empty one. -/
def treeCodes (s : State) : List (Byte × BitStr) :=
  if s.nnodes.toNat = 1 then [((s.nodes.getD 0 (.leaf 0 0)).sym, [false])]
  else if 2 ≤ s.nnodes.toNat then paths 256 s.nodes s.root.toNat []
  else []

/-- `CBL`: the lengths of the codes, 0 for a symbol without one (R119, R233). -/
def codebookLengths (codes : List (Byte × BitStr)) : Table (BitVec 8) :=
  Table.tabulate fun x => match codes.lookup x with
    | some c => BitVec.ofNat 8 c.length
    | none => 0

/-- `CBC`: the codes as right-aligned values, 0 for a symbol without one (R119, R233). -/
def codebookWords (codes : List (Byte × BitStr)) : Table CodeWord :=
  Table.tabulate fun x => match codes.lookup x with
    | some c => BitVec.ofNat 256 (val c)
    | none => 0

/-- Write all 256 entries of `CBL` and `CBC` (R233). -/
def setCodebook (codes : List (Byte × BitStr)) (s : State) : State :=
  { s with cbl := codebookLengths codes, cbc := codebookWords codes }

/-- Discard the tree (R235). -/
def discardTree (s : State) : State :=
  { s with nodes := [], nnodes := 0, root := BitVec.ofNat 9 Config.nil, tvalid := false }

/-- `HF.DERIVE` (R233). -/
def execHfDerive (s : State) : Host.Outcome State Fault Refusal :=
  complete s (if s.tvalid then .ok (discardTree (setCodebook (treeCodes s) s)) else .error (.hfNotree, 0))

end Sys2Proof.Machine
end

