-- ==== Sys2Proof/Machine/MatchFinder.lean ====
section
/-! DEFINITION. The sliding-window match finder (R140 to R151) and its command `LZ.FIND`. -/

namespace Sys2Proof.Machine

/-- `MAXD = min(WSIZE, 4095)` (R30). -/
def maxd (s : State) : Nat := min s.wsize.toNat Config.maxDistField

/-- `mlen(d)`: the largest `k <= cap` with `data[p-d+i] = data[p+i]` for every `i < k` (R144). The source run may reach into
the lookahead (R145). -/
def mlen (data : Nat → Byte) (p cap d : Nat) : Nat :=
  ((List.range cap).takeWhile fun i => data (p - d + i) == data (p + i)).length

/-- The candidate distances at `p`, nearest first: `1 <= d <= min(p, MAXD)` (R142). -/
def candidates (p maxDist : Nat) : List Nat := (List.range (min p maxDist)).map (· + 1)

/-- `Lmax`: the greatest match length of a candidate, 0 when there is none (R146). -/
def longest (len : Nat → Nat) (ds : List Nat) : Nat := ds.foldl (fun m d => max m (len d)) 0

/-- `find(data, N, p)` (R146, R147): the longest match and, among the longest, the nearest; `none` below `MINM`. -/
def find (data : Nat → Byte) (n p minM maxM maxDist : Nat) : Option (Nat × Nat) :=
  let len := mlen data p (min maxM (n - p))
  let ds := candidates p maxDist
  let l := longest len ds
  if minM ≤ l then (ds.find? fun d => len d == l).map fun d => (d, l) else none

/-- `find(IBUF, IN_LEN, POS)` under the configuration (R148, R165). -/
def findAtPos (s : State) : Option (Nat × Nat) :=
  find (ibufAt s) s.inLen.toNat s.pos.toNat s.minm.toNat s.maxm.toNat (maxd s)

/-- `LZ.FIND` (R148). -/
def execLzFind (s : State) : Host.Outcome State Fault Refusal :=
  complete s (checkCfg s (checkLen s (.ok (setMatch (findAtPos s) s))))

end Sys2Proof.Machine
end

