-- ==== Sys2Proof/Machine/LzssPacker.lean ====
section
/-! DEFINITION. The LZSS bit packer and encoder (R160 to R169): `BS.INIT`, `LZ.PUTL`, `LZ.PUTM`, `BS.FLUSH`, `LZ.STEP`,
`LZ.ENC`. -/

namespace Sys2Proof.Machine

/-- `enc(Literal(b)) = "0" ++ bits_8(b)` (R114). -/
def literalToken (b : Byte) : BitStr := false :: bits 8 b.toNat

/-- `enc(Match(d, L)) = "1" ++ bits_12(d) ++ bits_4(L - MINM)` (R115). -/
def matchToken (minM d l : Nat) : BitStr := true :: (bits 12 d ++ bits 4 (l - minM))

/-- `BS.INIT` (R161). -/
def execBsInit (s : State) : Host.Outcome State Fault Refusal := complete s (.ok (setEnd false (emptyOut s)))

/-- `LZ.PUTL imm8` (R162). The configuration is not read. -/
def execLzPutl (b : Byte) (s : State) : Host.Outcome State Fault Refusal := complete s (putUnit (literalToken b) s)

/-- The distance and the length are representable in the token fields under `MINM` (R115, R163). -/
def tokenInRange (minM d l : Nat) : Bool :=
  1 ≤ d && d ≤ Config.maxDistField && minM ≤ l && l ≤ minM + Config.maxLengthField

/-- `LZ.PUTM` (R163): the token of `M_DIST`, `M_LEN`. -/
def execLzPutm (s : State) : Host.Outcome State Fault Refusal :=
  complete s (checkCfg s (
    if tokenInRange s.minm.toNat s.mDist.toNat s.mLen.toNat then
      putUnit (matchToken s.minm.toNat s.mDist.toNat s.mLen.toNat) s
    else .error (.tokenRange, 0)))

/-- `BS.FLUSH` (R164). -/
def execBsFlush (s : State) : Host.Outcome State Fault Refusal := complete s (.ok (flushOut s))

/-- The terminal condition of the encoders: `POS >= IN_LEN` (R165, R166, R243). -/
def atInputEnd (s : State) : Bool := s.inLen.toNat ≤ s.pos.toNat

/-- One token at `POS < IN_LEN`: the else-branch of `LZ.STEP` (R165). The match is always taken when there is one (R151). -/
def encodeToken (s : State) : Except Raise State :=
  match findAtPos s with
  | some (d, l) =>
    (putUnit (matchToken s.minm.toNat d l) s).map fun t =>
      setEnd false (setPos (s.pos.toNat + l) (setMatch (some (d, l)) t))
  | none =>
    (putUnit (literalToken (ibufAt s s.pos.toNat)) s).map fun t =>
      setEnd false (setPos (s.pos.toNat + 1) (setMatch none t))

/-- `LZ.STEP` (R165). -/
def execLzStep (s : State) : Host.Outcome State Fault Refusal :=
  complete s (checkCfg s (checkLen s (if atInputEnd s then .ok (setEnd true s) else encodeToken s)))

/-- The state an encoder pipeline starts its loop from (R166, R243). -/
def encodeStart (s : State) : State := setEnd false (setPos 0 (emptyOut s))

/-- The end of an encoder pipeline that ran through: `BS.FLUSH`, then `END <- 1` (R166, R243). -/
def encodeEnd (s : State) : State := setEnd true (flushOut s)

/-- `LZ.ENC` (R166). At most `IN_LEN` tokens (R169). -/
def execLzEnc (s : State) : Host.Outcome State Fault Refusal :=
  complete s (checkCfg s (checkLen s (.ok
    (finish encodeEnd (iterate atInputEnd encodeToken s.inLen.toNat (encodeStart s))))))

end Sys2Proof.Machine
end

