-- ==== Sys2Proof/Machine/LzssUnpacker.lean ====
section
/-! DEFINITION. The LZSS bit unpacker and decoder (R190 to R200): `LZ.DSTEP`, `LZ.DEC`. -/

namespace Sys2Proof.Machine

/-- The copy of `l` bytes from `d` bytes before the output end, one at a time, so that an appended byte is a source of the
same copy (R196). -/
def copyMatch (d : Nat) : Nat → State → State
  | 0, s => s
  | l + 1, s => copyMatch d l (outAppend (bits 8 (outByte s (s.olen - d)).toNat) s)

/-- The literal token at `BITPOS` (R193). -/
def decodeLiteral (s : State) : Except Raise State :=
  let p := s.bitpos.toNat
  let b := BitVec.ofNat 8 (val (inBits s (p + 1) 8))
  (putUnit (bits 8 b.toNat) s).map fun t => setEnd false (setBitpos (p + 9) (setToken .literal b 0 0 t))

/-- The match token at `BITPOS`, with its checks in the order of R195 (R194, R195, R196). -/
def decodeMatch (s : State) : Except Raise State :=
  let p := s.bitpos.toNat
  let d := val (inBits s (p + 1) 12)
  let l := val (inBits s (p + 13) 4) + s.minm.toNat
  if unreadBits s < 17 then .error (raiseAt .lzTrunc p)
  else if d = 0 then .error (raiseAt .lzDistZero p)
  else if s.olen < d then .error (raiseAt .lzDistRange p)
  else if s.fits (8 * l) then
    .ok (setEnd false (setBitpos (p + 17) (setToken .matched 0 d l (copyMatch d l s))))
  else .error (raiseAt .obufFull s.obits)

/-- The pseudocode of `LZ.DSTEP` after its checks (R191): fewer than 9 unread bits are the end (R192). -/
def decodeToken (s : State) : Except Raise State :=
  if unreadBits s < 9 then .ok (setTerminal s)
  else if inBit s s.bitpos.toNat then decodeMatch s
  else decodeLiteral s

/-- `LZ.DSTEP` (R191). -/
def execLzDstep (s : State) : Host.Outcome State Fault Refusal :=
  complete s (checkCfg s (checkLen s (checkAligned s (decodeToken s))))

/-- The state a decoder pipeline starts its loop from (R197, R246). -/
def decodeStart (s : State) : State := setEnd false (setBitpos 0 (emptyOut s))

/-- `LZ.DEC` (R197). At most `(8 * IN_LEN) div 9` token steps (R200) and the terminal one. -/
def execLzDec (s : State) : Host.Outcome State Fault Refusal :=
  complete s (checkCfg s (checkLen s (.ok
    (finish id (iterate (·.endFlag) decodeToken (8 * s.inLen.toNat / 9 + 1) (decodeStart s))))))

end Sys2Proof.Machine
end

