-- ==== Sys2Proof/Machine/HuffStream.lean ====
section
/-! DEFINITION. The Huffman bitstream encoder and decoder (R240 to R250): `HF.PUTS`, `HF.ENC`, `HF.DSYM`, `HF.DEC`. -/

namespace Sys2Proof.Machine

/-- Append the code of a symbol (R242, R243): `HF_MISSING_KEY` when it has none. -/
def putSymbol (x : Byte) (s : State) : Except Raise State :=
  match code s x with
  | none => .error (.hfMissingKey, x.setWidth 32)
  | some c => putUnit c s

/-- `HF.PUTS imm8` (R242). -/
def execHfPuts (x : Byte) (s : State) : Host.Outcome State Fault Refusal :=
  complete s (checkCodebook (codebook s) (putSymbol x s))

/-- One iteration of `HF.ENC` at `POS < IN_LEN` (R243). -/
def encodeSymbol (s : State) : Except Raise State :=
  (putSymbol (ibufAt s s.pos.toNat) s).map fun t => setPos (s.pos.toNat + 1) t

/-- `HF.ENC` (R243): `IN_LEN` iterations (R250). -/
def execHfEnc (s : State) : Host.Outcome State Fault Refusal :=
  complete s (checkLen s (checkCodebook (codebook s) (.ok
    (finish encodeEnd (iterate atInputEnd encodeSymbol s.inLen.toNat (encodeStart s))))))

/-- What matching one code gives (R244). -/
inductive CodeMatch where
  | hit (x : Byte) (k : Nat)
  | noCode
  | trunc
  deriving DecidableEq, Repr

/-- The loop of `hmatch` (R244) from `k` on: after `k` bits the accumulator is compared with the codebook `cb`. -/
def hmatchFrom (s : State) (cb : List (Byte × BitStr)) (i lim : Nat) : Nat → Nat → CodeMatch
  | 0, _ => .noCode
  | fuel + 1, k =>
    if lim < i + k then .trunc
    else
      match cb.find? fun e => e.2 == inBits s i k with
      | some e => .hit e.1 k
      | none =>
        if cb.any fun e => k < e.2.length && (inBits s i k).isPrefixOf e.2 then hmatchFrom s cb i lim fuel (k + 1)
        else .noCode

/-- `hmatch(i, lim)` (R244). No code is longer than 255 bits, so 255 rounds decide. -/
def hmatch (s : State) (cb : List (Byte × BitStr)) (i lim : Nat) : CodeMatch := hmatchFrom s cb i lim 255 1

/-- The pseudocode of `HF.DSYM` after its checks (R245). -/
def decodeSymbol (cb : List (Byte × BitStr)) (s : State) : Except Raise State :=
  let p := s.bitpos.toNat
  if s.pbits.toNat ≤ p then .ok (setTerminal s)
  else match hmatch s cb p s.pbits.toNat with
    | .noCode => .error (raiseAt .hfNoCode p)
    | .trunc => .error (raiseAt .hfTrunc p)
    | .hit x k =>
      (putUnit (bits 8 x.toNat) s).map fun t => setEnd false (setBitpos (p + k) (setToken .symbol x 0 0 t))

/-- The `PBITS <= 8 * IN_LEN` check before `k` (R245, R246). -/
def checkPbits {α : Type} (s : State) (k : Except Raise α) : Except Raise α :=
  if s.pbits.toNat ≤ 8 * s.inLen.toNat then k else .error (.hfBadPbits, s.pbits)

/-- `HF.DSYM` (R245). -/
def execHfDsym (s : State) : Host.Outcome State Fault Refusal :=
  complete s (checkLen s (checkPbits s (checkAligned s (checkCodebook (codebook s) (decodeSymbol (codebook s) s)))))

/-- `HF.DEC` (R246). At most `PBITS` emitting steps (R250) and the terminal one. -/
def execHfDec (s : State) : Host.Outcome State Fault Refusal :=
  complete s (checkLen s (checkPbits s (checkCodebook (codebook s) (.ok
    (finish id (iterate (·.endFlag) (decodeSymbol (codebook s)) (s.pbits.toNat + 1) (decodeStart s)))))))

end Sys2Proof.Machine
end

