-- ==== Sys2Proof/Machine/System.lean ====
section
/-! DEFINITION. The system commands (R270 to R274): `NOP`, `BUF.XFER`, `SYS.CLRERR`, `SYS.RESET`. -/

namespace Sys2Proof.Machine

/-- `NOP` (R271). -/
def execNop (s : State) : Host.Outcome State Fault Refusal := complete s (.ok s)

/-- Move the output bytes to the input buffer, empty the output and zero the cursors (R272). -/
def moveOutput (s : State) : State :=
  { s with
    ibuf := Memory.writeList s.ibuf 0 (outBytes s)
    inLen := BitVec.ofNat 32 s.olen
    ostr := []
    pos := 0
    bitpos := 0
    endFlag := false }

/-- `BUF.XFER` (R272). -/
def execBufXfer (s : State) : Host.Outcome State Fault Refusal :=
  complete s (if s.olen ≤ s.ibufCap then .ok (moveOutput s) else .error (raiseAt .badLen s.olen))

/-- `SYS.CLRERR` (R273). -/
def execSysClrerr (s : State) : Host.Outcome State Fault Refusal := complete s (.ok (clearFault s))

/-- `SYS.RESET` (R274). -/
def execSysReset (s : State) : Host.Outcome State Fault Refusal := complete s (.ok (resetEngine s))

end Sys2Proof.Machine
end

