-- ==== Sys2Proof/Machine/Dispatch.lean ====
section
/-! DEFINITION. The meaning of every command, one arm each: its own rule (step 3 of R275). The gate and the legality check
of R275 stand in `hostWriteCmd` (Machine/HostPort.lean; log 15). -/

namespace Sys2Proof.Machine

def exec (i : Instr) (s : State) : Host.Outcome State Fault Refusal :=
  match i with
  | .nop => Sys2Proof.Machine.execNop s
  | .lzFind => Sys2Proof.Machine.execLzFind s
  | .lzPutl b => Sys2Proof.Machine.execLzPutl b s
  | .lzPutm => Sys2Proof.Machine.execLzPutm s
  | .lzStep => Sys2Proof.Machine.execLzStep s
  | .lzEnc => Sys2Proof.Machine.execLzEnc s
  | .lzDstep => Sys2Proof.Machine.execLzDstep s
  | .lzDec => Sys2Proof.Machine.execLzDec s
  | .hfCount => Sys2Proof.Machine.execHfCount s
  | .hfBuild => Sys2Proof.Machine.execHfBuild s
  | .hfDerive => Sys2Proof.Machine.execHfDerive s
  | .hfPuts b => Sys2Proof.Machine.execHfPuts b s
  | .hfEnc => Sys2Proof.Machine.execHfEnc s
  | .hfDsym => Sys2Proof.Machine.execHfDsym s
  | .hfDec => Sys2Proof.Machine.execHfDec s
  | .bsInit => Sys2Proof.Machine.execBsInit s
  | .bsFlush => Sys2Proof.Machine.execBsFlush s
  | .bufXfer => Sys2Proof.Machine.execBufXfer s
  | .sysClrerr => Sys2Proof.Machine.execSysClrerr s
  | .sysReset => Sys2Proof.Machine.execSysReset s

end Sys2Proof.Machine
end

