-- ==== Sys2Proof/Machine/HostPort.lean ====
section
/-! DEFINITION. The host's transactions (R276 to R279, R320) and what a write to `CMD` does (R275). -/

namespace Sys2Proof.Machine

/-- `HostReadReg(n)` (R22, R277): `CMD` and the reserved numbers read 0. -/
def hostReadReg (s : State) (n : BitVec 5) : Word :=
  match n.toNat with
  | 1 => statusWord s
  | 2 => s.errInfo
  | 3 => s.wsize.setWidth 32
  | 4 => s.minm.setWidth 32
  | 5 => s.maxm.setWidth 32
  | 6 => s.inLen
  | 7 => s.pos
  | 8 => s.bitpos
  | 9 => BitVec.ofNat 32 s.obits
  | 10 => BitVec.ofNat 32 s.olen
  | 11 => s.pbits
  | 12 => s.mDist
  | 13 => s.mLen
  | 14 => s.tKind.code.setWidth 32
  | 15 => s.tByte.setWidth 32
  | 16 => s.tDist.setWidth 32
  | 17 => s.tLen.setWidth 32
  | 18 => s.nnodes.setWidth 32
  | 19 => s.root.setWidth 32
  | 20 => BitVec.ofNat 32 s.ibufCap
  | 21 => BitVec.ofNat 32 s.obufCap
  | _ => 0

/-- A host write to a register other than `CMD` (R278): a read-write register stores the value truncated to its field; a
read-only or reserved one ignores it. No other effect (R93). -/
def writeDataReg (n : BitVec 5) (v : Word) (s : State) : State :=
  match n.toNat with
  | 3 => { s with wsize := v.setWidth 13 }
  | 4 => { s with minm := v.setWidth 8 }
  | 5 => { s with maxm := v.setWidth 9 }
  | 6 => { s with inLen := v }
  | 7 => { s with pos := v }
  | 8 => { s with bitpos := v }
  | 11 => { s with pbits := v }
  | 12 => { s with mDist := v }
  | 13 => { s with mLen := v }
  | _ => s

/-- The word is ignored because a fault is recorded (R295, step 1 of R275): only the exact words of `SYS.CLRERR` and
`SYS.RESET` pass. -/
def gated (w : Word) (s : State) : Bool := s.err && w != 0x7E000000 && w != 0x7F000000

/-- A host write of `w` to `CMD` (R23, R275): the gate, then legality, then the command. -/
def hostWriteCmd (w : Word) (s : State) : Host.Outcome State Fault Refusal :=
  if gated w s then .next s
  else match decode w with
    | .ok i => exec i s
    | .error _ => .next (raise (.illegalCmd, w) s)

/-- `HostWriteReg(n, v)` (R278). -/
def hostWriteReg (n : BitVec 5) (v : Word) (s : State) : Host.Outcome State Fault Refusal :=
  if n = 0 then hostWriteCmd v s else .next (writeDataReg n v s)

/-- The number of units of a space (R80). -/
def Space.size (s : State) : Space → Nat
  | .freq => 256
  | .cbl => 256
  | .cbc => 2048
  | .tree => 2044
  | .ibuf => s.ibufCap
  | .obuf => s.obufCap

/-- `HostReadMem(space, i)` for an index inside the space (R279, R80): a byte is zero-extended. -/
def hostReadMem (s : State) (sp : Space) (i : Nat) : Word :=
  match sp with
  | .freq => Table.get s.freq (BitVec.ofNat 8 i)
  | .cbl => (Table.get s.cbl (BitVec.ofNat 8 i)).setWidth 32
  | .cbc => (Table.get s.cbc (BitVec.ofNat 8 (i / 8))).extractLsb' (32 * (i % 8)) 32
  | .tree => treeWord s i
  | .ibuf => (ibufAt s i).setWidth 32
  | .obuf => (outByte s i).setWidth 32

/-- `c` with bits `[32w+31 : 32w]` replaced by `v` (R85). -/
def setCodeWord (c : CodeWord) (w : Nat) (v : Word) : CodeWord :=
  (c &&& ~~~((0xFFFFFFFF : CodeWord) <<< (32 * w))) ||| (v.setWidth 256 <<< (32 * w))

/-- `HostWriteMem(space, i, v)` for an index inside the space (R82, R279): `TREE` and `OBUF` ignore it. -/
def hostWriteMem (sp : Space) (i : Nat) (v : Word) (s : State) : State :=
  match sp with
  | .freq => { s with freq := Table.put s.freq (BitVec.ofNat 8 i) v }
  | .cbl => { s with cbl := Table.put s.cbl (BitVec.ofNat 8 i) (v.setWidth 8) }
  | .cbc =>
    let x := BitVec.ofNat 8 (i / 8)
    { s with cbc := Table.put s.cbc x (setCodeWord (Table.get s.cbc x) (i % 8) v) }
  | .tree => s
  | .ibuf => { s with ibuf := Memory.write s.ibuf i (v.setWidth 8) }
  | .obuf => s

/-- What a read returns goes to the host (log 2). -/
def deliver (v : Word) (s : State) : State := { s with rdata := some v }

/-- One host transaction, atomic (R92, R276). -/
def hostTxn (t : HostTxn) (s : State) : Host.Outcome State Fault Refusal :=
  match t with
  | .readReg n => .next (deliver (hostReadReg s n) s)
  | .writeReg n v => hostWriteReg n v s
  | .readMem sp i => if i < sp.size s then .next (deliver (hostReadMem s sp i) s) else .fault .noSuchIndex
  | .writeMem sp i v => if i < sp.size s then .next (hostWriteMem sp i v s) else .fault .noSuchIndex
  | .hardReset => .next (resetEngine s)

/-- The next thing that happens: the transaction at the head of the host's queue, the first in issue order (R94). With none
pending the state is constant (R299). -/
def nextTxn (s : State) : Host.Outcome State Fault Refusal :=
  match s.hostq with
  | [] => .next s
  | t :: q => hostTxn t { s with hostq := q }

/-- Put a write of `w` to `CMD` at the head of the host's queue. -/
def issueCommand (w : Word) (s : State) : State := { s with hostq := .writeReg 0 w :: s.hostq }

end Sys2Proof.Machine
end

