-- ==== Sys2Proof/Machine/Step.lean ====
section
/-! DEFINITION. One step of the machine: the host's next transaction (R276, R94), a command being a write to `CMD`. -/

namespace Sys2Proof.Machine

/-- One step (log 1). -/
def step (s : State) : Host.Outcome State Fault Refusal := nextTxn s

/-- `s` with the command word of an instruction, given as `nbits` bits `w`, as the host's next `CMD` write: the engine fetches
nothing (R21), so this is where its next command comes from (log 1). -/
def State.withFetchWord (s : State) (nbits w : Nat) : State := issueCommand (tableWord nbits w) s

end Sys2Proof.Machine
end

