-- ==== Sys2Proof/Safety.lean ====
section
/-! DEFINITION. What the claims speak of: the invariant of the machine's states, and the spec's own notions that are not state
(matches, tokens, codes, runs of commands). No definition of the machine uses them. -/

namespace Sys2Proof.Machine

/-! ### Runs -/

/-- The state after a command, if it answers one. -/
def after (i : Instr) (s : State) : Option State :=
  match exec i s with
  | .next t => some t
  | _ => none

/-- The state after issuing commands in order while no fault is recorded; none as soon as one is (R125, R280). -/
def afterAll : List Instr → State → Option State
  | [], s => some s
  | i :: is, s =>
    match after i s with
    | some t => if t.err then none else afterAll is t
    | none => none

/-- The input bytes `IBUF[0..IN_LEN)` (R31). -/
def inputBytes (s : State) : List Byte := (List.range s.inLen.toNat).map (ibufAt s)

/-! ### The invariant -/

/-- Node `n` is not yet a child of a node below `k`: a member of the queue when node `k` is made (R214). -/
def InQueue (ns : List Node) (k n : Nat) : Prop :=
  n < k ∧ ∀ j < k, ∀ (f : Freq40) (l r : NodeNum), ns[j]? = some (Node.internal f l r) → l.toNat ≠ n ∧ r.toNat ≠ n

/-- Node `a` comes before node `b` (R213). -/
def ComesBefore (ns : List Node) (a b : Nat) : Prop :=
  nfreqOf ns a < nfreqOf ns b ∨ (nfreqOf ns a = nfreqOf ns b ∧ a < b)

/-- Node `k` is the internal node over the lowest member `a` of the queue and the lowest `b` of what remains, `a` on the left,
and its frequency is their sum (R214). -/
def IsMerge (ns : List Node) (k : Nat) : Prop :=
  ∃ (a b : Nat) (f : Freq40), ns[k]? = some (Node.internal f (BitVec.ofNat 9 a) (BitVec.ofNat 9 b)) ∧
    f.toNat = nfreqOf ns a + nfreqOf ns b ∧ InQueue ns k a ∧ InQueue ns k b ∧ a ≠ b ∧
    (∀ n, InQueue ns k n → n ≠ a → ComesBefore ns a n) ∧ (∀ n, InQueue ns k n → n ≠ a → n ≠ b → ComesBefore ns b n)

/-- `ns` is the Huffman tree of a frequency table: `syms` are the symbols of non-zero frequency in ascending order, the first
nodes are their leaves (R212), every later node is a merge (R214), and there are `2m - 1` nodes (R215, R216). -/
def IsHuffTree (freq : Table Word) (ns : List Node) : Prop :=
  ∃ syms : List Byte, syms.Pairwise (fun x y => x.toNat < y.toNat) ∧ (∀ x, x ∈ syms ↔ Table.get freq x ≠ 0) ∧
    ns.length = 2 * syms.length - 1 ∧
    (∀ k (h : k < syms.length), ns[k]? = some (Node.leaf syms[k] ((Table.get freq syms[k]).setWidth 40))) ∧
    ∀ k, syms.length ≤ k → k < ns.length → IsMerge ns k

/-- The node store and its registers: without a tree they are empty (R44, R48); a held tree is the Huffman tree of some
frequency table (R215: only `HF.BUILD` writes one), counted by `NNODES`, its last node the root (R215, R216). -/
structure TreeOK (s : State) : Prop where
  absent : s.tvalid = false → s.nodes = [] ∧ s.nnodes = 0 ∧ s.root = 511
  built : s.tvalid = true → ∃ freq, IsHuffTree freq s.nodes
  count : s.nodes.length = s.nnodes.toNat
  rootIs : s.root.toNat = if s.nodes = [] then 511 else s.nodes.length - 1

/-- The range of the capacities (R9). -/
def CapsOK (s : State) : Prop := 1 ≤ s.ibufCap ∧ s.ibufCap ≤ 2 ^ 28 ∧ 1 ≤ s.obufCap ∧ s.obufCap ≤ 2 ^ 28

/-- What every step keeps. -/
structure Inv (s : State) : Prop where
  /-- the canonical form of `IBUF` (log 4) -/
  memWf : s.ibuf.wf = true
  /-- no byte outside `IBUF[0..IBUF_CAP)` (R84) -/
  memInside : ∀ (a : Nat) (b : Byte), (a, b) ∈ s.ibuf → a < s.ibufCap
  /-- the range of the capacities (R9) -/
  caps : CapsOK s
  /-- `0 <= OBITS <= 8 * OBUF_CAP` always (R34) -/
  outFits : s.ostr.length ≤ 8 * s.obufCap
  /-- no fault recorded: `ERRCODE` and `ERRINFO` are 0 (R24, R25) -/
  noFault : s.err = false → s.errCode = 0 ∧ s.errInfo = 0
  /-- a fault recorded: `ERRCODE` is one of the codes of R291 -/
  faultCode : s.err = true → ∃ c : ErrCode, s.errCode = c.code
  /-- `T_BYTE` is 0 unless a byte was produced; `T_DIST`, `T_LEN` are 0 unless a match was (R41 to R43) -/
  token : (s.tKind = .none ∨ s.tKind = .matched → s.tByte = 0) ∧ (s.tKind ≠ .matched → s.tDist = 0 ∧ s.tLen = 0)
  /-- the tree store and its registers agree -/
  tree : TreeOK s

/-! ### The match finder -/

/-- `cap(p) = min(MAXM, N -. p)` at `p = POS` (R143). -/
def lookahead (s : State) : Nat := min s.maxm.toNat (s.inLen.toNat - s.pos.toNat)

/-- `d` is a candidate distance at `POS` (R142). -/
def IsCandidate (s : State) (d : Nat) : Prop := 1 ≤ d ∧ d ≤ s.pos.toNat ∧ d ≤ s.wsize.toNat ∧ d ≤ Config.maxDistField

/-- The run at distance `d` agrees with the lookahead at `POS` for `k` symbols. -/
def AgreesFor (s : State) (d k : Nat) : Prop :=
  ∀ i < k, ibufAt s (s.pos.toNat - d + i) = ibufAt s (s.pos.toNat + i)

/-- `k = mlen(d)`: the largest `k <= cap(POS)` for which the run agrees (R144). -/
def IsMatchLen (s : State) (d k : Nat) : Prop :=
  k ≤ lookahead s ∧ AgreesFor s d k ∧ ∀ j ≤ lookahead s, AgreesFor s d j → j ≤ k

/-- `(d, L)` is what `find` must choose at `POS`: a candidate of length at least `MINM`, none longer, and none as long that is
nearer (R146, R147). -/
def IsBestMatch (s : State) (d l : Nat) : Prop :=
  IsCandidate s d ∧ IsMatchLen s d l ∧ s.minm.toNat ≤ l ∧
    ∀ d' l', IsCandidate s d' → IsMatchLen s d' l' → l' < l ∨ (l' = l ∧ d ≤ d')

/-- No candidate reaches `MINM` (R147). -/
def NoMatch (s : State) : Prop := ∀ d l, IsCandidate s d → IsMatchLen s d l → l < s.minm.toNat

/-! ### Tokens -/

/-- A token (R17, R59): a literal byte, or a match of a distance and a length. -/
inductive Token where
  | literal (b : Byte)
  | matched (d l : Nat)
  deriving DecidableEq, Repr

/-- `enc(t)` (R114, R115). -/
def Token.enc (minM : Nat) : Token → BitStr
  | .literal b => false :: bits 8 b.toNat
  | .matched d l => true :: (bits 12 d ++ bits 4 (l - minM))

/-- A token a decoder accepts after `n` bytes (R195, R199). -/
def Token.valid (minM n : Nat) : Token → Prop
  | .literal _ => True
  | .matched d l => 1 ≤ d ∧ d ≤ n ∧ d ≤ Config.maxDistField ∧ minM ≤ l ∧ l ≤ minM + Config.maxLengthField

/-- The bytes after a token, `w` being those before it; a match adds `rep` of the last `d` bytes (R196). -/
def Token.expand (w : List Byte) : Token → List Byte
  | .literal b => w ++ [b]
  | .matched d l => w ++ rep (w.drop (w.length - d)) l

/-- The stream of a token sequence, before padding (R113). -/
def encTokens (minM : Nat) (ts : List Token) : BitStr := ts.flatMap (Token.enc minM)

/-- The bytes a token sequence stands for, after `w`. -/
def expandTokens (w : List Byte) (ts : List Token) : List Byte := ts.foldl Token.expand w

/-- Every token is acceptable where it stands, after `w`. -/
def validTokens (minM : Nat) : List Byte → List Token → Prop
  | _, [] => True
  | w, t :: ts => t.valid minM w.length ∧ validTokens minM (t.expand w) ts

/-- The input bit stream `InBits(0, 8 * IN_LEN)` (R12). -/
def inputStream (s : State) : BitStr := inBits s 0 (8 * s.inLen.toNat)

/-- A bit string extended with zero bits to a whole number of bytes (R116). -/
def padded (c : BitStr) : BitStr := c ++ List.replicate (padLen c.length) false

/-! ### Codes -/

/-- No code is a prefix of the code of another symbol (R234). -/
def PrefixFree (code : Byte → Option BitStr) : Prop :=
  ∀ x y cx cy, x ≠ y → code x = some cx → code y = some cy → ¬ cx <+: cy

/-- `CbOK`: no two symbols with a code have the same one (R52). -/
def CbOK (s : State) : Prop := ∀ x y c, code s x = some c → code s y = some c → x = y

/-- `(x, y)` is the duplicate pair with the smallest `x` and, for that `x`, the smallest `y > x` (R241). -/
def IsFirstDup (s : State) (x y : Byte) : Prop :=
  x.toNat < y.toNat ∧ (∃ c, code s x = some c ∧ code s y = some c) ∧
    ∀ x' y' c, x'.toNat < y'.toNat → code s x' = some c → code s y' = some c →
      x.toNat < x'.toNat ∨ (x = x' ∧ y.toNat ≤ y'.toNat)

/-- The codes of a byte sequence in order; none when a byte has no code (R118). -/
def encSymbols (code : Byte → Option BitStr) : List Byte → Option BitStr
  | [] => some []
  | x :: xs => (code x).bind fun c => (encSymbols code xs).map (c ++ ·)

/-- `path(n) = c` in the tree that is held (R231). -/
inductive PathTo (s : State) : Nat → BitStr → Prop where
  | root : PathTo s s.root.toNat []
  | left {n : Nat} {f : Freq40} {l r : NodeNum} {c : BitStr} (p : PathTo s n c)
      (h : s.nodes[n]? = some (Node.internal f l r)) : PathTo s l.toNat (c ++ [false])
  | right {n : Nat} {f : Freq40} {l r : NodeNum} {c : BitStr} (p : PathTo s n c)
      (h : s.nodes[n]? = some (Node.internal f l r)) : PathTo s r.toNat (c ++ [true])

/-- The shape of the tree that is held (R218): children have smaller numbers than their parent and differ; every node but the root has
exactly one parent; the frequencies of the internal nodes do not fall in order of creation; the last node is the root; no path has more
edges than there are internal nodes. -/
structure IsTreeShaped (s : State) : Prop where
  children : ∀ (n : Nat) (f : Freq40) (l r : NodeNum), s.nodes[n]? = some (Node.internal f l r) →
    l.toNat < n ∧ r.toNat < n ∧ l ≠ r
  parent : ∀ n < s.nodes.length, n ≠ s.root.toNat → ∃! k : Nat, ∃ (f : Freq40) (l r : NodeNum),
    s.nodes[k]? = some (Node.internal f l r) ∧ (l.toNat = n ∨ r.toNat = n)
  rising : ∀ (j k : Nat) (f g : Freq40) (l r l' r' : NodeNum), j ≤ k → s.nodes[j]? = some (Node.internal f l r) →
    s.nodes[k]? = some (Node.internal g l' r') → f.toNat ≤ g.toNat
  rootLast : s.root.toNat + 1 = s.nodes.length
  depth : ∀ (n : Nat) (c : BitStr), PathTo s n c → 2 * c.length + 1 ≤ s.nodes.length

/-- The held tree gives symbol `x` the code `c` (R231; "0" for a one-node tree, R232). -/
def TreeCode (s : State) (x : Byte) (c : BitStr) : Prop :=
  (s.nodes.length = 1 ∧ c = [false] ∧ ∃ f, s.nodes[0]? = some (Node.leaf x f)) ∨
    (2 ≤ s.nodes.length ∧ ∃ (n : Nat) (f : Freq40), PathTo s n c ∧ s.nodes[n]? = some (Node.leaf x f))

/-! ### Checks, faults and units, in the spec's words -/

/-- `CfgOK` (R29). -/
def CfgOK (s : State) : Prop :=
  1 ≤ s.wsize.toNat ∧ s.wsize.toNat ≤ 4096 ∧ 1 ≤ s.minm.toNat ∧ s.minm.toNat ≤ s.maxm.toNat ∧
    s.maxm.toNat - s.minm.toNat ≤ 15

/-- `IN_LEN <= IBUF_CAP` (R31). -/
def LenOK (s : State) : Prop := s.inLen.toNat ≤ s.ibufCap

/-- `OBITS + n <= 8 * OBUF_CAP` (R90). -/
def Room (s : State) (n : Nat) : Prop := s.ostr.length + n ≤ 8 * s.obufCap

/-- The state after `raise Fault(CODE, info)` at `s` (R293), the code by its number (R291). -/
def faulted (code : BitVec 8) (info : Word) (s : State) : State :=
  { s with err := true, errCode := code, errInfo := info }

/-- One unit of the LZSS encoder: the else-branch of `LZ.STEP` that completes (R165). -/
inductive EncodeStep (s : State) : State → Prop where
  | matched (d l : Nat) (more : s.pos.toNat < s.inLen.toNat) (best : IsBestMatch s d l) (room : Room s 17) :
      EncodeStep s { s with
        ostr := s.ostr ++ true :: (bits 12 d ++ bits 4 (l - s.minm.toNat))
        mvalid := true, mDist := BitVec.ofNat 32 d, mLen := BitVec.ofNat 32 l
        pos := BitVec.ofNat 32 (s.pos.toNat + l), endFlag := false }
  | literal (more : s.pos.toNat < s.inLen.toNat) (none : NoMatch s) (room : Room s 9) :
      EncodeStep s { s with
        ostr := s.ostr ++ false :: bits 8 (ibufAt s s.pos.toNat).toNat
        mvalid := false, mDist := 0, mLen := 0
        pos := BitVec.ofNat 32 (s.pos.toNat + 1), endFlag := false }

/-- The token of the LZSS encoder at `s` does not fit (R165). -/
def EncodeFull (s : State) : Prop :=
  s.pos.toNat < s.inLen.toNat ∧
    ((∃ d l, IsBestMatch s d l ∧ ¬ Room s 17) ∨ (NoMatch s ∧ ¬ Room s 9))

/-- One unit of the LZSS decoder that completes (R191 to R196). -/
inductive DecodeStep (s : State) : State → Prop where
  | terminal (few : 8 * s.inLen.toNat - s.bitpos.toNat < 9) :
      DecodeStep s { s with endFlag := true, tKind := .none, tByte := 0, tDist := 0, tLen := 0 }
  | literal (b : Byte) (nine : 9 ≤ 8 * s.inLen.toNat - s.bitpos.toNat) (flag : inBit s s.bitpos.toNat = false)
      (byte : inBits s (s.bitpos.toNat + 1) 8 = bits 8 b.toNat) (room : Room s 8) :
      DecodeStep s { s with
        ostr := s.ostr ++ bits 8 b.toNat
        tKind := .literal, tByte := b, tDist := 0, tLen := 0
        bitpos := BitVec.ofNat 32 (s.bitpos.toNat + 9), endFlag := false }
  | matched (d f : Nat) (whole : 17 ≤ 8 * s.inLen.toNat - s.bitpos.toNat) (flag : inBit s s.bitpos.toNat = true)
      (dist : inBits s (s.bitpos.toNat + 1) 12 = bits 12 d) (len : inBits s (s.bitpos.toNat + 13) 4 = bits 4 f)
      (lo : 1 ≤ d) (hi : d < 4096) (field : f < 16) (back : d ≤ s.olen) (room : Room s (8 * (f + s.minm.toNat))) :
      DecodeStep s { s with
        ostr := s.ostr ++ (rep ((outBytes s).drop (s.olen - d)) (f + s.minm.toNat)).flatMap fun b => bits 8 b.toNat
        tKind := .matched, tByte := 0, tDist := BitVec.ofNat 12 d, tLen := BitVec.ofNat 9 (f + s.minm.toNat)
        bitpos := BitVec.ofNat 32 (s.bitpos.toNat + 17), endFlag := false }

/-- The LZSS decoder raises a fault at the token at `BITPOS`: its code and information word, in the order of R195. -/
inductive DecodeFault (s : State) : BitVec 8 → Word → Prop where
  | literalFull (nine : 9 ≤ 8 * s.inLen.toNat - s.bitpos.toNat) (flag : inBit s s.bitpos.toNat = false)
      (full : ¬ Room s 8) : DecodeFault s 0x05 (BitVec.ofNat 32 s.obits)
  | truncated (nine : 9 ≤ 8 * s.inLen.toNat - s.bitpos.toNat) (flag : inBit s s.bitpos.toNat = true)
      (short : 8 * s.inLen.toNat - s.bitpos.toNat < 17) : DecodeFault s 0x10 s.bitpos
  | distZero (whole : 17 ≤ 8 * s.inLen.toNat - s.bitpos.toNat) (flag : inBit s s.bitpos.toNat = true)
      (zero : inBits s (s.bitpos.toNat + 1) 12 = bits 12 0) : DecodeFault s 0x11 s.bitpos
  | distRange (d : Nat) (whole : 17 ≤ 8 * s.inLen.toNat - s.bitpos.toNat) (flag : inBit s s.bitpos.toNat = true)
      (dist : inBits s (s.bitpos.toNat + 1) 12 = bits 12 d) (hi : d < 4096) (far : s.olen < d) :
      DecodeFault s 0x12 s.bitpos
  | matchFull (d f : Nat) (whole : 17 ≤ 8 * s.inLen.toNat - s.bitpos.toNat) (flag : inBit s s.bitpos.toNat = true)
      (dist : inBits s (s.bitpos.toNat + 1) 12 = bits 12 d) (len : inBits s (s.bitpos.toNat + 13) 4 = bits 4 f)
      (lo : 1 ≤ d) (hi : d < 4096) (field : f < 16) (back : d ≤ s.olen) (full : ¬ Room s (8 * (f + s.minm.toNat))) :
      DecodeFault s 0x05 (BitVec.ofNat 32 s.obits)

/-- `hmatch(i, lim)` finds symbol `x` after `k` bits: they are its code, and no fewer bits are a code (R244). -/
def FindsCode (s : State) (i lim k : Nat) (x : Byte) : Prop :=
  1 ≤ k ∧ i + k ≤ lim ∧ code s x = some (inBits s i k) ∧ ∀ j, 1 ≤ j → j < k → ∀ y, code s y ≠ some (inBits s i j)

/-- `hmatch(i, lim)` finds that no code can match: some number of bits within `lim` agrees with no code and begins none
(R244). -/
def FindsNoCode (s : State) (i lim : Nat) : Prop :=
  ∃ k, 1 ≤ k ∧ i + k ≤ lim ∧ ∀ y c, code s y = some c → ¬ c <+: inBits s i k ∧ ¬ inBits s i k <+: c

/-- `hmatch(i, lim)` runs out of bits: the bits up to `lim` begin a code and hold none (R244). -/
def RunsOut (s : State) (i lim : Nat) : Prop :=
  (∀ y c, code s y = some c → ¬ c <+: inBits s i (lim - i)) ∧ ∃ y c, code s y = some c ∧ inBits s i (lim - i) <+: c

/-- One unit of the Huffman decoder that completes (R245). -/
inductive SymbolStep (s : State) : State → Prop where
  | terminal (stop : s.pbits.toNat ≤ s.bitpos.toNat) :
      SymbolStep s { s with endFlag := true, tKind := .none, tByte := 0, tDist := 0, tLen := 0 }
  | symbol (x : Byte) (k : Nat) (more : s.bitpos.toNat < s.pbits.toNat)
      (hit : FindsCode s s.bitpos.toNat s.pbits.toNat k x) (room : Room s 8) :
      SymbolStep s { s with
        ostr := s.ostr ++ bits 8 x.toNat
        tKind := .symbol, tByte := x, tDist := 0, tLen := 0
        bitpos := BitVec.ofNat 32 (s.bitpos.toNat + k), endFlag := false }

/-- The Huffman decoder raises a fault at `BITPOS` (R245). -/
inductive SymbolFault (s : State) : BitVec 8 → Word → Prop where
  | noCode (more : s.bitpos.toNat < s.pbits.toNat) (none : FindsNoCode s s.bitpos.toNat s.pbits.toNat) :
      SymbolFault s 0x23 s.bitpos
  | trunc (more : s.bitpos.toNat < s.pbits.toNat) (out : RunsOut s s.bitpos.toNat s.pbits.toNat) :
      SymbolFault s 0x24 s.bitpos
  | full (x : Byte) (k : Nat) (more : s.bitpos.toNat < s.pbits.toNat)
      (hit : FindsCode s s.bitpos.toNat s.pbits.toNat k x) (full : ¬ Room s 8) :
      SymbolFault s 0x05 (BitVec.ofNat 32 s.obits)

/-! ### The scans DOC names (R149) -/

/-- Scan (a): by distance, keeping a candidate only when its length is strictly greater than the best so far; the survivor is
a pair of distance and length. -/
def scanByPosition (len : Nat → Nat) : List Nat → Nat × Nat → Nat × Nat
  | [], best => best
  | d :: ds, best => scanByPosition len ds (if best.2 < len d then (d, len d) else best)

/-- Scan (b): by length, from `l` down to `minM`: the first distance whose run is at least that long. -/
def scanByLength (len : Nat → Nat) (ds : List Nat) (minM : Nat) : Nat → Option (Nat × Nat)
  | 0 => none
  | l + 1 =>
    if l + 1 < minM then none
    else match ds.find? fun d => l + 1 ≤ len d with
      | some d => some (d, l + 1)
      | none => scanByLength len ds minM l

end Sys2Proof.Machine
end

