-- ==== Sys2Proof/Certificates/Slice0/Obligations.lean ====
section
/-! DEFINITION. The statements: rules of the spec, about every state. Fault codes stand as the numbers of R291. -/

section

open Sys2Proof Sys2Proof.Machine

/-! ### Command words -/

/-- R110 to R112: encoding and decoding are inverse to each other, for every command and every immediate. -/
def Obligations.DecodeInvertsEncode : Prop :=
  (∀ i : Instr, decode (encode i) = .ok i) ∧ ∀ (w : Word) (i : Instr), decode w = .ok i → encode i = w

/-- R112: the command map, word by word. -/
def Obligations.CommandMap : Prop :=
  decode 0x00000000 = .ok .nop ∧ decode 0x01000000 = .ok .lzFind ∧
    (∀ b : Byte, decode (0x02000000 ||| b.setWidth 32) = .ok (.lzPutl b)) ∧
    decode 0x03000000 = .ok .lzPutm ∧ decode 0x04000000 = .ok .lzStep ∧ decode 0x05000000 = .ok .lzEnc ∧
    decode 0x06000000 = .ok .lzDstep ∧ decode 0x07000000 = .ok .lzDec ∧ decode 0x10000000 = .ok .hfCount ∧
    decode 0x11000000 = .ok .hfBuild ∧ decode 0x12000000 = .ok .hfDerive ∧
    (∀ b : Byte, decode (0x13000000 ||| b.setWidth 32) = .ok (.hfPuts b)) ∧
    decode 0x14000000 = .ok .hfEnc ∧ decode 0x15000000 = .ok .hfDsym ∧ decode 0x16000000 = .ok .hfDec ∧
    decode 0x20000000 = .ok .bsInit ∧ decode 0x21000000 = .ok .bsFlush ∧ decode 0x22000000 = .ok .bufXfer ∧
    decode 0x7E000000 = .ok .sysClrerr ∧ decode 0x7F000000 = .ok .sysReset

/-- R111: a word selects the command of the first and only row it matches. -/
def Obligations.FirstAndOnlyRow : Prop :=
  ∀ w : Word,
    (∀ r ∈ opcodeRows, w &&& r.mask = r.pattern → decode w = .ok (r.make (BitVec.ofNat 8 (w.toNat % 256)))) ∧
    (∀ r₁ ∈ opcodeRows, ∀ r₂ ∈ opcodeRows, w &&& r₁.mask = r₁.pattern → w &&& r₂.mask = r₂.pattern →
      r₁.pattern = r₂.pattern) ∧
    ((∀ r ∈ opcodeRows, w &&& r.mask ≠ r.pattern) → ∃ e, decode w = .error e) ∧
    ∀ r ∈ opcodeRows, r.mask =
      if r.pattern = 0x02000000 ∨ r.pattern = 0x13000000 then 0xFFFFFF00 else 0xFFFFFFFF

/-- R121: which words are illegal, and that an illegal word raises `ILLEGAL_CMD` and changes nothing else. -/
def Obligations.IllegalWords : Prop :=
  ∀ w : Word,
    ((∃ e, decode w = .error e) ↔
      w.toNat / 2 ^ 24 ∉ [0x00, 0x01, 0x02, 0x03, 0x04, 0x05, 0x06, 0x07, 0x10, 0x11, 0x12, 0x13, 0x14, 0x15, 0x16,
        0x20, 0x21, 0x22, 0x7E, 0x7F] ∨
      w.toNat / 2 ^ 8 % 2 ^ 16 ≠ 0 ∨
      (w.toNat % 2 ^ 8 ≠ 0 ∧ w.toNat / 2 ^ 24 ≠ 0x02 ∧ w.toNat / 2 ^ 24 ≠ 0x13)) ∧
    ∀ s : State, s.err = false → (∃ e, decode w = .error e) → hostWriteCmd w s = .next (faulted 0x01 w s)

/-! ### Steps and host transactions -/

/-- R276, R94: one step performs the transaction at the head of the host's queue, whichever of the five it is, as `hostTxn` and, for a
register write, `hostWriteReg` say; a write of a command's word to `CMD` performs that command, and `withFetchWord` puts one there. The
queue is the model's (log 1). -/
def Obligations.StepRunsDecodedCommand : Prop :=
  (∀ (s : State) (t : HostTxn) (q : List HostTxn), s.hostq = t :: q → step s = hostTxn t { s with hostq := q }) ∧
  (∀ (s : State) (n : BitVec 5) (v : Word) (q : List HostTxn), s.hostq = .writeReg n v :: q →
    step s = hostWriteReg n v { s with hostq := q }) ∧
  (∀ (s : State) (w : Word) (i : Instr) (q : List HostTxn), s.hostq = .writeReg 0 w :: q → s.err = false →
    decode w = .ok i → step s = exec i { s with hostq := q }) ∧
  ∀ (s : State) (nbits w : Nat) (i : Instr), s.err = false → decodeTableWord nbits w = some i →
    step (s.withFetchWord nbits w) = exec i s

/-- R275: the order in which a write to `CMD` is handled; it always completes. The queue is the model's (log 1). -/
def Obligations.CommandWriteOrder : Prop :=
  ∀ (s : State) (w : Word) (q : List HostTxn), s.hostq = .writeReg 0 w :: q →
    (s.err = true → w ≠ 0x7E000000 → w ≠ 0x7F000000 → step s = .next { s with hostq := q }) ∧
    (s.err = false ∨ w = 0x7E000000 ∨ w = 0x7F000000 →
      (∀ e, decode w = .error e → step s = .next (faulted 0x01 w { s with hostq := q })) ∧
      ∀ i, decode w = .ok i → step s = exec i { s with hostq := q }) ∧
    ∃ t, step s = .next t ∧ t.hostq = q

/-- R298: no fault occurs while a fault is recorded; only `SYS.CLRERR`, `SYS.RESET` and hardware reset end it (R49, R295, R297).
The queue is the model's (log 1). -/
def Obligations.FirstFaultIsKept : Prop :=
  ∀ s t : State, s.err = true → step s = .next t →
    (t.err = true ∧ t.errCode = s.errCode ∧ t.errInfo = s.errInfo) ∨
    (t.err = false ∧ t.errCode = 0 ∧ t.errInfo = 0 ∧
      ∃ q, s.hostq = .writeReg 0 0x7E000000 :: q ∨ s.hostq = .writeReg 0 0x7F000000 :: q ∨ s.hostq = .hardReset :: q)

/-- R299: with no transaction pending the state is constant. The queue is the model's (log 1). -/
def Obligations.IdleStepChangesNothing : Prop := ∀ s : State, s.hostq = [] → step s = .next s

/-- R93: a read changes nothing in the engine. Where the value goes is the model's (log 2). -/
def Obligations.ReadsHaveNoSideEffect : Prop :=
  ∀ (s : State) (q : List HostTxn),
    (∀ n, s.hostq = .readReg n :: q → step s = .next { s with hostq := q, rdata := some (hostReadReg s n) }) ∧
    ∀ sp i, s.hostq = .readMem sp i :: q → i < sp.size s →
      step s = .next { s with hostq := q, rdata := some (hostReadMem s sp i) }

/-- R24: the bits of `STATUS`. -/
def Obligations.StatusRegisterBits : Prop :=
  ∀ (s : State) (k : Nat), (hostReadReg s 1).getLsbD k =
    if k = 0 then s.err else if k = 1 then s.endFlag else if k = 2 then s.mvalid else if k = 3 then s.tvalid
    else if 8 ≤ k ∧ k < 16 then s.errCode.getLsbD (k - 8) else false

/-- R22, R277: what the other registers read. -/
def Obligations.RegisterReads : Prop :=
  ∀ s : State, hostReadReg s 0 = 0 ∧ hostReadReg s 2 = s.errInfo ∧ (hostReadReg s 3).toNat = s.wsize.toNat ∧
    (hostReadReg s 4).toNat = s.minm.toNat ∧ (hostReadReg s 5).toNat = s.maxm.toNat ∧ hostReadReg s 6 = s.inLen ∧
    hostReadReg s 7 = s.pos ∧ hostReadReg s 8 = s.bitpos ∧ hostReadReg s 9 = BitVec.ofNat 32 s.ostr.length ∧
    hostReadReg s 10 = BitVec.ofNat 32 ((s.ostr.length + 7) / 8) ∧ hostReadReg s 11 = s.pbits ∧
    hostReadReg s 12 = s.mDist ∧ hostReadReg s 13 = s.mLen ∧
    hostReadReg s 14 = (match s.tKind with | .none => 0 | .literal => 1 | .matched => 2 | .symbol => 3) ∧
    (hostReadReg s 15).toNat = s.tByte.toNat ∧ (hostReadReg s 16).toNat = s.tDist.toNat ∧
    (hostReadReg s 17).toNat = s.tLen.toNat ∧ (hostReadReg s 18).toNat = s.nnodes.toNat ∧
    (hostReadReg s 19).toNat = s.root.toNat ∧ hostReadReg s 20 = BitVec.ofNat 32 s.ibufCap ∧
    hostReadReg s 21 = BitVec.ofNat 32 s.obufCap ∧ ∀ n : BitVec 5, 22 ≤ n.toNat → hostReadReg s n = 0

/-- R278: a write stores the value truncated to the register's field; other registers ignore it. -/
def Obligations.RegisterWrites : Prop :=
  ∀ (s : State) (v : Word),
    hostWriteReg 0 v s = hostWriteCmd v s ∧
    hostWriteReg 3 v s = .next { s with wsize := BitVec.ofNat 13 v.toNat } ∧
    hostWriteReg 4 v s = .next { s with minm := BitVec.ofNat 8 v.toNat } ∧
    hostWriteReg 5 v s = .next { s with maxm := BitVec.ofNat 9 v.toNat } ∧
    hostWriteReg 6 v s = .next { s with inLen := v } ∧ hostWriteReg 7 v s = .next { s with pos := v } ∧
    hostWriteReg 8 v s = .next { s with bitpos := v } ∧ hostWriteReg 11 v s = .next { s with pbits := v } ∧
    hostWriteReg 12 v s = .next { s with mDist := v } ∧ hostWriteReg 13 v s = .next { s with mLen := v } ∧
    ∀ n : BitVec 5, n.toNat ∈ [1, 2, 9, 10] ∨ 14 ≤ n.toNat → hostWriteReg n v s = .next s

/-- R82, R85, R279: a write to a table or to `IBUF` is what a later read of that unit returns (the low byte for `CBL`, R82, and
for `IBUF`, log 8), every other unit of every space and every register reads as before, and `TREE` and `OBUF` ignore it. -/
def Obligations.MemoryWritesReadBack : Prop :=
  ∀ (s : State) (sp : Space) (i : Nat) (v : Word), i < sp.size s →
    ∃ t, hostTxn (.writeMem sp i v) s = .next t ∧ (∀ n, hostReadReg t n = hostReadReg s n) ∧
      ∀ (sp' : Space) (j : Nat), j < sp'.size s → hostReadMem t sp' j =
        if sp' = sp ∧ j = i ∧ sp ≠ .tree ∧ sp ≠ .obuf then
          (if sp = .cbl ∨ sp = .ibuf then v &&& 0xFF else v)
        else hostReadMem s sp' j

/-- R84: an index outside a space does not occur. The model stops there by name (log 6). -/
def Obligations.IndexOutsideSpaceStops : Prop :=
  ∀ (s : State) (sp : Space) (i : Nat) (v : Word), sp.size s ≤ i →
    hostTxn (.readMem sp i) s = .fault .noSuchIndex ∧ hostTxn (.writeMem sp i v) s = .fault .noSuchIndex

/-- R57: the output bytes, the stream being extended with zero bits without end; the host reads them and cannot write them. -/
def Obligations.OutputBytes : Prop :=
  ∀ (s : State) (k : Nat),
    (outByte s k).toNat = val ((List.range 8).map fun j => s.ostr.getD (8 * k + j) false) ∧
    (s.olen ≤ k → outByte s k = 0) ∧ (hostReadMem s .obuf k).toNat = (outByte s k).toNat ∧
    ∀ v, k < s.obufCap → hostTxn (.writeMem .obuf k v) s = .next s

/-- R11, R12, R91: the input bit stream is the bytes `IBUF[0..IN_LEN)`, each most significant bit first. -/
def Obligations.InputStreamIsBytes : Prop :=
  ∀ s : State, inputStream s = (inputBytes s).flatMap fun b => bits 8 b.toNat

/-- R120, R54: the four words of a node record. -/
def Obligations.TreeWords : Prop :=
  ∀ (s : State) (n : Nat),
    ((s.tvalid = false ∨ s.nnodes.toNat ≤ n) → ∀ w < 4, hostReadMem s .tree (4 * n + w) = 0) ∧
    (s.tvalid = true → n < s.nnodes.toNat →
      (∀ (x : Byte) (f : Freq40), s.nodes[n]? = some (Node.leaf x f) →
        hostReadMem s .tree (4 * n) = BitVec.ofNat 32 f.toNat ∧
        hostReadMem s .tree (4 * n + 1) = BitVec.ofNat 32 (f.toNat / 2 ^ 32) ∧
        hostReadMem s .tree (4 * n + 2) = BitVec.ofNat 32 x.toNat ∧ hostReadMem s .tree (4 * n + 3) = 0x01FF01FF) ∧
      ∀ (f : Freq40) (l r : NodeNum), s.nodes[n]? = some (Node.internal f l r) →
        hostReadMem s .tree (4 * n) = BitVec.ofNat 32 f.toNat ∧
        hostReadMem s .tree (4 * n + 1) = BitVec.ofNat 32 (f.toNat / 2 ^ 32) ∧
        hostReadMem s .tree (4 * n + 2) = 0x00000100 ∧
        hostReadMem s .tree (4 * n + 3) = BitVec.ofNat 32 (2 ^ 16 * r.toNat + l.toNat))

/-! ### Reset, faults and system commands -/

/-- R60, R274: the state after `SYS.RESET` and after hardware reset. The contents of `IBUF` are any value, the same on repeated
reads (U1): the form of those free values and `epoch`, the counter they are drawn by, are the model's (log 3), and so is that
the host's own fields `hostq` and `rdata` stay (log 16). -/
def Obligations.ResetLeaves : Prop :=
  ∀ s : State, ∃ t, exec .sysReset s = .next t ∧ hostWriteCmd 0x7F000000 s = .next t ∧ hostTxn .hardReset s = .next t ∧
    t = { s with
      err := false, endFlag := false, mvalid := false, tvalid := false, errCode := 0, errInfo := 0
      wsize := 4096, minm := 3, maxm := 18, inLen := 0, pos := 0, bitpos := 0, pbits := 0, mDist := 0, mLen := 0
      tKind := .none, tByte := 0, tDist := 0, tLen := 0, nnodes := 0, root := 511
      freq := t.freq, cbl := t.cbl, cbc := t.cbc, nodes := [], ibuf := [], ostr := [], epoch := s.epoch + 1 } ∧
    (∀ x, Table.get t.freq x = 0 ∧ Table.get t.cbl x = 0 ∧ Table.get t.cbc x = 0) ∧
    (∀ i, hostReadMem t .tree i = 0 ∧ hostReadMem t .obuf i = 0) ∧
    ∀ i, ibufAt t i = Config.ibufUnspecified (s.epoch + 1) i

/-- R271: `NOP`. -/
def Obligations.NopDoesNothing : Prop :=
  ∀ s : State, exec .nop s = .next s ∧ hostWriteCmd 0x00000000 s = .next s

/-- R273, R297: `SYS.CLRERR` clears the recorded fault, whether or not there is one, and nothing else. -/
def Obligations.ClearErrorClearsFaultOnly : Prop :=
  ∀ s : State, exec .sysClrerr s = .next { s with err := false, errCode := 0, errInfo := 0 } ∧
    hostWriteCmd 0x7E000000 s = .next { s with err := false, errCode := 0, errInfo := 0 }

/-- R272: `BUF.XFER` moves the output bytes to the input buffer, or raises `BAD_LEN` and moves nothing. -/
def Obligations.TransferMovesOutput : Prop :=
  ∀ s : State,
    (s.olen ≤ s.ibufCap → ∃ t, exec .bufXfer s = .next t ∧
      t = { s with
        ibuf := t.ibuf, inLen := BitVec.ofNat 32 s.olen, ostr := [], pos := 0, bitpos := 0, endFlag := false } ∧
      (∀ i < s.olen, ibufAt t i = outByte s i) ∧ ∀ i, s.olen ≤ i → ibufAt t i = ibufAt s i) ∧
    (s.ibufCap < s.olen → exec .bufXfer s = .next (faulted 0x03 (BitVec.ofNat 32 s.olen) s))

/-- R294, R293: a fault of a command that performs one unit changes the fault registers and nothing else. -/
def Obligations.SingleUnitFaultsArePrecise : Prop :=
  ∀ (i : Instr) (s t : State), i ≠ .lzEnc → i ≠ .lzDec → i ≠ .hfEnc → i ≠ .hfDec → s.err = false →
    exec i s = .next t → t.err = true → t = { s with err := true, errCode := t.errCode, errInfo := t.errInfo }

/-- R291: the faults each command raises; the others raise none. -/
def Obligations.FaultCodesPerCommand : Prop :=
  ∀ (i : Instr) (s t : State), s.err = false → exec i s = .next t → t.err = true →
    t.errCode.toNat ∈ (match i with
      | .lzFind => [0x02, 0x03]
      | .lzPutl _ => [0x05]
      | .lzPutm => [0x02, 0x04, 0x05]
      | .lzStep | .lzEnc => [0x02, 0x03, 0x05]
      | .lzDstep => [0x02, 0x03, 0x05, 0x06, 0x10, 0x11, 0x12]
      | .lzDec => [0x02, 0x03, 0x05, 0x10, 0x11, 0x12]
      | .hfCount | .bufXfer => [0x03]
      | .hfDerive => [0x20]
      | .hfPuts _ => [0x05, 0x21, 0x22]
      | .hfEnc => [0x03, 0x05, 0x21, 0x22]
      | .hfDsym => [0x03, 0x05, 0x06, 0x21, 0x23, 0x24, 0x25]
      | .hfDec => [0x03, 0x05, 0x21, 0x23, 0x24, 0x25]
      | .nop | .hfBuild | .bsInit | .bsFlush | .sysClrerr | .sysReset => ([] : List Nat))

/-- R22, R100 and the "written by" of R31 to R55: every command completes, and each piece of state is changed only by the
commands listed for it. -/
def Obligations.OnlyListedCommandsWrite : Prop :=
  ∀ (i : Instr) (s : State), ∃ t, exec i s = .next t ∧
    (i ≠ .sysReset → t.wsize = s.wsize ∧ t.minm = s.minm ∧ t.maxm = s.maxm ∧ t.epoch = s.epoch) ∧
    (i ∉ [.bufXfer, .sysReset] → t.inLen = s.inLen ∧ t.ibuf = s.ibuf) ∧
    (i ∉ [.lzStep, .lzEnc, .hfEnc, .bufXfer, .sysReset] → t.pos = s.pos) ∧
    (i ∉ [.lzDstep, .lzDec, .hfDsym, .hfDec, .bufXfer, .sysReset] → t.bitpos = s.bitpos) ∧
    (i ∈ [.nop, .lzFind, .hfCount, .hfBuild, .hfDerive, .sysClrerr] → t.ostr = s.ostr) ∧
    (i ∉ [.bsFlush, .lzEnc, .hfEnc, .sysReset] → t.pbits = s.pbits) ∧
    (i ∉ [.lzFind, .lzStep, .lzEnc, .sysReset] → t.mvalid = s.mvalid ∧ t.mDist = s.mDist ∧ t.mLen = s.mLen) ∧
    (i ∉ [.lzDstep, .lzDec, .hfDsym, .hfDec, .sysReset] →
      t.tKind = s.tKind ∧ t.tByte = s.tByte ∧ t.tDist = s.tDist ∧ t.tLen = s.tLen) ∧
    (i ∉ [.hfBuild, .hfDerive, .sysReset] →
      t.nnodes = s.nnodes ∧ t.root = s.root ∧ t.nodes = s.nodes ∧ t.tvalid = s.tvalid) ∧
    (i ∉ [.hfCount, .sysReset] → t.freq = s.freq) ∧
    (i ∉ [.hfDerive, .sysReset] → t.cbl = s.cbl ∧ t.cbc = s.cbc) ∧
    (i ∈ [.nop, .lzFind, .lzPutm, .hfCount, .hfBuild, .hfDerive, .bsFlush, .sysClrerr] ∨ (∃ b, i = .lzPutl b ∨ i = .hfPuts b) →
      t.endFlag = s.endFlag) ∧
    t.ibufCap = s.ibufCap ∧ t.obufCap = s.obufCap ∧ t.hostq = s.hostq ∧ t.rdata = s.rdata

/-- R56: no bit of the output stream ever changes once appended, until the stream is emptied. -/
def Obligations.OutputOnlyGrows : Prop :=
  ∀ (i : Instr) (s t : State), i ∉ [.bsInit, .bufXfer, .lzEnc, .lzDec, .hfEnc, .hfDec, .sysReset] →
    exec i s = .next t → s.ostr <+: t.ostr

/-- R329, R47: every pipeline command ends, with `END = 1` or with a fault. -/
def Obligations.PipelinesEnd : Prop :=
  ∀ (i : Instr) (s : State), i ∈ [.lzEnc, .lzDec, .hfEnc, .hfDec] → CapsOK s → s.err = false →
    ∃ t, exec i s = .next t ∧ ((t.err = false ∧ t.endFlag = true) ∨ t.err = true)

/-! ### The match finder -/

/-- R148, with R142 to R147: `LZ.FIND` reports the longest match at `POS`, the nearest of the longest, or none. -/
def Obligations.FindsLongestNearest : Prop :=
  ∀ s : State,
    (¬ CfgOK s → exec .lzFind s = .next (faulted 0x02 0 s)) ∧
    (CfgOK s → ¬ LenOK s → exec .lzFind s = .next (faulted 0x03 s.inLen s)) ∧
    (CfgOK s → LenOK s →
      (∀ d l, IsBestMatch s d l → exec .lzFind s =
        .next { s with mvalid := true, mDist := BitVec.ofNat 32 d, mLen := BitVec.ofNat 32 l }) ∧
      (NoMatch s → exec .lzFind s = .next { s with mvalid := false, mDist := 0, mLen := 0 }) ∧
      ((∃ d l, IsBestMatch s d l) ∨ NoMatch s))

/-- R147: what the match finder's result satisfies, so that it fits the token fields, and when there is none; and that `LZ.FIND`
reports such a result in `M_DIST` and `M_LEN` or clears `MVALID`. -/
def Obligations.MatchFitsToken : Prop :=
  ∀ s : State, CfgOK s →
    let fits := fun d l : Nat => 1 ≤ d ∧ d ≤ min s.pos.toNat (min s.wsize.toNat 4095) ∧ s.minm.toNat ≤ l ∧
      l ≤ min s.maxm.toNat (s.inLen.toNat - s.pos.toNat) ∧ min s.maxm.toNat (s.inLen.toNat - s.pos.toNat) ≤ s.minm.toNat + 15
    let noneHere := s.pos = 0 ∨ s.inLen.toNat ≤ s.pos.toNat ∨ s.inLen.toNat < s.pos.toNat + s.minm.toNat
    (∀ d l, findAtPos s = some (d, l) → fits d l) ∧ (noneHere → findAtPos s = none) ∧
    (LenOK s → ∃ t, exec .lzFind s = .next t ∧ (t.mvalid = true → fits t.mDist.toNat t.mLen.toNat) ∧
      (t.mvalid = false → t.mDist = 0 ∧ t.mLen = 0) ∧ (noneHere → t.mvalid = false))

/-- R150: the search depends only on the window, the lookahead, the position, the length and the configuration. -/
def Obligations.FindReadsOnlyTheWindow : Prop :=
  ∀ s t : State, CfgOK s → LenOK s → t.wsize = s.wsize → t.minm = s.minm → t.maxm = s.maxm → t.inLen = s.inLen →
    t.pos = s.pos → t.ibufCap = s.ibufCap →
    (∀ i, s.pos.toNat - min s.wsize.toNat 4095 ≤ i → i < min (s.pos.toNat + s.maxm.toNat) s.inLen.toNat →
      ibufAt t i = ibufAt s i) →
    ∃ v d l, exec .lzFind s = .next { s with mvalid := v, mDist := d, mLen := l } ∧
      exec .lzFind t = .next { t with mvalid := v, mDist := d, mLen := l }

/-- R149: the two scans DOC names compute what the machine's search at `POS` answers. -/
def Obligations.ScansComputeFind : Prop :=
  ∀ (s : State) (len : Nat → Nat), CfgOK s → (∀ d, IsCandidate s d → IsMatchLen s d (len d)) →
    let ds := List.range' 1 (min s.pos.toNat (min s.wsize.toNat 4095))
    (let r := scanByPosition len ds (0, 0)
     (if s.minm.toNat ≤ r.2 then some r else none) = findAtPos s) ∧
    scanByLength len ds s.minm.toNat (lookahead s) = findAtPos s

/-! ### The LZSS encoder -/

/-- R161: `BS.INIT`. -/
def Obligations.InitEmptiesOutput : Prop :=
  ∀ s : State, ∃ t, exec .bsInit s = .next t ∧ t = { s with ostr := [], endFlag := false } ∧ t.olen = 0 ∧
    ∀ k, outByte t k = 0

/-- R162: `LZ.PUTL` appends the nine bits of a literal token, whole or not at all. Nine bits touch two bytes, seventeen three. -/
def Obligations.PutsLiteral : Prop :=
  ∀ (b : Byte) (s : State),
    (Room s 9 → exec (.lzPutl b) s = .next { s with ostr := s.ostr ++ false :: bits 8 b.toNat }) ∧
    (¬ Room s 9 → exec (.lzPutl b) s = .next (faulted 0x05 (BitVec.ofNat 32 s.obits) s)) ∧
    (s.obits + 8) / 8 = s.obits / 8 + 1 ∧ (s.obits + 16) / 8 = s.obits / 8 + 2

/-- R163: `LZ.PUTM` appends the match token of `M_DIST`, `M_LEN`, after its checks in their order. -/
def Obligations.PutsMatch : Prop :=
  ∀ s : State,
    let d := s.mDist.toNat
    let l := s.mLen.toNat
    let fits := 1 ≤ d ∧ d ≤ 4095 ∧ s.minm.toNat ≤ l ∧ l ≤ s.minm.toNat + 15
    (¬ CfgOK s → exec .lzPutm s = .next (faulted 0x02 0 s)) ∧
    (CfgOK s → ¬ fits → exec .lzPutm s = .next (faulted 0x04 0 s)) ∧
    (CfgOK s → fits → ¬ Room s 17 → exec .lzPutm s = .next (faulted 0x05 (BitVec.ofNat 32 s.obits) s)) ∧
    (CfgOK s → fits → Room s 17 →
      exec .lzPutm s = .next { s with ostr := s.ostr ++ true :: (bits 12 d ++ bits 4 (l - s.minm.toNat)) })

/-- R164: `BS.FLUSH` records the payload length and pads; no byte of the output changes. -/
def Obligations.FlushPads : Prop :=
  ∀ s : State, ∃ t, exec .bsFlush s = .next t ∧
    t = { s with
      pbits := BitVec.ofNat 32 s.obits
      ostr := s.ostr ++ List.replicate ((8 - s.obits % 8) % 8) false } ∧
    t.obits % 8 = 0 ∧ t.olen = s.olen ∧ ∀ k, outByte t k = outByte s k

/-- R165: `LZ.STEP`. -/
def Obligations.EncodesOneToken : Prop :=
  ∀ s : State,
    (¬ CfgOK s → exec .lzStep s = .next (faulted 0x02 0 s)) ∧
    (CfgOK s → ¬ LenOK s → exec .lzStep s = .next (faulted 0x03 s.inLen s)) ∧
    (CfgOK s → LenOK s →
      (s.inLen.toNat ≤ s.pos.toNat → exec .lzStep s = .next { s with endFlag := true }) ∧
      (∀ t, EncodeStep s t → exec .lzStep s = .next t ∧ s.pos.toNat < t.pos.toNat ∧ t.pos.toNat ≤ s.inLen.toNat) ∧
      (EncodeFull s → exec .lzStep s = .next (faulted 0x05 (BitVec.ofNat 32 s.obits) s)) ∧
      (s.pos.toNat < s.inLen.toNat → (∃ t, EncodeStep s t) ∨ EncodeFull s))

/-- R166: `LZ.ENC` is `LZ.STEP`'s unit repeated from an empty output and `POS = 0`, then `BS.FLUSH` and `END <- 1`; a token that
does not fit stops it with the state of the last completed step. -/
def Obligations.EncodesByRepeatedSteps : Prop :=
  ∀ s : State,
    (¬ CfgOK s → exec .lzEnc s = .next (faulted 0x02 0 s)) ∧
    (CfgOK s → ¬ LenOK s → exec .lzEnc s = .next (faulted 0x03 s.inLen s)) ∧
    (CfgOK s → LenOK s →
      let start := { s with ostr := [], pos := 0, endFlag := false }
      (∀ t, Relation.ReflTransGen EncodeStep start t → s.inLen.toNat ≤ t.pos.toNat → exec .lzEnc s =
        .next { t with pbits := BitVec.ofNat 32 t.obits, ostr := padded t.ostr, endFlag := true }) ∧
      (∀ t, Relation.ReflTransGen EncodeStep start t → EncodeFull t →
        exec .lzEnc s = .next (faulted 0x05 (BitVec.ofNat 32 t.obits) t) ∧ t.endFlag = false ∧ t.pbits = s.pbits) ∧
      ∃ t, Relation.ReflTransGen EncodeStep start t ∧ (s.inLen.toNat ≤ t.pos.toNat ∨ EncodeFull t))

/-- R168, R113: with room for the worst case `LZ.ENC` completes, and its output is the padded encoding of acceptable tokens
that stand for the input. -/
def Obligations.EncoderCompletes : Prop :=
  ∀ s : State, CfgOK s → LenOK s →
    (17 * s.inLen.toNat ≤ 8 * s.obufCap ∨ (2 ≤ s.minm.toNat ∧ 9 * s.inLen.toNat ≤ 8 * s.obufCap)) →
    ∃ (ts : List Token) (t : State), exec .lzEnc s = .next t ∧
      t = { s with
        ostr := padded (encTokens s.minm.toNat ts), pbits := BitVec.ofNat 32 (encTokens s.minm.toNat ts).length
        pos := s.inLen, endFlag := true, mvalid := t.mvalid, mDist := t.mDist, mLen := t.mLen } ∧
      validTokens s.minm.toNat [] ts ∧ expandTokens [] ts = inputBytes s ∧
      (encTokens s.minm.toNat ts).length ≤ 17 * s.inLen.toNat ∧
      (2 ≤ s.minm.toNat → (encTokens s.minm.toNat ts).length ≤ 9 * s.inLen.toNat)

/-- R125 (`lz.emit`): `LZ.FIND`, then `LZ.PUTM` or `LZ.PUTL IBUF[POS]`, and the host's `POS` write have the effect of `LZ.STEP`. -/
def Obligations.EmitEqualsStep : Prop :=
  ∀ s t : State, CfgOK s → LenOK s → s.endFlag = false → EncodeStep s t →
    ∃ u, exec .lzFind s = .next u ∧
      (u.mvalid = true → ∃ v, exec .lzPutm u = .next v ∧
        hostWriteReg 7 (BitVec.ofNat 32 (s.pos.toNat + u.mLen.toNat)) v = .next t) ∧
      (u.mvalid = false → ∃ v, exec (.lzPutl (ibufAt s s.pos.toNat)) u = .next v ∧
        hostWriteReg 7 (BitVec.ofNat 32 (s.pos.toNat + 1)) v = .next t)

/-! ### The LZSS decoder -/

/-- R191 to R196: `LZ.DSTEP`. -/
def Obligations.DecodesOneToken : Prop :=
  ∀ s : State,
    (¬ CfgOK s → exec .lzDstep s = .next (faulted 0x02 0 s)) ∧
    (CfgOK s → ¬ LenOK s → exec .lzDstep s = .next (faulted 0x03 s.inLen s)) ∧
    (CfgOK s → LenOK s → s.obits % 8 ≠ 0 → exec .lzDstep s = .next (faulted 0x06 (BitVec.ofNat 32 s.obits) s)) ∧
    (CfgOK s → LenOK s → s.obits % 8 = 0 →
      (∀ t, DecodeStep s t → exec .lzDstep s = .next t) ∧
      (∀ n w, DecodeFault s n w → exec .lzDstep s = .next (faulted n w s)) ∧
      ((∃ t, DecodeStep s t) ∨ ∃ n w, DecodeFault s n w))

/-- R197: `LZ.DEC` is `LZ.DSTEP`'s unit repeated from an empty output and `BITPOS = 0` until `END = 1`; a fault of a unit stops
it with the state of the last completed step. -/
def Obligations.DecodesByRepeatedSteps : Prop :=
  ∀ s : State, CapsOK s →
    (¬ CfgOK s → exec .lzDec s = .next (faulted 0x02 0 s)) ∧
    (CfgOK s → ¬ LenOK s → exec .lzDec s = .next (faulted 0x03 s.inLen s)) ∧
    (CfgOK s → LenOK s →
      let start := { s with ostr := [], bitpos := 0, endFlag := false }
      (∀ t, Relation.ReflTransGen DecodeStep start t → t.endFlag = true →
        exec .lzDec s = .next t ∧ t.tKind = .none) ∧
      (∀ t n w, Relation.ReflTransGen DecodeStep start t → DecodeFault t n w →
        exec .lzDec s = .next (faulted n w t) ∧ t.endFlag = false) ∧
      ∃ t, Relation.ReflTransGen DecodeStep start t ∧ (t.endFlag = true ∨ ∃ n w, DecodeFault t n w))

/-- R199: decoding the padded encoding of any acceptable token sequence gives the tokens' expansions and consumes exactly the
tokens. -/
def Obligations.DecoderInvertsEncoding : Prop :=
  ∀ (s : State) (ts : List Token), CapsOK s → CfgOK s → LenOK s → validTokens s.minm.toNat [] ts →
    inputStream s = padded (encTokens s.minm.toNat ts) → (expandTokens [] ts).length ≤ s.obufCap →
    exec .lzDec s = .next { s with
      ostr := (expandTokens [] ts).flatMap fun b => bits 8 b.toNat
      bitpos := BitVec.ofNat 32 (encTokens s.minm.toNat ts).length
      tKind := .none, tByte := 0, tDist := 0, tLen := 0, endFlag := true }

/-- R167: the LZSS round trip. -/
def Obligations.LzssRoundTrip : Prop :=
  ∀ s t : State, CapsOK s → s.err = false → afterAll [.lzEnc] s = some t → t.olen ≤ s.ibufCap →
    s.inLen.toNat ≤ s.obufCap →
    ∃ u, afterAll [.bufXfer, .lzDec] t = some u ∧ u.err = false ∧ u.olen = s.inLen.toNat ∧ outBytes u = inputBytes s

/-! ### The Huffman tree and codebook -/

/-- R211: `HF.COUNT` writes all 256 entries with the counts of the input bytes. -/
def Obligations.CountsSymbols : Prop :=
  ∀ s : State,
    (LenOK s → ∃ t, exec .hfCount s = .next t ∧ t = { s with freq := t.freq } ∧
      (∀ x, (Table.get t.freq x).toNat = (inputBytes s).count x) ∧
      ((List.range 256).map fun x => (Table.get t.freq (BitVec.ofNat 8 x)).toNat).sum = s.inLen.toNat) ∧
    (¬ LenOK s → exec .hfCount s = .next (faulted 0x03 s.inLen s))

/-- R212 to R216: `HF.BUILD` builds the tree of the frequency table: the leaves in symbol order, then the merges of the two
lowest nodes, the first removed on the left. -/
def Obligations.BuildsHuffmanTree : Prop :=
  ∀ s : State, ∃ ns, IsHuffTree s.freq ns ∧ exec .hfBuild s = .next { s with
    nodes := ns, nnodes := BitVec.ofNat 9 ns.length
    root := if ns = [] then 511 else BitVec.ofNat 9 (ns.length - 1), tvalid := true } ∧ ns.length ≤ 511

/-- R218: the shape of the tree that `HF.BUILD` leaves, whose root has the sum of all frequencies, and of every held tree. -/
def Obligations.TreeShape : Prop :=
  (∀ s t : State, exec .hfBuild s = .next t → t.nodes ≠ [] → IsTreeShaped t ∧
    nfreqOf t.nodes t.root.toNat = ((List.range 256).map fun x => (Table.get s.freq (BitVec.ofNat 8 x)).toNat).sum) ∧
  ∀ s : State, TreeOK s → s.tvalid = true → s.nodes ≠ [] → IsTreeShaped s

/-- R233, with R231, R232, R235 and R119: `HF.DERIVE` writes all 256 entries from the paths of the held tree, then discards the
tree; without a tree it raises `HF_NOTREE`. -/
def Obligations.DerivesCodebook : Prop :=
  ∀ s : State, TreeOK s →
    (s.tvalid = false → exec .hfDerive s = .next (faulted 0x20 0 s)) ∧
    (s.tvalid = true → ∃ t, exec .hfDerive s = .next t ∧
      t = { s with cbl := t.cbl, cbc := t.cbc, nodes := [], nnodes := 0, root := 511, tvalid := false } ∧
      (∀ x c, TreeCode s x c →
        (Table.get t.cbl x).toNat = c.length ∧ (Table.get t.cbc x).toNat = val c ∧ code t x = some c) ∧
      ∀ x, (∀ c, ¬ TreeCode s x c) → Table.get t.cbl x = 0 ∧ Table.get t.cbc x = 0)

/-- R234: a derived codebook is prefix-free, gives exactly the symbols of non-zero frequency a code, none of them empty, passes
`CbOK`, and for two or more symbols is complete. -/
def Obligations.DerivedCodebookIsPrefixFree : Prop :=
  ∀ s t u : State, exec .hfBuild s = .next t → exec .hfDerive t = .next u →
    PrefixFree (code u) ∧ CbOK u ∧ (∀ x, Table.get s.freq x ≠ 0 ↔ ∃ c, code u x = some c) ∧
    (∀ x c, code u x = some c → 1 ≤ c.length ∧ c.length ≤ 255) ∧
    (2 ≤ t.nnodes.toNat → ∀ g : Nat → Bool, ∃! x, ∃ n, code u x = some ((List.range n).map g))

/-! ### The Huffman bitstream -/

/-- R52: the code in a codebook entry. -/
def Obligations.CodebookEntry : Prop :=
  ∀ (s : State) (x : Byte),
    (code s x = none ↔ Table.get s.cbl x = 0) ∧
    ∀ w, code s x = some w → w.length = (Table.get s.cbl x).toNat ∧
      ∀ i (h : i < w.length), w[i] = (Table.get s.cbc x).getLsbD (w.length - 1 - i)

/-- R241, R52: `CbOK` fails exactly when there is a first duplicate pair, there is at most one, and a codebook made by
`HF.DERIVE` passes. What the four commands do with the pair stands in their own statements. -/
def Obligations.CodebookValidation : Prop :=
  (∀ s : State, ¬ CbOK s ↔ ∃ x y, IsFirstDup s x y) ∧
    (∀ (s : State) (x y x' y' : Byte), IsFirstDup s x y → IsFirstDup s x' y' → x = x' ∧ y = y') ∧
    ∀ s t : State, TreeOK s → s.tvalid = true → exec .hfDerive s = .next t → CbOK t

/-- R242: `HF.PUTS` appends the code of the symbol, whole or not at all, after its checks in their order. -/
def Obligations.PutsSymbol : Prop :=
  ∀ (x : Byte) (s : State),
    (∀ a b, IsFirstDup s a b →
      exec (.hfPuts x) s = .next (faulted 0x21 (BitVec.ofNat 32 (256 * b.toNat + a.toNat)) s)) ∧
    (CbOK s → code s x = none → exec (.hfPuts x) s = .next (faulted 0x22 (BitVec.ofNat 32 x.toNat) s)) ∧
    (CbOK s → ∀ c, code s x = some c →
      (Room s c.length → exec (.hfPuts x) s = .next { s with ostr := s.ostr ++ c }) ∧
      (¬ Room s c.length → exec (.hfPuts x) s = .next (faulted 0x05 (BitVec.ofNat 32 s.obits) s)))

/-- R243: `HF.ENC`: the codes of the input bytes in order, then the padding; it stops at a symbol without a code or one that
does not fit, with the state after the symbols before it. -/
def Obligations.HuffmanEncodes : Prop :=
  ∀ s : State,
    (¬ LenOK s → exec .hfEnc s = .next (faulted 0x03 s.inLen s)) ∧
    (LenOK s → ∀ a b, IsFirstDup s a b →
      exec .hfEnc s = .next (faulted 0x21 (BitVec.ofNat 32 (256 * b.toNat + a.toNat)) s)) ∧
    (LenOK s → CbOK s →
      (∀ c, encSymbols (code s) (inputBytes s) = some c → c.length ≤ 8 * s.obufCap →
        exec .hfEnc s = .next { s with
          ostr := padded c, pbits := BitVec.ofNat 32 c.length, pos := s.inLen, endFlag := true } ∧
        c.length = ((inputBytes s).map fun b => (Table.get s.cbl b).toNat).sum) ∧
      ∀ k c, k < s.inLen.toNat → encSymbols (code s) ((inputBytes s).take k) = some c → c.length ≤ 8 * s.obufCap →
        let done := { s with ostr := c, pos := BitVec.ofNat 32 k, endFlag := false }
        (code s (ibufAt s k) = none →
          exec .hfEnc s = .next (faulted 0x22 (BitVec.ofNat 32 (ibufAt s k).toNat) done)) ∧
        ∀ d, code s (ibufAt s k) = some d → 8 * s.obufCap < c.length + d.length →
          exec .hfEnc s = .next (faulted 0x05 (BitVec.ofNat 32 c.length) done))

/-- R245, R244: `HF.DSYM`. -/
def Obligations.DecodesOneSymbol : Prop :=
  ∀ s : State,
    (¬ LenOK s → exec .hfDsym s = .next (faulted 0x03 s.inLen s)) ∧
    (LenOK s → 8 * s.inLen.toNat < s.pbits.toNat → exec .hfDsym s = .next (faulted 0x25 s.pbits s)) ∧
    (LenOK s → s.pbits.toNat ≤ 8 * s.inLen.toNat → s.obits % 8 ≠ 0 →
      exec .hfDsym s = .next (faulted 0x06 (BitVec.ofNat 32 s.obits) s)) ∧
    (LenOK s → s.pbits.toNat ≤ 8 * s.inLen.toNat → s.obits % 8 = 0 → ∀ a b, IsFirstDup s a b →
      exec .hfDsym s = .next (faulted 0x21 (BitVec.ofNat 32 (256 * b.toNat + a.toNat)) s)) ∧
    (LenOK s → s.pbits.toNat ≤ 8 * s.inLen.toNat → s.obits % 8 = 0 → CbOK s →
      (∀ t, SymbolStep s t → exec .hfDsym s = .next t) ∧
      (∀ n w, SymbolFault s n w → exec .hfDsym s = .next (faulted n w s)) ∧
      ((∃ t, SymbolStep s t) ∨ ∃ n w, SymbolFault s n w))

/-- R246: `HF.DEC` is `HF.DSYM`'s unit repeated from an empty output and `BITPOS = 0` until `END = 1`, which leaves
`BITPOS = PBITS`. -/
def Obligations.HuffmanDecodes : Prop :=
  ∀ s : State,
    (¬ LenOK s → exec .hfDec s = .next (faulted 0x03 s.inLen s)) ∧
    (LenOK s → 8 * s.inLen.toNat < s.pbits.toNat → exec .hfDec s = .next (faulted 0x25 s.pbits s)) ∧
    (LenOK s → s.pbits.toNat ≤ 8 * s.inLen.toNat → ∀ a b, IsFirstDup s a b →
      exec .hfDec s = .next (faulted 0x21 (BitVec.ofNat 32 (256 * b.toNat + a.toNat)) s)) ∧
    (LenOK s → s.pbits.toNat ≤ 8 * s.inLen.toNat → CbOK s →
      let start := { s with ostr := [], bitpos := 0, endFlag := false }
      (∀ t, Relation.ReflTransGen SymbolStep start t → t.endFlag = true →
        exec .hfDec s = .next t ∧ t.bitpos = s.pbits ∧ t.tKind = .none) ∧
      (∀ t n w, Relation.ReflTransGen SymbolStep start t → SymbolFault t n w →
        exec .hfDec s = .next (faulted n w t) ∧ t.endFlag = false) ∧
      ∃ t, Relation.ReflTransGen SymbolStep start t ∧ (t.endFlag = true ∨ ∃ n w, SymbolFault t n w))

/-- R248: the Huffman round trip. -/
def Obligations.HuffmanRoundTrip : Prop :=
  ∀ s t : State, CapsOK s → s.err = false → afterAll [.hfCount, .hfBuild, .hfDerive, .hfEnc] s = some t →
    t.olen ≤ s.ibufCap → s.inLen.toNat ≤ s.obufCap →
    ∃ u, afterAll [.bufXfer, .hfDec] t = some u ∧ u.err = false ∧ u.olen = s.inLen.toNat ∧ outBytes u = inputBytes s

/-- R125 (`lzhf.compress`), R167, R248: the two pipelines chained, and their inverses in the other order, give the input back. -/
def Obligations.ChainedRoundTrip : Prop :=
  ∀ s t : State, CapsOK s → s.err = false →
    afterAll [.lzEnc, .bufXfer, .hfCount, .hfBuild, .hfDerive, .hfEnc] s = some t →
    t.olen ≤ s.ibufCap → s.inLen.toNat ≤ s.obufCap →
    ∃ u, afterAll [.bufXfer, .hfDec, .bufXfer, .lzDec] t = some u ∧ u.err = false ∧ u.olen = s.inLen.toNat ∧
      outBytes u = inputBytes s

/-! ### The invariant -/

/-- Every step from a state that meets the invariant leads to one that does (R9, R24, R25, R34, R40 to R44, R48, R84, R215;
log 4). -/
def Obligations.InvariantKept : Prop := ∀ s t : State, Inv s → step s = .next t → Inv t

/-- The machine right after reset meets the invariant, at its capacities and at any others in range (log 5). -/
def Obligations.ResetMeetsInvariant : Prop :=
  Inv State.reset ∧ ∀ a b, 1 ≤ a → a ≤ 2 ^ 28 → 1 ≤ b → b ≤ 2 ^ 28 → Inv (State.resetWith a b)

/-! ### Reading the memories -/

/-- R80, R85, R119: what a host read of `FREQ`, `CBL`, `CBC` and `IBUF` returns: `FREQ[x]`, `CBL[x]` zero-extended, bits
`[32w+31 : 32w]` of `CBC[x]` at index `8x + w`, and byte `i` of the input buffer zero-extended (the extension of a byte of `IBUF` is the
model's, log 8). -/
def Obligations.MemoryReads : Prop :=
  ∀ s : State,
    (∀ x : Nat, x < 256 → s.freq.toList[x]? = some (hostReadMem s .freq x)) ∧
    (∀ x : Nat, x < 256 → ∃ n, s.cbl.toList[x]? = some n ∧ (hostReadMem s .cbl x).toNat = n.toNat) ∧
    (∀ x w : Nat, x < 256 → w < 8 → ∃ c, s.cbc.toList[x]? = some c ∧
      ∀ k < 32, (hostReadMem s .cbc (8 * x + w)).getLsbD k = c.getLsbD (32 * w + k)) ∧
    ∀ i, (hostReadMem s .ibuf i).toNat = (ibufAt s i).toNat

end
end

