-- ==== Sys2Proof/Laws/Bits.lean ====
section
/-! SUPPORT. Bit strings: `bits` and `val` are inverse to each other (R11), bytes of a stream (R57, R86), padding (R116). -/

namespace Sys2Proof.Machine

@[simp] theorem bits_length (n v : Nat) : (bits n v).length = n := by simp [bits]

theorem bits_getElem (n v i : Nat) (h : i < (bits n v).length) : (bits n v)[i] = v.testBit (n - 1 - i) := by
  simp [bits]

theorem foldl_val (c : BitStr) (a : Nat) :
    c.foldl (fun x b => 2 * x + b.toNat) a = a * 2 ^ c.length + val c := by
  induction c generalizing a with
  | nil => simp [val]
  | cons b c ih =>
    simp only [List.foldl_cons, List.length_cons, val]
    rw [ih, ih (2 * 0 + b.toNat)]
    ring

@[simp] theorem val_nil : val [] = 0 := rfl

theorem val_cons (b : Bool) (c : BitStr) : val (b :: c) = b.toNat * 2 ^ c.length + val c := by
  have := foldl_val c (2 * 0 + b.toNat)
  simpa [val] using this

theorem val_append (a c : BitStr) : val (a ++ c) = val a * 2 ^ c.length + val c := by
  rw [val, List.foldl_append]
  exact foldl_val c _

theorem val_lt (c : BitStr) : val c < 2 ^ c.length := by
  induction c with
  | nil => simp
  | cons b c ih =>
    rw [val_cons, List.length_cons, pow_succ]
    have : b.toNat ≤ 1 := Bool.toNat_le b
    nlinarith

/-- Bit `|w| - 1 - i` of `val(w)` is `w[i]` (R11). -/
theorem val_testBit (w : BitStr) (i : Nat) (h : i < w.length) : (val w).testBit (w.length - 1 - i) = w[i] := by
  induction w generalizing i with
  | nil => simp at h
  | cons b w ih =>
    rw [val_cons]
    cases i with
    | zero =>
      have hl := val_lt w
      simp only [List.length_cons, Nat.add_sub_cancel, Nat.sub_zero, List.getElem_cons_zero, mul_comm b.toNat]
      rw [Nat.testBit_two_pow_mul_add _ hl]
      cases b <;> simp
    | succ i =>
      have hl := val_lt w
      simp only [List.length_cons] at h
      simp only [List.length_cons, Nat.add_sub_cancel, List.getElem_cons_succ, mul_comm b.toNat]
      rw [Nat.testBit_two_pow_mul_add _ hl, if_pos (by omega), ← ih i (by omega)]
      congr 1; omega

@[simp] theorem bits_val (c : BitStr) : bits c.length (val c) = c := by
  apply List.ext_getElem (by simp)
  intro i h₁ h₂
  rw [bits_getElem, val_testBit c i h₂]

theorem val_inj {a c : BitStr} (hl : a.length = c.length) (hv : val a = val c) : a = c := by
  rw [← bits_val a, ← bits_val c, hl, hv]

@[simp] theorem val_bits (n v : Nat) (h : v < 2 ^ n) : val (bits n v) = v := by
  apply Nat.eq_of_testBit_eq
  intro i
  by_cases hi : i < n
  · have := val_testBit (bits n v) (n - 1 - i) (by simp; omega)
    rw [bits_getElem] at this
    simp only [bits_length] at this
    rwa [show n - 1 - (n - 1 - i) = i by omega] at this
  · have h1 := val_lt (bits n v)
    rw [bits_length] at h1
    rw [Nat.testBit_lt_two_pow (lt_of_lt_of_le h1 (Nat.pow_le_pow_right (by omega) (by omega))),
      Nat.testBit_lt_two_pow (lt_of_lt_of_le h (Nat.pow_le_pow_right (by omega) (by omega)))]

@[simp] theorem val_replicate_false (n : Nat) : val (List.replicate n false) = 0 := by
  induction n with
  | zero => rfl
  | succ n ih => rw [List.replicate_succ, val_cons, ih]; simp

/-- Bit `7 - j` of the byte of a string of at most 8 bits is its bit `j`, 0 past its end (R57, R86). -/
theorem byteOf_getLsbD (c : BitStr) (hc : c.length ≤ 8) (j : Nat) (hj : j < 8) :
    (byteOf c).getLsbD (7 - j) = c.getD j false := by
  have hlen : (c ++ List.replicate (8 - c.length) false).length = 8 := by simp; omega
  have hv := val_testBit (c ++ List.replicate (8 - c.length) false) j (by omega)
  simp only [hlen] at hv
  rw [byteOf, BitVec.getLsbD_ofNat, show 7 - j = 8 - 1 - j by omega, hv]
  simp only [show 8 - 1 - j < 8 by omega, decide_true, Bool.true_and]
  rw [List.getElem_append]
  split
  · rename_i h; simp [List.getD_eq_getElem?_getD, h]
  · rename_i h; simp [List.getD_eq_getElem?_getD, not_lt.mp h]

theorem bits_byte (b : Byte) (j : Nat) (hj : j < 8) : (bits 8 b.toNat).getD j false = b.getLsbD (7 - j) := by
  rw [List.getD_eq_getElem?_getD, List.getElem?_eq_getElem (by simpa using hj), Option.getD_some, bits_getElem]
  simp [BitVec.getLsbD]

@[simp] theorem byteOf_bits (b : Byte) : byteOf (bits 8 b.toNat) = b := by
  simp only [byteOf, bits_length, Nat.sub_self, List.replicate_zero, List.append_nil]
  rw [val_bits _ _ b.isLt]
  simp

@[simp] theorem ofNat_val_bits (b : Byte) : BitVec.ofNat 8 (val (bits 8 b.toNat)) = b := by
  rw [val_bits _ _ b.isLt]; simp

theorem padLen_lt (n : Nat) : padLen n < 8 := by unfold padLen; omega

/-- Padding reaches the next byte boundary and adds no byte (R116, R164). -/
theorem add_padLen (n : Nat) : n + padLen n = 8 * ceil8 n := by unfold padLen ceil8; omega

theorem ceil8_add_padLen (n : Nat) : ceil8 (n + padLen n) = ceil8 n := by unfold padLen ceil8; omega

theorem le_ceil8 (n : Nat) : n ≤ 8 * ceil8 n := by unfold ceil8; omega

@[simp] theorem ceil8_mul8 (n : Nat) : ceil8 (8 * n) = n := by unfold ceil8; omega

@[simp] theorem rep_length (w : List Byte) (n : Nat) : (rep w n).length = n := by simp [rep]

end Sys2Proof.Machine
end

