-- ==== Sys2Proof/Laws/Memory.lean ====
section
/-! SUPPORT. Byte memory and tables: a read after a write, the canonical form is kept, equal contents are equal data. -/

namespace Sys2Proof.Machine

/-! ### Byte memory -/

@[simp] theorem Memory.read?_nil (a : Nat) : Memory.read? [] a = none := rfl

theorem Memory.read?_write (m : Memory) (a x : Nat) (b : Byte) :
    (m.write a b).read? x = if x = a then some b else m.read? x := by
  induction m with
  | nil => simp only [Memory.write, Memory.read?]
  | cons c m ih =>
    obtain ⟨k, v⟩ := c
    simp only [Memory.write]
    split
    · simp only [Memory.read?]
    · split
      · subst_vars; simp only [Memory.read?]; split <;> rfl
      · simp only [Memory.read?, ih]
        split
        · rw [if_neg (by omega)]
        · rfl

@[simp] theorem Memory.read?_write_same (m : Memory) (a : Nat) (b : Byte) : (m.write a b).read? a = some b := by
  simp [Memory.read?_write]

theorem Memory.read?_write_other (m : Memory) (a x : Nat) (b : Byte) (h : x ≠ a) :
    (m.write a b).read? x = m.read? x := by simp [Memory.read?_write, h]

/-- What `writeList` does: the bytes written where they were written, every other address as before. -/
theorem Memory.read?_writeList (m : Memory) (a x : Nat) (bs : List Byte) :
    (m.writeList a bs).read? x = if a ≤ x ∧ x < a + bs.length then bs[x - a]? else m.read? x := by
  induction bs generalizing m a with
  | nil => simp only [Memory.writeList, List.length_nil]; rw [if_neg (by omega)]
  | cons b bs ih =>
    rw [Memory.writeList, ih, Memory.read?_write, List.length_cons]
    by_cases h1 : x = a
    · subst h1
      rw [if_neg (by omega), if_pos rfl, if_pos (by omega)]
      simp
    · by_cases h2 : a + 1 ≤ x ∧ x < a + 1 + bs.length
      · rw [if_pos h2, if_pos (by omega), show x - a = (x - (a + 1)) + 1 by omega]
        simp
      · rw [if_neg h2, if_neg h1, if_neg (by omega)]

theorem Memory.wf_iff (m : Memory) : m.wf = true ↔ m.Pairwise (fun x y => x.1 < y.1) := by
  induction m with
  | nil => simp [Memory.wf]
  | cons c m ih =>
    obtain ⟨a, v⟩ := c
    cases m with
    | nil => simp [Memory.wf]
    | cons d m =>
      obtain ⟨b, w⟩ := d
      rw [Memory.wf, Bool.and_eq_true, ih, decide_eq_true_eq, List.pairwise_cons (l := (b, w) :: m)]
      constructor
      · rintro ⟨hab, hp⟩
        refine ⟨fun y hy => ?_, hp⟩
        rcases List.mem_cons.mp hy with rfl | hy
        · exact hab
        · exact lt_trans hab ((List.pairwise_cons.mp hp).1 y hy)
      · rintro ⟨ha, hp⟩
        exact ⟨ha _ (List.mem_cons_self ..), hp⟩

theorem Memory.mem_write (m : Memory) (a : Nat) (b : Byte) (c : Host.Cell) (h : c ∈ m.write a b) :
    c = (a, b) ∨ c ∈ m := by
  induction m with
  | nil => simpa [Memory.write] using h
  | cons d m ih =>
    obtain ⟨k, v⟩ := d
    simp only [Memory.write] at h
    split at h
    · simpa using h
    · split at h
      · rcases List.mem_cons.mp h with h | h <;> simp [h]
      · rcases List.mem_cons.mp h with h | h
        · simp [h]
        · rcases ih h with h | h <;> simp [h]

/-- A write keeps the canonical form. -/
theorem Memory.write_wf (m : Memory) (a : Nat) (b : Byte) (h : m.wf = true) : (m.write a b).wf = true := by
  rw [Memory.wf_iff] at h ⊢
  induction m with
  | nil => simp [Memory.write]
  | cons d m ih =>
    obtain ⟨k, v⟩ := d
    obtain ⟨hk, hp⟩ := List.pairwise_cons.mp h
    simp only [Memory.write]
    split
    · rename_i hak
      refine List.pairwise_cons.mpr ⟨fun y hy => ?_, h⟩
      rcases List.mem_cons.mp hy with rfl | hy
      · exact hak
      · exact lt_trans hak (hk y hy)
    · split
      · subst_vars; exact List.pairwise_cons.mpr ⟨hk, hp⟩
      · refine List.pairwise_cons.mpr ⟨fun y hy => ?_, ih hp⟩
        rcases Memory.mem_write m a b y hy with rfl | hy
        · show k < a
          omega
        · exact hk y hy

theorem Memory.writeList_wf (m : Memory) (a : Nat) (bs : List Byte) (h : m.wf = true) :
    (m.writeList a bs).wf = true := by
  induction bs generalizing m a with
  | nil => exact h
  | cons b bs ih => exact ih _ _ (Memory.write_wf m a b h)

theorem Memory.mem_writeList (m : Memory) (a : Nat) (bs : List Byte) (c : Host.Cell) (h : c ∈ m.writeList a bs) :
    (a ≤ c.1 ∧ c.1 < a + bs.length) ∨ c ∈ m := by
  induction bs generalizing m a with
  | nil => exact .inr h
  | cons b bs ih =>
    rcases ih _ _ h with h | h
    · simp only [List.length_cons]; omega
    · rcases Memory.mem_write m a b c h with rfl | h
      · simp only [List.length_cons]; omega
      · exact .inr h

theorem Memory.read?_eq_none_of_lt (m : Memory) (a : Nat) (h : ∀ c ∈ m, a < c.1) : m.read? a = none := by
  induction m with
  | nil => rfl
  | cons d m ih =>
    obtain ⟨k, v⟩ := d
    have : a < k := h (k, v) (by simp)
    rw [Memory.read?, if_neg (by omega)]
    exact ih fun c hc => h c (by simp [hc])

/-- Memories in canonical form with equal contents are equal data. -/
theorem Memory.ext (m₁ m₂ : Memory) (h₁ : m₁.wf = true) (h₂ : m₂.wf = true) (h : ∀ a, m₁.read? a = m₂.read? a) :
    m₁ = m₂ := by
  rw [Memory.wf_iff] at h₁ h₂
  induction m₁ generalizing m₂ with
  | nil =>
    cases m₂ with
    | nil => rfl
    | cons d m₂ => have := h d.1; simp [Memory.read?] at this
  | cons c m₁ ih =>
    obtain ⟨hc, hp₁⟩ := List.pairwise_cons.mp h₁
    cases m₂ with
    | nil => have := h c.1; simp [Memory.read?] at this
    | cons d m₂ =>
      obtain ⟨hd, hp₂⟩ := List.pairwise_cons.mp h₂
      obtain ⟨k, v⟩ := c
      obtain ⟨k', v'⟩ := d
      have hkk : k = k' := by
        rcases lt_trichotomy k k' with hlt | he | hlt
        · have := h k
          rw [Memory.read?, if_pos rfl, Memory.read?, if_neg (by omega),
            Memory.read?_eq_none_of_lt m₂ k fun c hc => lt_trans hlt (hd c hc)] at this
          simp at this
        · exact he
        · have := h k'
          rw [Memory.read?, if_neg (by omega), Memory.read?_eq_none_of_lt m₁ k' fun c hc' => lt_trans hlt (hc c hc'),
            Memory.read?, if_pos rfl] at this
          simp at this
      subst hkk
      have hv : v = v' := by have := h k; simpa [Memory.read?] using this
      subst hv
      congr 1
      refine ih m₂ hp₁ hp₂ fun a => ?_
      by_cases ha : a = k
      · subst ha
        rw [Memory.read?_eq_none_of_lt m₁ a hc, Memory.read?_eq_none_of_lt m₂ a hd]
      · have := h a
        simpa [Memory.read?, ha] using this

/-! ### Tables -/

@[simp] theorem Table.get_tabulate {α : Type} (f : Byte → α) (x : Byte) : Table.get (Table.tabulate f) x = f x := by
  simp [Table.get, Table.tabulate]

@[simp] theorem Table.get_put_same {α : Type} (t : Table α) (x : Byte) (v : α) : Table.get (Table.put t x v) x = v := by
  simp [Table.get, Table.put]

theorem Table.get_put_other {α : Type} (t : Table α) (x y : Byte) (v : α) (h : y ≠ x) :
    Table.get (Table.put t x v) y = Table.get t y := by
  have : x.toNat ≠ y.toNat := fun e => h (BitVec.eq_of_toNat_eq e.symm)
  simp [Table.get, Table.put, this]

/-- Equal entries are equal tables. -/
theorem Table.ext {α : Type} (t u : Table α) (h : ∀ x, Table.get t x = Table.get u x) : t = u := by
  apply Vector.ext
  intro i hi
  have := h (BitVec.ofNat 8 i)
  simpa [Table.get, Nat.mod_eq_of_lt hi] using this

/-- Entry `x` of a table is the element at position `x` of its list. -/
theorem Table.toList_getElem? {α : Type} (t : Table α) {x : Nat} (h : x < 256) :
    t.toList[x]? = some (Table.get t (BitVec.ofNat 8 x)) := by
  have : (BitVec.ofNat 8 x).toNat = x := by rw [BitVec.toNat_ofNat]; exact Nat.mod_eq_of_lt h
  simp [Table.get, this, h]

@[simp] theorem Table.get_replicate {α : Type} (v : α) (x : Byte) : Table.get (Vector.replicate 256 v) x = v := by
  simp [Table.get]

end Sys2Proof.Machine
end

