-- ==== Sys2Proof/Laws/State.lean ====
section
/-! SUPPORT. One lemma per field of State and per named update, true by `rfl`: no later proof unfolds an update. -/

namespace Sys2Proof.Machine

section

variable (c : BitStr) (s : State)

@[simp] theorem outAppend_err : (outAppend c s).err = s.err := rfl
@[simp] theorem outAppend_endFlag : (outAppend c s).endFlag = s.endFlag := rfl
@[simp] theorem outAppend_mvalid : (outAppend c s).mvalid = s.mvalid := rfl
@[simp] theorem outAppend_tvalid : (outAppend c s).tvalid = s.tvalid := rfl
@[simp] theorem outAppend_errCode : (outAppend c s).errCode = s.errCode := rfl
@[simp] theorem outAppend_errInfo : (outAppend c s).errInfo = s.errInfo := rfl
@[simp] theorem outAppend_wsize : (outAppend c s).wsize = s.wsize := rfl
@[simp] theorem outAppend_minm : (outAppend c s).minm = s.minm := rfl
@[simp] theorem outAppend_maxm : (outAppend c s).maxm = s.maxm := rfl
@[simp] theorem outAppend_inLen : (outAppend c s).inLen = s.inLen := rfl
@[simp] theorem outAppend_pos : (outAppend c s).pos = s.pos := rfl
@[simp] theorem outAppend_bitpos : (outAppend c s).bitpos = s.bitpos := rfl
@[simp] theorem outAppend_pbits : (outAppend c s).pbits = s.pbits := rfl
@[simp] theorem outAppend_mDist : (outAppend c s).mDist = s.mDist := rfl
@[simp] theorem outAppend_mLen : (outAppend c s).mLen = s.mLen := rfl
@[simp] theorem outAppend_tKind : (outAppend c s).tKind = s.tKind := rfl
@[simp] theorem outAppend_tByte : (outAppend c s).tByte = s.tByte := rfl
@[simp] theorem outAppend_tDist : (outAppend c s).tDist = s.tDist := rfl
@[simp] theorem outAppend_tLen : (outAppend c s).tLen = s.tLen := rfl
@[simp] theorem outAppend_nnodes : (outAppend c s).nnodes = s.nnodes := rfl
@[simp] theorem outAppend_root : (outAppend c s).root = s.root := rfl
@[simp] theorem outAppend_ibufCap : (outAppend c s).ibufCap = s.ibufCap := rfl
@[simp] theorem outAppend_obufCap : (outAppend c s).obufCap = s.obufCap := rfl
@[simp] theorem outAppend_freq : (outAppend c s).freq = s.freq := rfl
@[simp] theorem outAppend_cbl : (outAppend c s).cbl = s.cbl := rfl
@[simp] theorem outAppend_cbc : (outAppend c s).cbc = s.cbc := rfl
@[simp] theorem outAppend_nodes : (outAppend c s).nodes = s.nodes := rfl
@[simp] theorem outAppend_ibuf : (outAppend c s).ibuf = s.ibuf := rfl
@[simp] theorem outAppend_ostr : (outAppend c s).ostr = s.ostr ++ c := rfl
@[simp] theorem outAppend_epoch : (outAppend c s).epoch = s.epoch := rfl
@[simp] theorem outAppend_hostq : (outAppend c s).hostq = s.hostq := rfl
@[simp] theorem outAppend_rdata : (outAppend c s).rdata = s.rdata := rfl

end

section

variable (s : State)

@[simp] theorem emptyOut_err : (emptyOut s).err = s.err := rfl
@[simp] theorem emptyOut_endFlag : (emptyOut s).endFlag = s.endFlag := rfl
@[simp] theorem emptyOut_mvalid : (emptyOut s).mvalid = s.mvalid := rfl
@[simp] theorem emptyOut_tvalid : (emptyOut s).tvalid = s.tvalid := rfl
@[simp] theorem emptyOut_errCode : (emptyOut s).errCode = s.errCode := rfl
@[simp] theorem emptyOut_errInfo : (emptyOut s).errInfo = s.errInfo := rfl
@[simp] theorem emptyOut_wsize : (emptyOut s).wsize = s.wsize := rfl
@[simp] theorem emptyOut_minm : (emptyOut s).minm = s.minm := rfl
@[simp] theorem emptyOut_maxm : (emptyOut s).maxm = s.maxm := rfl
@[simp] theorem emptyOut_inLen : (emptyOut s).inLen = s.inLen := rfl
@[simp] theorem emptyOut_pos : (emptyOut s).pos = s.pos := rfl
@[simp] theorem emptyOut_bitpos : (emptyOut s).bitpos = s.bitpos := rfl
@[simp] theorem emptyOut_pbits : (emptyOut s).pbits = s.pbits := rfl
@[simp] theorem emptyOut_mDist : (emptyOut s).mDist = s.mDist := rfl
@[simp] theorem emptyOut_mLen : (emptyOut s).mLen = s.mLen := rfl
@[simp] theorem emptyOut_tKind : (emptyOut s).tKind = s.tKind := rfl
@[simp] theorem emptyOut_tByte : (emptyOut s).tByte = s.tByte := rfl
@[simp] theorem emptyOut_tDist : (emptyOut s).tDist = s.tDist := rfl
@[simp] theorem emptyOut_tLen : (emptyOut s).tLen = s.tLen := rfl
@[simp] theorem emptyOut_nnodes : (emptyOut s).nnodes = s.nnodes := rfl
@[simp] theorem emptyOut_root : (emptyOut s).root = s.root := rfl
@[simp] theorem emptyOut_ibufCap : (emptyOut s).ibufCap = s.ibufCap := rfl
@[simp] theorem emptyOut_obufCap : (emptyOut s).obufCap = s.obufCap := rfl
@[simp] theorem emptyOut_freq : (emptyOut s).freq = s.freq := rfl
@[simp] theorem emptyOut_cbl : (emptyOut s).cbl = s.cbl := rfl
@[simp] theorem emptyOut_cbc : (emptyOut s).cbc = s.cbc := rfl
@[simp] theorem emptyOut_nodes : (emptyOut s).nodes = s.nodes := rfl
@[simp] theorem emptyOut_ibuf : (emptyOut s).ibuf = s.ibuf := rfl
@[simp] theorem emptyOut_ostr : (emptyOut s).ostr = [] := rfl
@[simp] theorem emptyOut_epoch : (emptyOut s).epoch = s.epoch := rfl
@[simp] theorem emptyOut_hostq : (emptyOut s).hostq = s.hostq := rfl
@[simp] theorem emptyOut_rdata : (emptyOut s).rdata = s.rdata := rfl

end

section

variable (s : State)

@[simp] theorem flushOut_err : (flushOut s).err = s.err := rfl
@[simp] theorem flushOut_endFlag : (flushOut s).endFlag = s.endFlag := rfl
@[simp] theorem flushOut_mvalid : (flushOut s).mvalid = s.mvalid := rfl
@[simp] theorem flushOut_tvalid : (flushOut s).tvalid = s.tvalid := rfl
@[simp] theorem flushOut_errCode : (flushOut s).errCode = s.errCode := rfl
@[simp] theorem flushOut_errInfo : (flushOut s).errInfo = s.errInfo := rfl
@[simp] theorem flushOut_wsize : (flushOut s).wsize = s.wsize := rfl
@[simp] theorem flushOut_minm : (flushOut s).minm = s.minm := rfl
@[simp] theorem flushOut_maxm : (flushOut s).maxm = s.maxm := rfl
@[simp] theorem flushOut_inLen : (flushOut s).inLen = s.inLen := rfl
@[simp] theorem flushOut_pos : (flushOut s).pos = s.pos := rfl
@[simp] theorem flushOut_bitpos : (flushOut s).bitpos = s.bitpos := rfl
@[simp] theorem flushOut_pbits : (flushOut s).pbits = BitVec.ofNat 32 s.obits := rfl
@[simp] theorem flushOut_mDist : (flushOut s).mDist = s.mDist := rfl
@[simp] theorem flushOut_mLen : (flushOut s).mLen = s.mLen := rfl
@[simp] theorem flushOut_tKind : (flushOut s).tKind = s.tKind := rfl
@[simp] theorem flushOut_tByte : (flushOut s).tByte = s.tByte := rfl
@[simp] theorem flushOut_tDist : (flushOut s).tDist = s.tDist := rfl
@[simp] theorem flushOut_tLen : (flushOut s).tLen = s.tLen := rfl
@[simp] theorem flushOut_nnodes : (flushOut s).nnodes = s.nnodes := rfl
@[simp] theorem flushOut_root : (flushOut s).root = s.root := rfl
@[simp] theorem flushOut_ibufCap : (flushOut s).ibufCap = s.ibufCap := rfl
@[simp] theorem flushOut_obufCap : (flushOut s).obufCap = s.obufCap := rfl
@[simp] theorem flushOut_freq : (flushOut s).freq = s.freq := rfl
@[simp] theorem flushOut_cbl : (flushOut s).cbl = s.cbl := rfl
@[simp] theorem flushOut_cbc : (flushOut s).cbc = s.cbc := rfl
@[simp] theorem flushOut_nodes : (flushOut s).nodes = s.nodes := rfl
@[simp] theorem flushOut_ibuf : (flushOut s).ibuf = s.ibuf := rfl
@[simp] theorem flushOut_ostr : (flushOut s).ostr = s.ostr ++ List.replicate (padLen s.obits) false := rfl
@[simp] theorem flushOut_epoch : (flushOut s).epoch = s.epoch := rfl
@[simp] theorem flushOut_hostq : (flushOut s).hostq = s.hostq := rfl
@[simp] theorem flushOut_rdata : (flushOut s).rdata = s.rdata := rfl

end

section

variable (n : Nat) (s : State)

@[simp] theorem setPos_err : (setPos n s).err = s.err := rfl
@[simp] theorem setPos_endFlag : (setPos n s).endFlag = s.endFlag := rfl
@[simp] theorem setPos_mvalid : (setPos n s).mvalid = s.mvalid := rfl
@[simp] theorem setPos_tvalid : (setPos n s).tvalid = s.tvalid := rfl
@[simp] theorem setPos_errCode : (setPos n s).errCode = s.errCode := rfl
@[simp] theorem setPos_errInfo : (setPos n s).errInfo = s.errInfo := rfl
@[simp] theorem setPos_wsize : (setPos n s).wsize = s.wsize := rfl
@[simp] theorem setPos_minm : (setPos n s).minm = s.minm := rfl
@[simp] theorem setPos_maxm : (setPos n s).maxm = s.maxm := rfl
@[simp] theorem setPos_inLen : (setPos n s).inLen = s.inLen := rfl
@[simp] theorem setPos_pos : (setPos n s).pos = BitVec.ofNat 32 n := rfl
@[simp] theorem setPos_bitpos : (setPos n s).bitpos = s.bitpos := rfl
@[simp] theorem setPos_pbits : (setPos n s).pbits = s.pbits := rfl
@[simp] theorem setPos_mDist : (setPos n s).mDist = s.mDist := rfl
@[simp] theorem setPos_mLen : (setPos n s).mLen = s.mLen := rfl
@[simp] theorem setPos_tKind : (setPos n s).tKind = s.tKind := rfl
@[simp] theorem setPos_tByte : (setPos n s).tByte = s.tByte := rfl
@[simp] theorem setPos_tDist : (setPos n s).tDist = s.tDist := rfl
@[simp] theorem setPos_tLen : (setPos n s).tLen = s.tLen := rfl
@[simp] theorem setPos_nnodes : (setPos n s).nnodes = s.nnodes := rfl
@[simp] theorem setPos_root : (setPos n s).root = s.root := rfl
@[simp] theorem setPos_ibufCap : (setPos n s).ibufCap = s.ibufCap := rfl
@[simp] theorem setPos_obufCap : (setPos n s).obufCap = s.obufCap := rfl
@[simp] theorem setPos_freq : (setPos n s).freq = s.freq := rfl
@[simp] theorem setPos_cbl : (setPos n s).cbl = s.cbl := rfl
@[simp] theorem setPos_cbc : (setPos n s).cbc = s.cbc := rfl
@[simp] theorem setPos_nodes : (setPos n s).nodes = s.nodes := rfl
@[simp] theorem setPos_ibuf : (setPos n s).ibuf = s.ibuf := rfl
@[simp] theorem setPos_ostr : (setPos n s).ostr = s.ostr := rfl
@[simp] theorem setPos_epoch : (setPos n s).epoch = s.epoch := rfl
@[simp] theorem setPos_hostq : (setPos n s).hostq = s.hostq := rfl
@[simp] theorem setPos_rdata : (setPos n s).rdata = s.rdata := rfl

end

section

variable (n : Nat) (s : State)

@[simp] theorem setBitpos_err : (setBitpos n s).err = s.err := rfl
@[simp] theorem setBitpos_endFlag : (setBitpos n s).endFlag = s.endFlag := rfl
@[simp] theorem setBitpos_mvalid : (setBitpos n s).mvalid = s.mvalid := rfl
@[simp] theorem setBitpos_tvalid : (setBitpos n s).tvalid = s.tvalid := rfl
@[simp] theorem setBitpos_errCode : (setBitpos n s).errCode = s.errCode := rfl
@[simp] theorem setBitpos_errInfo : (setBitpos n s).errInfo = s.errInfo := rfl
@[simp] theorem setBitpos_wsize : (setBitpos n s).wsize = s.wsize := rfl
@[simp] theorem setBitpos_minm : (setBitpos n s).minm = s.minm := rfl
@[simp] theorem setBitpos_maxm : (setBitpos n s).maxm = s.maxm := rfl
@[simp] theorem setBitpos_inLen : (setBitpos n s).inLen = s.inLen := rfl
@[simp] theorem setBitpos_pos : (setBitpos n s).pos = s.pos := rfl
@[simp] theorem setBitpos_bitpos : (setBitpos n s).bitpos = BitVec.ofNat 32 n := rfl
@[simp] theorem setBitpos_pbits : (setBitpos n s).pbits = s.pbits := rfl
@[simp] theorem setBitpos_mDist : (setBitpos n s).mDist = s.mDist := rfl
@[simp] theorem setBitpos_mLen : (setBitpos n s).mLen = s.mLen := rfl
@[simp] theorem setBitpos_tKind : (setBitpos n s).tKind = s.tKind := rfl
@[simp] theorem setBitpos_tByte : (setBitpos n s).tByte = s.tByte := rfl
@[simp] theorem setBitpos_tDist : (setBitpos n s).tDist = s.tDist := rfl
@[simp] theorem setBitpos_tLen : (setBitpos n s).tLen = s.tLen := rfl
@[simp] theorem setBitpos_nnodes : (setBitpos n s).nnodes = s.nnodes := rfl
@[simp] theorem setBitpos_root : (setBitpos n s).root = s.root := rfl
@[simp] theorem setBitpos_ibufCap : (setBitpos n s).ibufCap = s.ibufCap := rfl
@[simp] theorem setBitpos_obufCap : (setBitpos n s).obufCap = s.obufCap := rfl
@[simp] theorem setBitpos_freq : (setBitpos n s).freq = s.freq := rfl
@[simp] theorem setBitpos_cbl : (setBitpos n s).cbl = s.cbl := rfl
@[simp] theorem setBitpos_cbc : (setBitpos n s).cbc = s.cbc := rfl
@[simp] theorem setBitpos_nodes : (setBitpos n s).nodes = s.nodes := rfl
@[simp] theorem setBitpos_ibuf : (setBitpos n s).ibuf = s.ibuf := rfl
@[simp] theorem setBitpos_ostr : (setBitpos n s).ostr = s.ostr := rfl
@[simp] theorem setBitpos_epoch : (setBitpos n s).epoch = s.epoch := rfl
@[simp] theorem setBitpos_hostq : (setBitpos n s).hostq = s.hostq := rfl
@[simp] theorem setBitpos_rdata : (setBitpos n s).rdata = s.rdata := rfl

end

section

variable (r : Raise) (s : State)

@[simp] theorem raise_err : (raise r s).err = true := rfl
@[simp] theorem raise_endFlag : (raise r s).endFlag = s.endFlag := rfl
@[simp] theorem raise_mvalid : (raise r s).mvalid = s.mvalid := rfl
@[simp] theorem raise_tvalid : (raise r s).tvalid = s.tvalid := rfl
@[simp] theorem raise_errCode : (raise r s).errCode = r.1.code := rfl
@[simp] theorem raise_errInfo : (raise r s).errInfo = r.2 := rfl
@[simp] theorem raise_wsize : (raise r s).wsize = s.wsize := rfl
@[simp] theorem raise_minm : (raise r s).minm = s.minm := rfl
@[simp] theorem raise_maxm : (raise r s).maxm = s.maxm := rfl
@[simp] theorem raise_inLen : (raise r s).inLen = s.inLen := rfl
@[simp] theorem raise_pos : (raise r s).pos = s.pos := rfl
@[simp] theorem raise_bitpos : (raise r s).bitpos = s.bitpos := rfl
@[simp] theorem raise_pbits : (raise r s).pbits = s.pbits := rfl
@[simp] theorem raise_mDist : (raise r s).mDist = s.mDist := rfl
@[simp] theorem raise_mLen : (raise r s).mLen = s.mLen := rfl
@[simp] theorem raise_tKind : (raise r s).tKind = s.tKind := rfl
@[simp] theorem raise_tByte : (raise r s).tByte = s.tByte := rfl
@[simp] theorem raise_tDist : (raise r s).tDist = s.tDist := rfl
@[simp] theorem raise_tLen : (raise r s).tLen = s.tLen := rfl
@[simp] theorem raise_nnodes : (raise r s).nnodes = s.nnodes := rfl
@[simp] theorem raise_root : (raise r s).root = s.root := rfl
@[simp] theorem raise_ibufCap : (raise r s).ibufCap = s.ibufCap := rfl
@[simp] theorem raise_obufCap : (raise r s).obufCap = s.obufCap := rfl
@[simp] theorem raise_freq : (raise r s).freq = s.freq := rfl
@[simp] theorem raise_cbl : (raise r s).cbl = s.cbl := rfl
@[simp] theorem raise_cbc : (raise r s).cbc = s.cbc := rfl
@[simp] theorem raise_nodes : (raise r s).nodes = s.nodes := rfl
@[simp] theorem raise_ibuf : (raise r s).ibuf = s.ibuf := rfl
@[simp] theorem raise_ostr : (raise r s).ostr = s.ostr := rfl
@[simp] theorem raise_epoch : (raise r s).epoch = s.epoch := rfl
@[simp] theorem raise_hostq : (raise r s).hostq = s.hostq := rfl
@[simp] theorem raise_rdata : (raise r s).rdata = s.rdata := rfl

end

section

variable (s : State)

@[simp] theorem clearFault_err : (clearFault s).err = false := rfl
@[simp] theorem clearFault_endFlag : (clearFault s).endFlag = s.endFlag := rfl
@[simp] theorem clearFault_mvalid : (clearFault s).mvalid = s.mvalid := rfl
@[simp] theorem clearFault_tvalid : (clearFault s).tvalid = s.tvalid := rfl
@[simp] theorem clearFault_errCode : (clearFault s).errCode = 0 := rfl
@[simp] theorem clearFault_errInfo : (clearFault s).errInfo = 0 := rfl
@[simp] theorem clearFault_wsize : (clearFault s).wsize = s.wsize := rfl
@[simp] theorem clearFault_minm : (clearFault s).minm = s.minm := rfl
@[simp] theorem clearFault_maxm : (clearFault s).maxm = s.maxm := rfl
@[simp] theorem clearFault_inLen : (clearFault s).inLen = s.inLen := rfl
@[simp] theorem clearFault_pos : (clearFault s).pos = s.pos := rfl
@[simp] theorem clearFault_bitpos : (clearFault s).bitpos = s.bitpos := rfl
@[simp] theorem clearFault_pbits : (clearFault s).pbits = s.pbits := rfl
@[simp] theorem clearFault_mDist : (clearFault s).mDist = s.mDist := rfl
@[simp] theorem clearFault_mLen : (clearFault s).mLen = s.mLen := rfl
@[simp] theorem clearFault_tKind : (clearFault s).tKind = s.tKind := rfl
@[simp] theorem clearFault_tByte : (clearFault s).tByte = s.tByte := rfl
@[simp] theorem clearFault_tDist : (clearFault s).tDist = s.tDist := rfl
@[simp] theorem clearFault_tLen : (clearFault s).tLen = s.tLen := rfl
@[simp] theorem clearFault_nnodes : (clearFault s).nnodes = s.nnodes := rfl
@[simp] theorem clearFault_root : (clearFault s).root = s.root := rfl
@[simp] theorem clearFault_ibufCap : (clearFault s).ibufCap = s.ibufCap := rfl
@[simp] theorem clearFault_obufCap : (clearFault s).obufCap = s.obufCap := rfl
@[simp] theorem clearFault_freq : (clearFault s).freq = s.freq := rfl
@[simp] theorem clearFault_cbl : (clearFault s).cbl = s.cbl := rfl
@[simp] theorem clearFault_cbc : (clearFault s).cbc = s.cbc := rfl
@[simp] theorem clearFault_nodes : (clearFault s).nodes = s.nodes := rfl
@[simp] theorem clearFault_ibuf : (clearFault s).ibuf = s.ibuf := rfl
@[simp] theorem clearFault_ostr : (clearFault s).ostr = s.ostr := rfl
@[simp] theorem clearFault_epoch : (clearFault s).epoch = s.epoch := rfl
@[simp] theorem clearFault_hostq : (clearFault s).hostq = s.hostq := rfl
@[simp] theorem clearFault_rdata : (clearFault s).rdata = s.rdata := rfl

end

section

variable (b : Bool) (s : State)

@[simp] theorem setEnd_err : (setEnd b s).err = s.err := rfl
@[simp] theorem setEnd_endFlag : (setEnd b s).endFlag = b := rfl
@[simp] theorem setEnd_mvalid : (setEnd b s).mvalid = s.mvalid := rfl
@[simp] theorem setEnd_tvalid : (setEnd b s).tvalid = s.tvalid := rfl
@[simp] theorem setEnd_errCode : (setEnd b s).errCode = s.errCode := rfl
@[simp] theorem setEnd_errInfo : (setEnd b s).errInfo = s.errInfo := rfl
@[simp] theorem setEnd_wsize : (setEnd b s).wsize = s.wsize := rfl
@[simp] theorem setEnd_minm : (setEnd b s).minm = s.minm := rfl
@[simp] theorem setEnd_maxm : (setEnd b s).maxm = s.maxm := rfl
@[simp] theorem setEnd_inLen : (setEnd b s).inLen = s.inLen := rfl
@[simp] theorem setEnd_pos : (setEnd b s).pos = s.pos := rfl
@[simp] theorem setEnd_bitpos : (setEnd b s).bitpos = s.bitpos := rfl
@[simp] theorem setEnd_pbits : (setEnd b s).pbits = s.pbits := rfl
@[simp] theorem setEnd_mDist : (setEnd b s).mDist = s.mDist := rfl
@[simp] theorem setEnd_mLen : (setEnd b s).mLen = s.mLen := rfl
@[simp] theorem setEnd_tKind : (setEnd b s).tKind = s.tKind := rfl
@[simp] theorem setEnd_tByte : (setEnd b s).tByte = s.tByte := rfl
@[simp] theorem setEnd_tDist : (setEnd b s).tDist = s.tDist := rfl
@[simp] theorem setEnd_tLen : (setEnd b s).tLen = s.tLen := rfl
@[simp] theorem setEnd_nnodes : (setEnd b s).nnodes = s.nnodes := rfl
@[simp] theorem setEnd_root : (setEnd b s).root = s.root := rfl
@[simp] theorem setEnd_ibufCap : (setEnd b s).ibufCap = s.ibufCap := rfl
@[simp] theorem setEnd_obufCap : (setEnd b s).obufCap = s.obufCap := rfl
@[simp] theorem setEnd_freq : (setEnd b s).freq = s.freq := rfl
@[simp] theorem setEnd_cbl : (setEnd b s).cbl = s.cbl := rfl
@[simp] theorem setEnd_cbc : (setEnd b s).cbc = s.cbc := rfl
@[simp] theorem setEnd_nodes : (setEnd b s).nodes = s.nodes := rfl
@[simp] theorem setEnd_ibuf : (setEnd b s).ibuf = s.ibuf := rfl
@[simp] theorem setEnd_ostr : (setEnd b s).ostr = s.ostr := rfl
@[simp] theorem setEnd_epoch : (setEnd b s).epoch = s.epoch := rfl
@[simp] theorem setEnd_hostq : (setEnd b s).hostq = s.hostq := rfl
@[simp] theorem setEnd_rdata : (setEnd b s).rdata = s.rdata := rfl

end

section

variable (r : Option (Nat × Nat)) (s : State)

@[simp] theorem setMatch_err : (setMatch r s).err = s.err := rfl
@[simp] theorem setMatch_endFlag : (setMatch r s).endFlag = s.endFlag := rfl
@[simp] theorem setMatch_mvalid : (setMatch r s).mvalid = r.isSome := rfl
@[simp] theorem setMatch_tvalid : (setMatch r s).tvalid = s.tvalid := rfl
@[simp] theorem setMatch_errCode : (setMatch r s).errCode = s.errCode := rfl
@[simp] theorem setMatch_errInfo : (setMatch r s).errInfo = s.errInfo := rfl
@[simp] theorem setMatch_wsize : (setMatch r s).wsize = s.wsize := rfl
@[simp] theorem setMatch_minm : (setMatch r s).minm = s.minm := rfl
@[simp] theorem setMatch_maxm : (setMatch r s).maxm = s.maxm := rfl
@[simp] theorem setMatch_inLen : (setMatch r s).inLen = s.inLen := rfl
@[simp] theorem setMatch_pos : (setMatch r s).pos = s.pos := rfl
@[simp] theorem setMatch_bitpos : (setMatch r s).bitpos = s.bitpos := rfl
@[simp] theorem setMatch_pbits : (setMatch r s).pbits = s.pbits := rfl
@[simp] theorem setMatch_mDist : (setMatch r s).mDist = BitVec.ofNat 32 (r.elim 0 (·.1)) := rfl
@[simp] theorem setMatch_mLen : (setMatch r s).mLen = BitVec.ofNat 32 (r.elim 0 (·.2)) := rfl
@[simp] theorem setMatch_tKind : (setMatch r s).tKind = s.tKind := rfl
@[simp] theorem setMatch_tByte : (setMatch r s).tByte = s.tByte := rfl
@[simp] theorem setMatch_tDist : (setMatch r s).tDist = s.tDist := rfl
@[simp] theorem setMatch_tLen : (setMatch r s).tLen = s.tLen := rfl
@[simp] theorem setMatch_nnodes : (setMatch r s).nnodes = s.nnodes := rfl
@[simp] theorem setMatch_root : (setMatch r s).root = s.root := rfl
@[simp] theorem setMatch_ibufCap : (setMatch r s).ibufCap = s.ibufCap := rfl
@[simp] theorem setMatch_obufCap : (setMatch r s).obufCap = s.obufCap := rfl
@[simp] theorem setMatch_freq : (setMatch r s).freq = s.freq := rfl
@[simp] theorem setMatch_cbl : (setMatch r s).cbl = s.cbl := rfl
@[simp] theorem setMatch_cbc : (setMatch r s).cbc = s.cbc := rfl
@[simp] theorem setMatch_nodes : (setMatch r s).nodes = s.nodes := rfl
@[simp] theorem setMatch_ibuf : (setMatch r s).ibuf = s.ibuf := rfl
@[simp] theorem setMatch_ostr : (setMatch r s).ostr = s.ostr := rfl
@[simp] theorem setMatch_epoch : (setMatch r s).epoch = s.epoch := rfl
@[simp] theorem setMatch_hostq : (setMatch r s).hostq = s.hostq := rfl
@[simp] theorem setMatch_rdata : (setMatch r s).rdata = s.rdata := rfl

end

section

variable (k : UnitKind) (b : Byte) (d l : Nat) (s : State)

@[simp] theorem setToken_err : (setToken k b d l s).err = s.err := rfl
@[simp] theorem setToken_endFlag : (setToken k b d l s).endFlag = s.endFlag := rfl
@[simp] theorem setToken_mvalid : (setToken k b d l s).mvalid = s.mvalid := rfl
@[simp] theorem setToken_tvalid : (setToken k b d l s).tvalid = s.tvalid := rfl
@[simp] theorem setToken_errCode : (setToken k b d l s).errCode = s.errCode := rfl
@[simp] theorem setToken_errInfo : (setToken k b d l s).errInfo = s.errInfo := rfl
@[simp] theorem setToken_wsize : (setToken k b d l s).wsize = s.wsize := rfl
@[simp] theorem setToken_minm : (setToken k b d l s).minm = s.minm := rfl
@[simp] theorem setToken_maxm : (setToken k b d l s).maxm = s.maxm := rfl
@[simp] theorem setToken_inLen : (setToken k b d l s).inLen = s.inLen := rfl
@[simp] theorem setToken_pos : (setToken k b d l s).pos = s.pos := rfl
@[simp] theorem setToken_bitpos : (setToken k b d l s).bitpos = s.bitpos := rfl
@[simp] theorem setToken_pbits : (setToken k b d l s).pbits = s.pbits := rfl
@[simp] theorem setToken_mDist : (setToken k b d l s).mDist = s.mDist := rfl
@[simp] theorem setToken_mLen : (setToken k b d l s).mLen = s.mLen := rfl
@[simp] theorem setToken_tKind : (setToken k b d l s).tKind = k := rfl
@[simp] theorem setToken_tByte : (setToken k b d l s).tByte = b := rfl
@[simp] theorem setToken_tDist : (setToken k b d l s).tDist = BitVec.ofNat 12 d := rfl
@[simp] theorem setToken_tLen : (setToken k b d l s).tLen = BitVec.ofNat 9 l := rfl
@[simp] theorem setToken_nnodes : (setToken k b d l s).nnodes = s.nnodes := rfl
@[simp] theorem setToken_root : (setToken k b d l s).root = s.root := rfl
@[simp] theorem setToken_ibufCap : (setToken k b d l s).ibufCap = s.ibufCap := rfl
@[simp] theorem setToken_obufCap : (setToken k b d l s).obufCap = s.obufCap := rfl
@[simp] theorem setToken_freq : (setToken k b d l s).freq = s.freq := rfl
@[simp] theorem setToken_cbl : (setToken k b d l s).cbl = s.cbl := rfl
@[simp] theorem setToken_cbc : (setToken k b d l s).cbc = s.cbc := rfl
@[simp] theorem setToken_nodes : (setToken k b d l s).nodes = s.nodes := rfl
@[simp] theorem setToken_ibuf : (setToken k b d l s).ibuf = s.ibuf := rfl
@[simp] theorem setToken_ostr : (setToken k b d l s).ostr = s.ostr := rfl
@[simp] theorem setToken_epoch : (setToken k b d l s).epoch = s.epoch := rfl
@[simp] theorem setToken_hostq : (setToken k b d l s).hostq = s.hostq := rfl
@[simp] theorem setToken_rdata : (setToken k b d l s).rdata = s.rdata := rfl

end

section

variable (t : Table Word) (s : State)

@[simp] theorem setFreq_err : (setFreq t s).err = s.err := rfl
@[simp] theorem setFreq_endFlag : (setFreq t s).endFlag = s.endFlag := rfl
@[simp] theorem setFreq_mvalid : (setFreq t s).mvalid = s.mvalid := rfl
@[simp] theorem setFreq_tvalid : (setFreq t s).tvalid = s.tvalid := rfl
@[simp] theorem setFreq_errCode : (setFreq t s).errCode = s.errCode := rfl
@[simp] theorem setFreq_errInfo : (setFreq t s).errInfo = s.errInfo := rfl
@[simp] theorem setFreq_wsize : (setFreq t s).wsize = s.wsize := rfl
@[simp] theorem setFreq_minm : (setFreq t s).minm = s.minm := rfl
@[simp] theorem setFreq_maxm : (setFreq t s).maxm = s.maxm := rfl
@[simp] theorem setFreq_inLen : (setFreq t s).inLen = s.inLen := rfl
@[simp] theorem setFreq_pos : (setFreq t s).pos = s.pos := rfl
@[simp] theorem setFreq_bitpos : (setFreq t s).bitpos = s.bitpos := rfl
@[simp] theorem setFreq_pbits : (setFreq t s).pbits = s.pbits := rfl
@[simp] theorem setFreq_mDist : (setFreq t s).mDist = s.mDist := rfl
@[simp] theorem setFreq_mLen : (setFreq t s).mLen = s.mLen := rfl
@[simp] theorem setFreq_tKind : (setFreq t s).tKind = s.tKind := rfl
@[simp] theorem setFreq_tByte : (setFreq t s).tByte = s.tByte := rfl
@[simp] theorem setFreq_tDist : (setFreq t s).tDist = s.tDist := rfl
@[simp] theorem setFreq_tLen : (setFreq t s).tLen = s.tLen := rfl
@[simp] theorem setFreq_nnodes : (setFreq t s).nnodes = s.nnodes := rfl
@[simp] theorem setFreq_root : (setFreq t s).root = s.root := rfl
@[simp] theorem setFreq_ibufCap : (setFreq t s).ibufCap = s.ibufCap := rfl
@[simp] theorem setFreq_obufCap : (setFreq t s).obufCap = s.obufCap := rfl
@[simp] theorem setFreq_freq : (setFreq t s).freq = t := rfl
@[simp] theorem setFreq_cbl : (setFreq t s).cbl = s.cbl := rfl
@[simp] theorem setFreq_cbc : (setFreq t s).cbc = s.cbc := rfl
@[simp] theorem setFreq_nodes : (setFreq t s).nodes = s.nodes := rfl
@[simp] theorem setFreq_ibuf : (setFreq t s).ibuf = s.ibuf := rfl
@[simp] theorem setFreq_ostr : (setFreq t s).ostr = s.ostr := rfl
@[simp] theorem setFreq_epoch : (setFreq t s).epoch = s.epoch := rfl
@[simp] theorem setFreq_hostq : (setFreq t s).hostq = s.hostq := rfl
@[simp] theorem setFreq_rdata : (setFreq t s).rdata = s.rdata := rfl

end

section

variable (ns : List Node) (s : State)

@[simp] theorem setTree_err : (setTree ns s).err = s.err := rfl
@[simp] theorem setTree_endFlag : (setTree ns s).endFlag = s.endFlag := rfl
@[simp] theorem setTree_mvalid : (setTree ns s).mvalid = s.mvalid := rfl
@[simp] theorem setTree_tvalid : (setTree ns s).tvalid = true := rfl
@[simp] theorem setTree_errCode : (setTree ns s).errCode = s.errCode := rfl
@[simp] theorem setTree_errInfo : (setTree ns s).errInfo = s.errInfo := rfl
@[simp] theorem setTree_wsize : (setTree ns s).wsize = s.wsize := rfl
@[simp] theorem setTree_minm : (setTree ns s).minm = s.minm := rfl
@[simp] theorem setTree_maxm : (setTree ns s).maxm = s.maxm := rfl
@[simp] theorem setTree_inLen : (setTree ns s).inLen = s.inLen := rfl
@[simp] theorem setTree_pos : (setTree ns s).pos = s.pos := rfl
@[simp] theorem setTree_bitpos : (setTree ns s).bitpos = s.bitpos := rfl
@[simp] theorem setTree_pbits : (setTree ns s).pbits = s.pbits := rfl
@[simp] theorem setTree_mDist : (setTree ns s).mDist = s.mDist := rfl
@[simp] theorem setTree_mLen : (setTree ns s).mLen = s.mLen := rfl
@[simp] theorem setTree_tKind : (setTree ns s).tKind = s.tKind := rfl
@[simp] theorem setTree_tByte : (setTree ns s).tByte = s.tByte := rfl
@[simp] theorem setTree_tDist : (setTree ns s).tDist = s.tDist := rfl
@[simp] theorem setTree_tLen : (setTree ns s).tLen = s.tLen := rfl
@[simp] theorem setTree_nnodes : (setTree ns s).nnodes = BitVec.ofNat 9 ns.length := rfl
@[simp] theorem setTree_root : (setTree ns s).root = BitVec.ofNat 9 (if ns.length = 0 then Config.nil else ns.length - 1) := rfl
@[simp] theorem setTree_ibufCap : (setTree ns s).ibufCap = s.ibufCap := rfl
@[simp] theorem setTree_obufCap : (setTree ns s).obufCap = s.obufCap := rfl
@[simp] theorem setTree_freq : (setTree ns s).freq = s.freq := rfl
@[simp] theorem setTree_cbl : (setTree ns s).cbl = s.cbl := rfl
@[simp] theorem setTree_cbc : (setTree ns s).cbc = s.cbc := rfl
@[simp] theorem setTree_nodes : (setTree ns s).nodes = ns := rfl
@[simp] theorem setTree_ibuf : (setTree ns s).ibuf = s.ibuf := rfl
@[simp] theorem setTree_ostr : (setTree ns s).ostr = s.ostr := rfl
@[simp] theorem setTree_epoch : (setTree ns s).epoch = s.epoch := rfl
@[simp] theorem setTree_hostq : (setTree ns s).hostq = s.hostq := rfl
@[simp] theorem setTree_rdata : (setTree ns s).rdata = s.rdata := rfl

end

section

variable (cs : List (Byte × BitStr)) (s : State)

@[simp] theorem setCodebook_err : (setCodebook cs s).err = s.err := rfl
@[simp] theorem setCodebook_endFlag : (setCodebook cs s).endFlag = s.endFlag := rfl
@[simp] theorem setCodebook_mvalid : (setCodebook cs s).mvalid = s.mvalid := rfl
@[simp] theorem setCodebook_tvalid : (setCodebook cs s).tvalid = s.tvalid := rfl
@[simp] theorem setCodebook_errCode : (setCodebook cs s).errCode = s.errCode := rfl
@[simp] theorem setCodebook_errInfo : (setCodebook cs s).errInfo = s.errInfo := rfl
@[simp] theorem setCodebook_wsize : (setCodebook cs s).wsize = s.wsize := rfl
@[simp] theorem setCodebook_minm : (setCodebook cs s).minm = s.minm := rfl
@[simp] theorem setCodebook_maxm : (setCodebook cs s).maxm = s.maxm := rfl
@[simp] theorem setCodebook_inLen : (setCodebook cs s).inLen = s.inLen := rfl
@[simp] theorem setCodebook_pos : (setCodebook cs s).pos = s.pos := rfl
@[simp] theorem setCodebook_bitpos : (setCodebook cs s).bitpos = s.bitpos := rfl
@[simp] theorem setCodebook_pbits : (setCodebook cs s).pbits = s.pbits := rfl
@[simp] theorem setCodebook_mDist : (setCodebook cs s).mDist = s.mDist := rfl
@[simp] theorem setCodebook_mLen : (setCodebook cs s).mLen = s.mLen := rfl
@[simp] theorem setCodebook_tKind : (setCodebook cs s).tKind = s.tKind := rfl
@[simp] theorem setCodebook_tByte : (setCodebook cs s).tByte = s.tByte := rfl
@[simp] theorem setCodebook_tDist : (setCodebook cs s).tDist = s.tDist := rfl
@[simp] theorem setCodebook_tLen : (setCodebook cs s).tLen = s.tLen := rfl
@[simp] theorem setCodebook_nnodes : (setCodebook cs s).nnodes = s.nnodes := rfl
@[simp] theorem setCodebook_root : (setCodebook cs s).root = s.root := rfl
@[simp] theorem setCodebook_ibufCap : (setCodebook cs s).ibufCap = s.ibufCap := rfl
@[simp] theorem setCodebook_obufCap : (setCodebook cs s).obufCap = s.obufCap := rfl
@[simp] theorem setCodebook_freq : (setCodebook cs s).freq = s.freq := rfl
@[simp] theorem setCodebook_cbl : (setCodebook cs s).cbl = codebookLengths cs := rfl
@[simp] theorem setCodebook_cbc : (setCodebook cs s).cbc = codebookWords cs := rfl
@[simp] theorem setCodebook_nodes : (setCodebook cs s).nodes = s.nodes := rfl
@[simp] theorem setCodebook_ibuf : (setCodebook cs s).ibuf = s.ibuf := rfl
@[simp] theorem setCodebook_ostr : (setCodebook cs s).ostr = s.ostr := rfl
@[simp] theorem setCodebook_epoch : (setCodebook cs s).epoch = s.epoch := rfl
@[simp] theorem setCodebook_hostq : (setCodebook cs s).hostq = s.hostq := rfl
@[simp] theorem setCodebook_rdata : (setCodebook cs s).rdata = s.rdata := rfl

end

section

variable (s : State)

@[simp] theorem discardTree_err : (discardTree s).err = s.err := rfl
@[simp] theorem discardTree_endFlag : (discardTree s).endFlag = s.endFlag := rfl
@[simp] theorem discardTree_mvalid : (discardTree s).mvalid = s.mvalid := rfl
@[simp] theorem discardTree_tvalid : (discardTree s).tvalid = false := rfl
@[simp] theorem discardTree_errCode : (discardTree s).errCode = s.errCode := rfl
@[simp] theorem discardTree_errInfo : (discardTree s).errInfo = s.errInfo := rfl
@[simp] theorem discardTree_wsize : (discardTree s).wsize = s.wsize := rfl
@[simp] theorem discardTree_minm : (discardTree s).minm = s.minm := rfl
@[simp] theorem discardTree_maxm : (discardTree s).maxm = s.maxm := rfl
@[simp] theorem discardTree_inLen : (discardTree s).inLen = s.inLen := rfl
@[simp] theorem discardTree_pos : (discardTree s).pos = s.pos := rfl
@[simp] theorem discardTree_bitpos : (discardTree s).bitpos = s.bitpos := rfl
@[simp] theorem discardTree_pbits : (discardTree s).pbits = s.pbits := rfl
@[simp] theorem discardTree_mDist : (discardTree s).mDist = s.mDist := rfl
@[simp] theorem discardTree_mLen : (discardTree s).mLen = s.mLen := rfl
@[simp] theorem discardTree_tKind : (discardTree s).tKind = s.tKind := rfl
@[simp] theorem discardTree_tByte : (discardTree s).tByte = s.tByte := rfl
@[simp] theorem discardTree_tDist : (discardTree s).tDist = s.tDist := rfl
@[simp] theorem discardTree_tLen : (discardTree s).tLen = s.tLen := rfl
@[simp] theorem discardTree_nnodes : (discardTree s).nnodes = 0 := rfl
@[simp] theorem discardTree_root : (discardTree s).root = BitVec.ofNat 9 Config.nil := rfl
@[simp] theorem discardTree_ibufCap : (discardTree s).ibufCap = s.ibufCap := rfl
@[simp] theorem discardTree_obufCap : (discardTree s).obufCap = s.obufCap := rfl
@[simp] theorem discardTree_freq : (discardTree s).freq = s.freq := rfl
@[simp] theorem discardTree_cbl : (discardTree s).cbl = s.cbl := rfl
@[simp] theorem discardTree_cbc : (discardTree s).cbc = s.cbc := rfl
@[simp] theorem discardTree_nodes : (discardTree s).nodes = [] := rfl
@[simp] theorem discardTree_ibuf : (discardTree s).ibuf = s.ibuf := rfl
@[simp] theorem discardTree_ostr : (discardTree s).ostr = s.ostr := rfl
@[simp] theorem discardTree_epoch : (discardTree s).epoch = s.epoch := rfl
@[simp] theorem discardTree_hostq : (discardTree s).hostq = s.hostq := rfl
@[simp] theorem discardTree_rdata : (discardTree s).rdata = s.rdata := rfl

end

section

variable (s : State)

@[simp] theorem moveOutput_err : (moveOutput s).err = s.err := rfl
@[simp] theorem moveOutput_endFlag : (moveOutput s).endFlag = false := rfl
@[simp] theorem moveOutput_mvalid : (moveOutput s).mvalid = s.mvalid := rfl
@[simp] theorem moveOutput_tvalid : (moveOutput s).tvalid = s.tvalid := rfl
@[simp] theorem moveOutput_errCode : (moveOutput s).errCode = s.errCode := rfl
@[simp] theorem moveOutput_errInfo : (moveOutput s).errInfo = s.errInfo := rfl
@[simp] theorem moveOutput_wsize : (moveOutput s).wsize = s.wsize := rfl
@[simp] theorem moveOutput_minm : (moveOutput s).minm = s.minm := rfl
@[simp] theorem moveOutput_maxm : (moveOutput s).maxm = s.maxm := rfl
@[simp] theorem moveOutput_inLen : (moveOutput s).inLen = BitVec.ofNat 32 s.olen := rfl
@[simp] theorem moveOutput_pos : (moveOutput s).pos = 0 := rfl
@[simp] theorem moveOutput_bitpos : (moveOutput s).bitpos = 0 := rfl
@[simp] theorem moveOutput_pbits : (moveOutput s).pbits = s.pbits := rfl
@[simp] theorem moveOutput_mDist : (moveOutput s).mDist = s.mDist := rfl
@[simp] theorem moveOutput_mLen : (moveOutput s).mLen = s.mLen := rfl
@[simp] theorem moveOutput_tKind : (moveOutput s).tKind = s.tKind := rfl
@[simp] theorem moveOutput_tByte : (moveOutput s).tByte = s.tByte := rfl
@[simp] theorem moveOutput_tDist : (moveOutput s).tDist = s.tDist := rfl
@[simp] theorem moveOutput_tLen : (moveOutput s).tLen = s.tLen := rfl
@[simp] theorem moveOutput_nnodes : (moveOutput s).nnodes = s.nnodes := rfl
@[simp] theorem moveOutput_root : (moveOutput s).root = s.root := rfl
@[simp] theorem moveOutput_ibufCap : (moveOutput s).ibufCap = s.ibufCap := rfl
@[simp] theorem moveOutput_obufCap : (moveOutput s).obufCap = s.obufCap := rfl
@[simp] theorem moveOutput_freq : (moveOutput s).freq = s.freq := rfl
@[simp] theorem moveOutput_cbl : (moveOutput s).cbl = s.cbl := rfl
@[simp] theorem moveOutput_cbc : (moveOutput s).cbc = s.cbc := rfl
@[simp] theorem moveOutput_nodes : (moveOutput s).nodes = s.nodes := rfl
@[simp] theorem moveOutput_ibuf : (moveOutput s).ibuf = Memory.writeList s.ibuf 0 (outBytes s) := rfl
@[simp] theorem moveOutput_ostr : (moveOutput s).ostr = [] := rfl
@[simp] theorem moveOutput_epoch : (moveOutput s).epoch = s.epoch := rfl
@[simp] theorem moveOutput_hostq : (moveOutput s).hostq = s.hostq := rfl
@[simp] theorem moveOutput_rdata : (moveOutput s).rdata = s.rdata := rfl

end

section

variable (v : Word) (s : State)

@[simp] theorem deliver_err : (deliver v s).err = s.err := rfl
@[simp] theorem deliver_endFlag : (deliver v s).endFlag = s.endFlag := rfl
@[simp] theorem deliver_mvalid : (deliver v s).mvalid = s.mvalid := rfl
@[simp] theorem deliver_tvalid : (deliver v s).tvalid = s.tvalid := rfl
@[simp] theorem deliver_errCode : (deliver v s).errCode = s.errCode := rfl
@[simp] theorem deliver_errInfo : (deliver v s).errInfo = s.errInfo := rfl
@[simp] theorem deliver_wsize : (deliver v s).wsize = s.wsize := rfl
@[simp] theorem deliver_minm : (deliver v s).minm = s.minm := rfl
@[simp] theorem deliver_maxm : (deliver v s).maxm = s.maxm := rfl
@[simp] theorem deliver_inLen : (deliver v s).inLen = s.inLen := rfl
@[simp] theorem deliver_pos : (deliver v s).pos = s.pos := rfl
@[simp] theorem deliver_bitpos : (deliver v s).bitpos = s.bitpos := rfl
@[simp] theorem deliver_pbits : (deliver v s).pbits = s.pbits := rfl
@[simp] theorem deliver_mDist : (deliver v s).mDist = s.mDist := rfl
@[simp] theorem deliver_mLen : (deliver v s).mLen = s.mLen := rfl
@[simp] theorem deliver_tKind : (deliver v s).tKind = s.tKind := rfl
@[simp] theorem deliver_tByte : (deliver v s).tByte = s.tByte := rfl
@[simp] theorem deliver_tDist : (deliver v s).tDist = s.tDist := rfl
@[simp] theorem deliver_tLen : (deliver v s).tLen = s.tLen := rfl
@[simp] theorem deliver_nnodes : (deliver v s).nnodes = s.nnodes := rfl
@[simp] theorem deliver_root : (deliver v s).root = s.root := rfl
@[simp] theorem deliver_ibufCap : (deliver v s).ibufCap = s.ibufCap := rfl
@[simp] theorem deliver_obufCap : (deliver v s).obufCap = s.obufCap := rfl
@[simp] theorem deliver_freq : (deliver v s).freq = s.freq := rfl
@[simp] theorem deliver_cbl : (deliver v s).cbl = s.cbl := rfl
@[simp] theorem deliver_cbc : (deliver v s).cbc = s.cbc := rfl
@[simp] theorem deliver_nodes : (deliver v s).nodes = s.nodes := rfl
@[simp] theorem deliver_ibuf : (deliver v s).ibuf = s.ibuf := rfl
@[simp] theorem deliver_ostr : (deliver v s).ostr = s.ostr := rfl
@[simp] theorem deliver_epoch : (deliver v s).epoch = s.epoch := rfl
@[simp] theorem deliver_hostq : (deliver v s).hostq = s.hostq := rfl
@[simp] theorem deliver_rdata : (deliver v s).rdata = some v := rfl

end

@[simp] theorem setTerminal_eq (s : State) : setTerminal s = setEnd true (setToken .none 0 0 0 s) := rfl

end Sys2Proof.Machine
end

