-- ==== Sys2Proof/Laws/Ops.lean ====
section
/-! SUPPORT. One lemma per shared operation that says everything it can do: appends, checks, raising, the loop of the
pipeline commands, output and input bytes. -/

namespace Sys2Proof.Machine

/-! ### Append, checks, raising -/

theorem fits_iff (s : State) (n : Nat) : s.fits n = true ↔ s.obits + n ≤ s.obufBits := by simp [State.fits]

@[simp] theorem obits_outAppend (c : BitStr) (s : State) : (outAppend c s).obits = s.obits + c.length := by
  simp [State.obits]

@[simp] theorem obits_emptyOut (s : State) : (emptyOut s).obits = 0 := by simp [State.obits]

/-- `putUnit` appends the whole unit, which fitted, or raises `OBUF_FULL` (R90). -/
theorem putUnit_cases (c : BitStr) (s : State) :
    (s.obits + c.length ≤ s.obufBits ∧ putUnit c s = .ok (outAppend c s)) ∨
      (s.obufBits < s.obits + c.length ∧ putUnit c s = .error (raiseAt .obufFull s.obits)) := by
  unfold putUnit
  by_cases h : s.fits c.length
  · exact .inl ⟨(fits_iff _ _).mp h, by rw [if_pos h]⟩
  · refine .inr ⟨?_, by rw [if_neg h]⟩
    rw [fits_iff] at h
    omega

theorem putUnit_ok {c : BitStr} {s : State} (h : s.obits + c.length ≤ s.obufBits) :
    putUnit c s = .ok (outAppend c s) := by
  rcases putUnit_cases c s with ⟨-, e⟩ | ⟨h', -⟩
  · exact e
  · omega

theorem putUnit_full {c : BitStr} {s : State} (h : s.obufBits < s.obits + c.length) :
    putUnit c s = .error (raiseAt .obufFull s.obits) := by
  rcases putUnit_cases c s with ⟨h', -⟩ | ⟨-, e⟩
  · omega
  · exact e

/-- If `putUnit` succeeds, the unit fitted and was appended. -/
theorem putUnit_eq_ok {c : BitStr} {s t : State} (h : putUnit c s = .ok t) :
    s.obits + c.length ≤ s.obufBits ∧ t = outAppend c s := by
  rcases putUnit_cases c s with ⟨h', e⟩ | ⟨-, e⟩
  · rw [e] at h; exact ⟨h', (Except.ok.inj h).symm⟩
  · rw [e] at h; cases h

@[simp] theorem checkCfg_true {α : Type} {s : State} (k : Except Raise α) (h : cfgOK s = true) : checkCfg s k = k := by
  simp [checkCfg, h]

@[simp] theorem checkCfg_false {α : Type} {s : State} (k : Except Raise α) (h : cfgOK s = false) :
    checkCfg s k = .error (.cfgErr, 0) := by simp [checkCfg, h]

@[simp] theorem checkLen_true {α : Type} {s : State} (k : Except Raise α) (h : lenOK s = true) : checkLen s k = k := by
  simp [checkLen, h]

@[simp] theorem checkLen_false {α : Type} {s : State} (k : Except Raise α) (h : lenOK s = false) :
    checkLen s k = .error (.badLen, s.inLen) := by simp [checkLen, h]

@[simp] theorem settle_ok (s t : State) : settle s (.ok t) = t := rfl
@[simp] theorem settle_error (s : State) (r : Raise) : settle s (.error r) = raise r s := rfl
@[simp] theorem finish_none (f : State → State) (t : State) : finish f (t, none) = f t := rfl
@[simp] theorem finish_some (f : State → State) (t : State) (r : Raise) : finish f (t, some r) = raise r t := rfl
@[simp] theorem map_ok {α β : Type} (f : α → β) (a : α) : (Except.ok a : Except Raise α).map f = .ok (f a) := rfl
@[simp] theorem map_error {α β : Type} (f : α → β) (r : Raise) : (Except.error r : Except Raise α).map f = .error r := rfl

/-- A mapped unit succeeds only when the unit did. -/
theorem map_eq_ok {α β : Type} {f : α → β} {x : Except Raise α} {b : β} (h : x.map f = .ok b) :
    ∃ a, x = .ok a ∧ b = f a := by
  cases x with
  | ok a => exact ⟨a, rfl, (Except.ok.inj h).symm⟩
  | error r => cases h

theorem cfgOK_iff (s : State) : cfgOK s = true ↔ 1 ≤ s.wsize.toNat ∧ s.wsize.toNat ≤ 4096 ∧ 1 ≤ s.minm.toNat ∧
    s.minm.toNat ≤ s.maxm.toNat ∧ s.maxm.toNat - s.minm.toNat ≤ 15 := by
  simp only [cfgOK, Bool.and_eq_true, decide_eq_true_eq, and_assoc]
  rfl

theorem lenOK_iff (s : State) : lenOK s = true ↔ s.inLen.toNat ≤ s.ibufCap := by simp [lenOK]

/-! ### The loop of the pipeline commands -/

/-- What a loop leaves holds of the state it starts from and is kept by every unit that completes. -/
theorem iterate_keeps {done : State → Bool} {unit : State → Except Raise State} (P : State → Prop)
    (hunit : ∀ s t, P s → done s = false → unit s = .ok t → P t) :
    ∀ (fuel : Nat) (s : State), P s → P (iterate done unit fuel s).1 := by
  intro fuel
  induction fuel with
  | zero => exact fun s h => h
  | succ n ih =>
    intro s h
    unfold iterate
    by_cases hd : done s
    · rw [if_pos hd]; exact h
    · rw [if_neg hd]
      cases hu : unit s with
      | ok t => exact ih t (hunit s t h (by simpa using hd) hu)
      | error r => exact h

/-- A loop that raised stopped at a unit that raises, before its end. -/
theorem iterate_raised {done : State → Bool} {unit : State → Except Raise State} :
    ∀ (fuel : Nat) (s t : State) (r : Raise), iterate done unit fuel s = (t, some r) →
      done t = false ∧ unit t = .error r := by
  intro fuel
  induction fuel with
  | zero => intro s t r h; simp [iterate] at h
  | succ n ih =>
    intro s t r h
    unfold iterate at h
    by_cases hd : done s
    · rw [if_pos hd] at h; simp at h
    · rw [if_neg hd] at h
      cases hu : unit s with
      | ok u => rw [hu] at h; exact ih u t r h
      | error r' =>
        rw [hu] at h
        simp only [Prod.mk.injEq, Option.some.injEq] at h
        obtain ⟨rfl, rfl⟩ := h
        exact ⟨by simpa using hd, hu⟩

/-- A loop with enough fuel (a measure that every unit lowers and that is 0 only at the end) ends because it is done. -/
theorem iterate_done {done : State → Bool} {unit : State → Except Raise State} (μ : State → Nat) (P : State → Prop)
    (hunit : ∀ s t, P s → done s = false → unit s = .ok t → P t ∧ μ t < μ s)
    (hzero : ∀ s, P s → μ s = 0 → done s = true) :
    ∀ (fuel : Nat) (s t : State), P s → μ s ≤ fuel → iterate done unit fuel s = (t, none) → done t = true := by
  intro fuel
  induction fuel with
  | zero =>
    intro s t hP hμ h
    simp only [iterate, Prod.mk.injEq, and_true] at h
    subst h
    exact hzero s hP (by omega)
  | succ n ih =>
    intro s t hP hμ h
    unfold iterate at h
    by_cases hd : done s
    · rw [if_pos hd] at h
      simp only [Prod.mk.injEq, and_true] at h
      exact h ▸ hd
    · rw [if_neg hd] at h
      cases hu : unit s with
      | ok u =>
        rw [hu] at h
        obtain ⟨hPu, hlt⟩ := hunit s u hP (by simpa using hd) hu
        exact ih u t hPu (by omega) h
      | error r => rw [hu] at h; simp at h

/-- A unit that completes moves one round of the loop. -/
theorem iterate_succ {done : State → Bool} {unit : State → Except Raise State} {fuel : Nat} {s t : State}
    (hd : done s = false) (hu : unit s = .ok t) : iterate done unit (fuel + 1) s = iterate done unit fuel t := by
  conv => lhs; unfold iterate
  simp [hd, hu]

theorem iterate_of_done {done : State → Bool} {unit : State → Except Raise State} {fuel : Nat} {s : State}
    (hd : done s = true) : iterate done unit fuel s = (s, none) := by
  cases fuel <;> simp [iterate, hd]

/-- One round of a loop: it is not done and its unit completes. -/
def Round (done : State → Bool) (unit : State → Except Raise State) (a b : State) : Prop := done a = false ∧ unit a = .ok b

/-- A loop goes where its rounds lead. -/
theorem iterate_path {done : State → Bool} {unit : State → Except Raise State} :
    ∀ (fuel : Nat) (s : State), Relation.ReflTransGen (Round done unit) s (iterate done unit fuel s).1 := by
  intro fuel
  induction fuel with
  | zero => exact fun s => .refl
  | succ n ih =>
    intro s
    unfold iterate
    by_cases hd : done s
    · rw [if_pos hd]
    · rw [if_neg hd]
      cases hu : unit s with
      | ok t => exact .head ⟨by simpa using hd, hu⟩ (ih t)
      | error r => exact .refl

/-- A state from which no round leads on. -/
def Stuck (done : State → Bool) (unit : State → Except Raise State) (s : State) : Prop :=
  done s = true ∨ ∃ r, unit s = .error r

/-- Rounds lead to one end only. -/
theorem round_unique {done : State → Bool} {unit : State → Except Raise State} {s t t' : State}
    (h : Relation.ReflTransGen (Round done unit) s t) (ht : Stuck done unit t)
    (h' : Relation.ReflTransGen (Round done unit) s t') (ht' : Stuck done unit t') : t = t' := by
  have nostep : ∀ {a b : State}, Stuck done unit a → ¬ Round done unit a b := by
    rintro a b (hd | ⟨r, hr⟩) ⟨h1, h2⟩
    · rw [hd] at h1; cases h1
    · rw [hr] at h2; cases h2
  induction h using Relation.ReflTransGen.head_induction_on with
  | refl =>
    rcases Relation.ReflTransGen.cases_head h' with e | ⟨c, hc, -⟩
    · exact e
    · exact absurd hc (nostep ht)
  | head hac hcb ih =>
    rcases Relation.ReflTransGen.cases_head h' with e | ⟨c, hc, hct⟩
    · rw [e] at hac; exact absurd hac (nostep ht')
    · have := hac.2.symm.trans hc.2
      simp only [Except.ok.injEq] at this
      rw [this] at ih
      exact ih hct

/-- How a loop with enough fuel ends: done, or at a unit that raises. -/
theorem iterate_end {done : State → Bool} {unit : State → Except Raise State} (μ : State → Nat) (P : State → Prop)
    (hunit : ∀ s t, P s → done s = false → unit s = .ok t → P t ∧ μ t < μ s)
    (hzero : ∀ s, P s → μ s = 0 → done s = true) {fuel : Nat} {s : State} (hP : P s) (hμ : μ s ≤ fuel) :
    ((iterate done unit fuel s).2 = none ∧ done (iterate done unit fuel s).1 = true) ∨
      ∃ r, (iterate done unit fuel s).2 = some r ∧ done (iterate done unit fuel s).1 = false ∧
        unit (iterate done unit fuel s).1 = .error r := by
  cases h : (iterate done unit fuel s).2 with
  | none => exact .inl ⟨rfl, iterate_done μ P hunit hzero fuel s _ hP hμ (by rw [← h])⟩
  | some r => exact .inr ⟨r, rfl, iterate_raised fuel s _ r (by rw [← h])⟩

/-- A loop with enough fuel ends where its rounds lead to a state that is done. -/
theorem iterate_eq_done {done : State → Bool} {unit : State → Except Raise State} (μ : State → Nat) (P : State → Prop)
    (hunit : ∀ s t, P s → done s = false → unit s = .ok t → P t ∧ μ t < μ s)
    (hzero : ∀ s, P s → μ s = 0 → done s = true) {fuel : Nat} {s t : State} (hP : P s) (hμ : μ s ≤ fuel)
    (hpath : Relation.ReflTransGen (Round done unit) s t) (hdone : done t = true) : iterate done unit fuel s = (t, none) := by
  have hp := iterate_path (done := done) (unit := unit) fuel s
  rcases iterate_end μ P hunit hzero hP hμ with ⟨h1, h2⟩ | ⟨r, h1, h2, h3⟩
  · have := round_unique hp (.inl h2) hpath (.inl hdone)
    exact Prod.ext this h1
  · have := round_unique hp (.inr ⟨r, h3⟩) hpath (.inl hdone)
    rw [this, hdone] at h2; cases h2

/-- A loop with enough fuel ends where its rounds lead to a unit that raises. -/
theorem iterate_eq_raised {done : State → Bool} {unit : State → Except Raise State} (μ : State → Nat) (P : State → Prop)
    (hunit : ∀ s t, P s → done s = false → unit s = .ok t → P t ∧ μ t < μ s)
    (hzero : ∀ s, P s → μ s = 0 → done s = true) {fuel : Nat} {s t : State} {r : Raise} (hP : P s) (hμ : μ s ≤ fuel)
    (hpath : Relation.ReflTransGen (Round done unit) s t) (hgo : done t = false) (hr : unit t = .error r) :
    iterate done unit fuel s = (t, some r) := by
  have hp := iterate_path (done := done) (unit := unit) fuel s
  rcases iterate_end μ P hunit hzero hP hμ with ⟨h1, h2⟩ | ⟨r', h1, h2, h3⟩
  · have := round_unique hp (.inl h2) hpath (.inr ⟨r, hr⟩)
    rw [this, hgo] at h2; cases h2
  · have := round_unique hp (.inr ⟨r', h3⟩) hpath (.inr ⟨r, hr⟩)
    rw [this, hr] at h3
    simp only [Except.error.injEq] at h3
    exact Prod.ext this (by rw [h1, h3])

/-! ### Output bytes and input bits -/

/-- Bit `7 - j` of `OUT[k]` is stream bit `8k + j`, 0 past the end of the stream (R57, R86). -/
theorem outByte_getLsbD (s : State) (k j : Nat) (hj : j < 8) :
    (outByte s k).getLsbD (7 - j) = s.ostr.getD (8 * k + j) false := by
  rw [outByte, byteOf_getLsbD _ (by simp) j hj]
  simp [List.getD_eq_getElem?_getD, hj, List.getElem?_drop]

/-- A byte is determined by its bits, most significant first. -/
theorem byte_ext {a b : Byte} (h : ∀ j < 8, a.getLsbD (7 - j) = b.getLsbD (7 - j)) : a = b := by
  apply BitVec.eq_of_getLsbD_eq
  intro i hi
  have := h (7 - i) (by omega)
  rwa [show 7 - (7 - i) = i by omega] at this

@[simp] theorem outBytes_length (s : State) : (outBytes s).length = s.olen := by simp [outBytes]

/-- After `BUF.XFER`'s move the input stream is the output stream, zero past its end (R272, R57). -/
theorem inBit_moveOutput (s : State) (i : Nat) (h : i < 8 * s.olen) :
    inBit (moveOutput s) i = s.ostr.getD i false := by
  have hk : i / 8 < s.olen := by omega
  have hread : ibufAt (moveOutput s) (i / 8) = outByte s (i / 8) := by
    simp [ibufAt, Memory.read?_writeList, hk, outBytes]
  rw [inBit, hread, outByte_getLsbD s _ _ (Nat.mod_lt _ (by omega)), Nat.div_add_mod]

/-- Bytes as a stream, most significant bit first (R11). -/
def byteStream (w : List Byte) : BitStr := w.flatMap fun b => bits 8 b.toNat

@[simp] theorem byteStream_nil : byteStream [] = [] := rfl

theorem byteStream_append (w v : List Byte) : byteStream (w ++ v) = byteStream w ++ byteStream v := by
  simp [byteStream]

@[simp] theorem byteStream_singleton (b : Byte) : byteStream [b] = bits 8 b.toNat := by simp [byteStream]

@[simp] theorem byteStream_length (w : List Byte) : (byteStream w).length = 8 * w.length := by
  induction w with
  | nil => rfl
  | cons b w ih =>
    have : byteStream (b :: w) = bits 8 b.toNat ++ byteStream w := by simp [byteStream]
    rw [this]; simp [ih]; omega

/-- An output stream made of whole bytes reads back as those bytes. -/
theorem outByte_byteStream (s : State) (w : List Byte) (h : s.ostr = byteStream w) (k : Nat) (hk : k < w.length) :
    outByte s k = w[k] := by
  have hw : w = w.take k ++ w[k] :: w.drop (k + 1) := by simp
  have : byteStream w = byteStream (w.take k) ++ (bits 8 w[k].toNat ++ byteStream (w.drop (k + 1))) := by
    conv => lhs; rw [hw]
    rw [byteStream_append, byteStream, byteStream, List.flatMap_cons]
    rfl
  have hlen : (byteStream (w.take k)).length = 8 * k := by simp; omega
  rw [outByte, h, this, List.drop_append_of_le_length (by omega), List.drop_of_length_le (by omega), List.nil_append,
    List.take_append_of_le_length (by simp), List.take_of_length_le (by simp), byteOf_bits]

theorem obits_byteStream {s : State} {w : List Byte} (h : s.ostr = byteStream w) : s.obits = 8 * w.length := by
  simp [State.obits, h]

theorem olen_byteStream {s : State} {w : List Byte} (h : s.ostr = byteStream w) : s.olen = w.length := by
  simp [State.olen, obits_byteStream h]

theorem outBytes_byteStream {s : State} {w : List Byte} (h : s.ostr = byteStream w) : outBytes s = w := by
  apply List.ext_getElem (by simp [olen_byteStream h])
  intro k h₁ h₂
  simp only [outBytes, List.getElem_map, List.getElem_range]
  exact outByte_byteStream s w h k h₂

theorem inBits_length (s : State) (i n : Nat) : (inBits s i n).length = n := by simp [inBits]

/-- If the input stream from `i` on spells `w`, then `InBits(i, |w|) = w`. -/
theorem inBits_eq {s : State} {i n : Nat} {w : BitStr} (hn : w.length = n) (h : ∀ j (hj : j < w.length), inBit s (i + j) = w[j]) :
    inBits s i n = w := by
  apply List.ext_getElem (by simp [inBits, hn])
  intro j h₁ h₂
  simp only [inBits, List.getElem_map, List.getElem_range]
  exact h j h₂

/-- An output stream of whole bytes is the stream of the output bytes (R57, R86). -/
theorem ostr_eq_byteStream {s : State} (h : s.obits % 8 = 0) : s.ostr = byteStream (outBytes s) := by
  have hlen : s.ostr.length = (byteStream (outBytes s)).length := by
    rw [byteStream_length, outBytes_length, State.olen, ceil8]
    simp only [State.obits] at h ⊢
    omega
  apply List.ext_getElem hlen
  intro i h₁ h₂
  have hk : i / 8 < s.olen := by
    rw [byteStream_length, outBytes_length] at h₂; omega
  have h3 : outByte { s with ostr := byteStream (outBytes s) } (i / 8) = (outBytes s)[i / 8]'(by simpa using hk) :=
    outByte_byteStream _ _ rfl _ _
  have h4 : (outBytes s)[i / 8]'(by simpa using hk) = outByte s (i / 8) := by simp [outBytes]
  have h5 := outByte_getLsbD s (i / 8) (i % 8) (Nat.mod_lt _ (by omega))
  have h6 := outByte_getLsbD { s with ostr := byteStream (outBytes s) } (i / 8) (i % 8) (Nat.mod_lt _ (by omega))
  rw [h3, h4, h5, Nat.div_add_mod] at h6
  simp only [List.getD_eq_getElem?_getD, List.getElem?_eq_getElem h₁, List.getElem?_eq_getElem h₂, Option.getD_some] at h6
  exact h6

end Sys2Proof.Machine
end

