-- ==== Sys2Proof/Laws/Tree.lean ====
section
/-! SUPPORT. The tree builder: the priority order (R213), the leaves (R212), the merge loop (R214) and the shape of what it
builds (R218). -/

namespace Sys2Proof.Machine

/-! ### The priority order -/

theorem before_iff (ns : List Node) (a b : Nat) : before ns a b = true ↔
    nfreqOf ns a < nfreqOf ns b ∨ (nfreqOf ns a = nfreqOf ns b ∧ a < b) := by simp [before]

theorem before_trans {ns : List Node} {a b c : Nat} (h₁ : before ns a b = true) (h₂ : before ns b c = true) :
    before ns a c = true := by
  rw [before_iff] at *; omega

theorem before_total {ns : List Node} {a b : Nat} (h : a ≠ b) : before ns a b = true ∨ before ns b a = true := by
  rw [before_iff, before_iff]; omega

theorem before_irrefl (ns : List Node) (a : Nat) : before ns a a = false := by simp [before]

theorem lowest_fold (ns : List Node) (q : List Nat) (a : Nat) :
    let r := q.foldl (fun x y => if before ns y x then y else x) a
    (r = a ∨ r ∈ q) ∧ (r ≠ a → before ns r a = true) ∧ ∀ n ∈ q, n ≠ r → before ns r n = true := by
  induction q generalizing a with
  | nil => simp
  | cons b q ih =>
    simp only [List.foldl_cons]
    by_cases h : before ns b a = true
    · rw [if_pos h]
      obtain ⟨h1, h2, h3⟩ := ih b
      refine ⟨?_, fun _ => ?_, fun n hn hne => ?_⟩
      · rcases h1 with h1 | h1
        · exact .inr (by rw [h1]; simp)
        · exact .inr (by simp [h1])
      · by_cases hb : q.foldl (fun x y => if before ns y x then y else x) b = b
        · rw [hb]; exact h
        · exact before_trans (h2 hb) h
      · rcases List.mem_cons.mp hn with rfl | hn
        · exact h2 (Ne.symm hne)
        · exact h3 n hn hne
    · rw [if_neg h]
      obtain ⟨h1, h2, h3⟩ := ih a
      refine ⟨?_, h2, fun n hn hne => ?_⟩
      · rcases h1 with h1 | h1
        · exact .inl h1
        · exact .inr (by simp [h1])
      · rcases List.mem_cons.mp hn with rfl | hn
        · by_cases hna : n = a
          · subst hna; exact h2 (Ne.symm hne)
          · have hab : before ns a n = true := by
              rcases before_total hna with h' | h'
              · exact absurd h' h
              · exact h'
            by_cases hra : q.foldl (fun x y => if before ns y x then y else x) a = a
            · rw [hra]; exact hab
            · exact before_trans (h2 hra) hab
        · exact h3 n hn hne

/-- `takeLowest` removes the one member that comes before all others (R213). -/
theorem takeLowest_some {ns : List Node} {q q' : List Nat} {a : Nat} (h : takeLowest ns q = some (a, q')) :
    a ∈ q ∧ q' = q.erase a ∧ ∀ n ∈ q, n ≠ a → before ns a n = true := by
  unfold takeLowest lowest at h
  cases q with
  | nil => simp at h
  | cons b q =>
    simp only [Option.map_some, Option.some.injEq, Prod.mk.injEq] at h
    obtain ⟨ha, hq⟩ := h
    obtain ⟨h1, h2, h3⟩ := lowest_fold ns q b
    simp only [ha] at h1 h2 h3 hq
    refine ⟨?_, hq.symm, fun n hn hne => ?_⟩
    · rcases h1 with h1 | h1
      · rw [h1]; simp
      · simp [h1]
    · rcases List.mem_cons.mp hn with rfl | hn
      · exact h2 (Ne.symm hne)
      · exact h3 n hn hne

theorem takeLowest_none {ns : List Node} {q : List Nat} (h : takeLowest ns q = none) : q = [] := by
  cases q with
  | nil => rfl
  | cons b q => simp [takeLowest, lowest] at h

/-! ### Trees -/

/-- The tree below a node. -/
inductive HTree where
  | leaf (x : Byte) (f : Freq40)
  | node (l r : HTree)

/-- The leaves, left to right. -/
def HTree.leavesOf : HTree → List (Byte × Freq40)
  | .leaf x f => [(x, f)]
  | .node l r => l.leavesOf ++ r.leavesOf

/-- The sum of the leaves' frequencies. -/
def HTree.weight (t : HTree) : Nat := (t.leavesOf.map fun e => e.2.toNat).sum

def HTree.depth : HTree → Nat
  | .leaf _ _ => 0
  | .node l r => max l.depth r.depth + 1

/-- The leaves' symbols with their paths, `c` being the path of the tree itself (R231). -/
def HTree.pathsOf : HTree → BitStr → List (Byte × BitStr)
  | .leaf x _, c => [(x, c)]
  | .node l r, c => l.pathsOf (c ++ [false]) ++ r.pathsOf (c ++ [true])

theorem HTree.leavesOf_length_pos (t : HTree) : 0 < t.leavesOf.length := by
  induction t with
  | leaf => simp [leavesOf]
  | node l r ihl ihr => simp [leavesOf]; omega

/-- A tree of `k` leaves is at most `k - 1` deep (R218). -/
theorem HTree.depth_lt (t : HTree) : t.depth < t.leavesOf.length := by
  induction t with
  | leaf => simp [depth, leavesOf]
  | node l r ihl ihr =>
    have := l.leavesOf_length_pos
    have := r.leavesOf_length_pos
    simp only [depth, leavesOf, List.length_append]
    omega

theorem HTree.pathsOf_symbols (t : HTree) (c : BitStr) : (t.pathsOf c).map (·.1) = t.leavesOf.map (·.1) := by
  induction t generalizing c with
  | leaf => rfl
  | node l r ihl ihr => simp [pathsOf, leavesOf, ihl, ihr]

/-- Every path below a tree extends the path of the tree, by at most its depth. -/
theorem HTree.pathsOf_prefix (t : HTree) (c : BitStr) :
    ∀ e ∈ t.pathsOf c, c <+: e.2 ∧ e.2.length ≤ c.length + t.depth := by
  induction t generalizing c with
  | leaf => simp [pathsOf, depth]
  | node l r ihl ihr =>
    intro e he
    simp only [pathsOf, List.mem_append] at he
    rcases he with he | he
    · obtain ⟨h1, h2⟩ := ihl _ e he
      refine ⟨(List.prefix_append c [false]).trans h1, ?_⟩
      simp only [depth, List.length_append, List.length_singleton] at *; omega
    · obtain ⟨h1, h2⟩ := ihr _ e he
      refine ⟨(List.prefix_append c [true]).trans h1, ?_⟩
      simp only [depth, List.length_append, List.length_singleton] at *; omega

/-- Node `n` of a list of nodes is the root of a tree whose children have smaller numbers. -/
inductive Rep (ns : List Node) : Nat → HTree → Prop where
  | leaf {n : Nat} {x : Byte} {f : Freq40} (h : ns[n]? = some (.leaf x f)) : Rep ns n (.leaf x f)
  | node {n : Nat} {f : Freq40} {l r : NodeNum} {tl tr : HTree} (h : ns[n]? = some (.internal f l r))
      (hl : Rep ns l.toNat tl) (hr : Rep ns r.toNat tr) : Rep ns n (.node tl tr)

theorem Rep.append {ns : List Node} {n : Nat} {t : HTree} (h : Rep ns n t) (ms : List Node) : Rep (ns ++ ms) n t := by
  induction h with
  | leaf h => exact .leaf (by rw [List.getElem?_append_left (List.getElem?_eq_some_iff.mp h).1]; exact h)
  | node h _ _ ihl ihr =>
    exact .node (by rw [List.getElem?_append_left (List.getElem?_eq_some_iff.mp h).1]; exact h) ihl ihr

/-- The traversal of `HF.DERIVE` gives the paths of the tree, if its fuel exceeds the depth. -/
theorem Rep.paths_eq {ns : List Node} {n : Nat} {t : HTree} (h : Rep ns n t) :
    ∀ (fuel : Nat) (c : BitStr), t.depth < fuel → paths fuel ns n c = t.pathsOf c := by
  induction h with
  | leaf h =>
    intro fuel c hf
    obtain ⟨f, rfl⟩ : ∃ f, fuel = f + 1 := ⟨fuel - 1, by omega⟩
    rw [paths, h, HTree.pathsOf]
  | node h _ _ ihl ihr =>
    intro fuel c hf
    obtain ⟨f, rfl⟩ : ∃ f, fuel = f + 1 := ⟨fuel - 1, by omega⟩
    simp only [HTree.depth] at hf
    rw [paths, h]
    simp only [HTree.pathsOf, ihl f _ (by omega), ihr f _ (by omega)]

/-! ### The merge loop -/

theorem nfreqOf_append {ns ms : List Node} {n : Nat} (h : n < ns.length) : nfreqOf (ns ++ ms) n = nfreqOf ns n := by
  simp [nfreqOf, List.getD_eq_getElem?_getD, List.getElem?_append_left h]

theorem inQueue_append {ns ms : List Node} {k n : Nat} (h : k ≤ ns.length) :
    InQueue (ns ++ ms) k n ↔ InQueue ns k n := by
  unfold InQueue
  refine and_congr_right fun _ => forall_congr' fun j => forall_congr' fun hj => ?_
  rw [List.getElem?_append_left (by omega)]

theorem comesBefore_append {ns ms : List Node} {a b : Nat} (ha : a < ns.length) (hb : b < ns.length) :
    ComesBefore (ns ++ ms) a b ↔ ComesBefore ns a b := by
  simp [ComesBefore, nfreqOf_append ha, nfreqOf_append hb]

/-- What node `k` merges is said by the nodes up to `k`. -/
theorem IsMerge.append {ns ms : List Node} {k : Nat} (h : IsMerge ns k) (hk : k < ns.length) : IsMerge (ns ++ ms) k := by
  obtain ⟨a, b, f, h1, hf, h2, h3, h4, h5, h6⟩ := h
  have ha := h2.1
  have hb := h3.1
  refine ⟨a, b, f, ?_, ?_, ?_, ?_, h4, ?_, ?_⟩
  · rw [List.getElem?_append_left hk, h1]
  · rw [nfreqOf_append (by omega), nfreqOf_append (by omega), hf]
  · exact (inQueue_append (by omega)).mpr h2
  · exact (inQueue_append (by omega)).mpr h3
  · intro n hn hna
    have hn' := (inQueue_append (by omega)).mp hn
    rw [comesBefore_append (by omega) (by have := hn'.1; omega)]
    exact h5 n hn' hna
  · intro n hn hna hnb
    have hn' := (inQueue_append (by omega)).mp hn
    rw [comesBefore_append (by omega) (by have := hn'.1; omega)]
    exact h6 n hn' hna hnb

/-- What holds of the nodes `ns` and the queue `q` while `m` leaves are merged (R212, R214, R218). -/
structure Merging (m : Nat) (base : List Node) (ls : List (Byte × Freq40)) (ns : List Node) (q : List Nat) : Prop where
  few : m ≤ 256
  baseLen : base.length = m
  extendsBase : ∃ ms, ns = base ++ ms
  nodup : q.Nodup
  queue : ∀ n, n ∈ q ↔ InQueue ns ns.length n
  count : ns.length + q.length = 2 * m
  merged : ∀ k, m ≤ k → k < ns.length → IsMerge ns k
  lower : ∀ (n : Nat) (f : Freq40) (l r : NodeNum), ns[n]? = some (Node.internal f l r) → l.toNat < n ∧ r.toNat < n
  trees : ∃ g : Nat → HTree, (∀ n ∈ q, Rep ns n (g n) ∧ nfreqOf ns n = (g n).weight) ∧
    (q.flatMap fun n => (g n).leavesOf).Perm ls

theorem erase_perm {q : List Nat} {a b : Nat} (ha : a ∈ q) (hb : b ∈ q.erase a) : q.Perm (a :: b :: (q.erase a).erase b) :=
  (List.perm_cons_erase ha).trans ((List.perm_cons_erase hb).cons a)

theorem weight_perm {l l' : List (Byte × Freq40)} (h : l.Perm l') :
    (l.map fun e => e.2.toNat).sum = (l'.map fun e => e.2.toNat).sum := (h.map _).sum_eq

/-- One merge (R214). -/
theorem Merging.step {m : Nat} {base : List Node} {ls : List (Byte × Freq40)} {ns : List Node} {q : List Nat}
    (h : Merging m base ls ns q) (hls : (ls.map fun e => e.2.toNat).sum < 2 ^ 40) {a b : Nat} {q₁ q₂ : List Nat}
    (ha : takeLowest ns q = some (a, q₁)) (hb : takeLowest ns q₁ = some (b, q₂)) :
    Merging m base ls (ns ++ [mergeNode ns a b]) (q₂ ++ [ns.length]) := by
  obtain ⟨ha1, rfl, ha3⟩ := takeLowest_some ha
  obtain ⟨hb1, rfl, hb3⟩ := takeLowest_some hb
  obtain ⟨hfew, hbase, ⟨ms, hms⟩, hnd, hq, hcount, hmerged, hlower, g, hg, hperm⟩ := h
  have hbq : b ∈ q := List.mem_of_mem_erase hb1
  have hab : b ≠ a := fun e => by rw [e] at hb1; exact (List.Nodup.not_mem_erase hnd) hb1
  have hqlen : 2 ≤ q.length := by
    have h1 := List.length_erase_of_mem ha1
    have h2 := List.length_pos_of_mem hb1
    omega
  have haq := (hq a).mp ha1
  have hbq' := (hq b).mp hbq
  have ha' : a < ns.length := haq.1
  have hb' : b < ns.length := hbq'.1
  have hlen : ns.length < 511 := by omega
  have ha9 : (BitVec.ofNat 9 a).toNat = a := by rw [BitVec.toNat_ofNat]; exact Nat.mod_eq_of_lt (by omega)
  have hb9 : (BitVec.ofNat 9 b).toNat = b := by rw [BitVec.toNat_ofNat]; exact Nat.mod_eq_of_lt (by omega)
  have hnew : (ns ++ [mergeNode ns a b])[ns.length]? = some (mergeNode ns a b) := by simp
  have hmem : ∀ n, n ∈ (q.erase a).erase b ↔ n ∈ q ∧ n ≠ a ∧ n ≠ b := by
    intro n
    rw [List.Nodup.mem_erase_iff (hnd.erase a), List.Nodup.mem_erase_iff hnd]
    tauto
  have hgt : ∀ n ∈ q, n < ns.length := fun n hn => ((hq n).mp hn).1
  have hqp := erase_perm ha1 hb1
  have hw : (g a).weight + (g b).weight < 2 ^ 40 := by
    have h1 := weight_perm ((hqp.flatMap_right fun n => (g n).leavesOf).symm.trans hperm)
    simp only [List.flatMap_cons, List.map_append, List.sum_append] at h1
    unfold HTree.weight
    omega
  have hfreq : nfreqOf (ns ++ [mergeNode ns a b]) ns.length = (g a).weight + (g b).weight := by
    have e : nfreqOf (ns ++ [mergeNode ns a b]) ns.length = (mergeNode ns a b).nfreq.toNat := by
      simp [nfreqOf, List.getD_eq_getElem?_getD]
    rw [e, mergeNode, Node.nfreq, BitVec.toNat_ofNat, (hg a ha1).2, (hg b hbq).2, Nat.mod_eq_of_lt hw]
  refine ⟨hfew, hbase, ⟨ms ++ [mergeNode ns a b], by rw [← List.append_assoc, ← hms]⟩, ?_, ?_, ?_, ?_, ?_, ?_⟩
  · rw [List.nodup_append]
    refine ⟨(hnd.erase a).erase b, by simp, ?_⟩
    intro x hx y hy
    have := hgt x ((hmem x).mp hx).1
    simp at hy; omega
  · intro n
    rw [List.mem_append, hmem, hq n, List.mem_singleton, List.length_append, List.length_singleton]
    constructor
    · rintro (⟨hn, hna, hnb⟩ | rfl)
      · refine ⟨by have := hn.1; omega, fun j hj f l r hnode => ?_⟩
        by_cases hjl : j < ns.length
        · rw [List.getElem?_append_left hjl] at hnode
          exact hn.2 j hjl f l r hnode
        · obtain rfl : j = ns.length := by omega
          rw [hnew, mergeNode] at hnode
          simp only [Option.some.injEq, Node.internal.injEq] at hnode
          obtain ⟨-, rfl, rfl⟩ := hnode
          rw [ha9, hb9]; exact ⟨Ne.symm hna, Ne.symm hnb⟩
      · refine ⟨by omega, fun j hj f l r hnode => ?_⟩
        by_cases hjl : j < ns.length
        · rw [List.getElem?_append_left hjl] at hnode
          have := hlower j f l r hnode
          omega
        · obtain rfl : j = ns.length := by omega
          rw [hnew, mergeNode] at hnode
          simp only [Option.some.injEq, Node.internal.injEq] at hnode
          obtain ⟨-, rfl, rfl⟩ := hnode
          rw [ha9, hb9]; omega
    · rintro ⟨hn1, hn2⟩
      by_cases hnl : n = ns.length
      · exact .inr hnl
      · refine .inl ⟨⟨by omega, fun j hj f l r hnode => ?_⟩, ?_, ?_⟩
        · exact hn2 j (by omega) f l r (by rw [List.getElem?_append_left hj]; exact hnode)
        · rintro rfl
          have := (hn2 ns.length (by omega) _ _ _ hnew).1
          rw [ha9] at this; exact this rfl
        · rintro rfl
          have := (hn2 ns.length (by omega) _ _ _ hnew).2
          rw [hb9] at this; exact this rfl
  · have h1 := List.length_erase_of_mem ha1
    have h2 := List.length_erase_of_mem hb1
    simp only [List.length_append, List.length_singleton]
    omega
  · intro k hk1 hk2
    simp only [List.length_append, List.length_singleton] at hk2
    by_cases hkl : k < ns.length
    · exact (hmerged k hk1 hkl).append hkl
    · obtain rfl : k = ns.length := by omega
      refine ⟨a, b, _, hnew, ?_, (inQueue_append (le_refl _)).mpr haq, (inQueue_append (le_refl _)).mpr hbq',
        Ne.symm hab, ?_, ?_⟩
      · rw [nfreqOf_append ha', nfreqOf_append hb', (hg a ha1).2, (hg b hbq).2, BitVec.toNat_ofNat, Nat.mod_eq_of_lt hw]
      · intro n hn hna
        have hn' := (inQueue_append (le_refl _)).mp hn
        rw [comesBefore_append ha' hn'.1]
        exact (before_iff ..).mp (ha3 n ((hq n).mpr hn') hna)
      · intro n hn hna hnb
        have hn' := (inQueue_append (le_refl _)).mp hn
        rw [comesBefore_append hb' hn'.1]
        exact (before_iff ..).mp (hb3 n ((List.Nodup.mem_erase_iff hnd).mpr ⟨hna, (hq n).mpr hn'⟩) hnb)
  · intro n f l r hnode
    by_cases hnl : n < ns.length
    · rw [List.getElem?_append_left hnl] at hnode
      exact hlower n f l r hnode
    · by_cases hnl' : n = ns.length
      · subst hnl'
        rw [hnew, mergeNode] at hnode
        simp only [Option.some.injEq, Node.internal.injEq] at hnode
        obtain ⟨-, rfl, rfl⟩ := hnode
        rw [ha9, hb9]; exact ⟨ha', hb'⟩
      · rw [List.getElem?_eq_none (by simp; omega)] at hnode
        cases hnode
  · refine ⟨fun n => if n = ns.length then .node (g a) (g b) else g n, fun n hn => ?_, ?_⟩
    · rw [List.mem_append, hmem, List.mem_singleton] at hn
      rcases hn with ⟨hn, -, -⟩ | rfl
      · have := hgt n hn
        simp only [if_neg (show ¬ n = ns.length by omega)]
        exact ⟨(hg n hn).1.append _, by rw [nfreqOf_append this]; exact (hg n hn).2⟩
      · simp only [if_true]
        refine ⟨.node hnew ?_ ?_, ?_⟩
        · rw [ha9]; exact (hg a ha1).1.append _
        · rw [hb9]; exact (hg b hbq).1.append _
        · rw [hfreq]; simp [HTree.weight, HTree.leavesOf]
    · refine List.Perm.trans ?_ ((hqp.flatMap_right fun n => (g n).leavesOf).symm.trans hperm)
      rw [List.flatMap_append]
      have e : ((q.erase a).erase b).flatMap (fun n => (if n = ns.length then HTree.node (g a) (g b) else g n).leavesOf) =
          ((q.erase a).erase b).flatMap fun n => (g n).leavesOf := by
        apply List.flatMap_congr
        intro n hn
        have := hgt n ((hmem n).mp hn).1
        rw [if_neg (by omega)]
      rw [e]
      simp only [List.flatMap_cons, List.flatMap_nil, if_true, HTree.leavesOf, List.append_nil]
      rw [← List.append_assoc (g a).leavesOf]
      exact List.perm_append_comm

/-- The loop ends with one node in the queue, the last one made (R214, R218). -/
theorem mergeLoop_spec {m : Nat} {base : List Node} {ls : List (Byte × Freq40)}
    (hls : (ls.map fun e => e.2.toNat).sum < 2 ^ 40) :
    ∀ (fuel : Nat) (ns : List Node) (q : List Nat), Merging m base ls ns q → q.length = fuel + 1 →
      ∃ q', Merging m base ls (mergeLoop fuel ns q) q' ∧ q'.length = 1 := by
  intro fuel
  induction fuel with
  | zero => intro ns q h hq; exact ⟨q, h, hq⟩
  | succ fuel ih =>
    intro ns q h hq
    rw [mergeLoop]
    cases ha : takeLowest ns q with
    | none => rw [takeLowest_none ha] at hq; simp at hq
    | some p =>
      obtain ⟨a, q₁⟩ := p
      obtain ⟨ha1, ha2, -⟩ := takeLowest_some ha
      have hq1 : q₁.length = fuel + 1 := by
        rw [ha2, List.length_erase_of_mem ha1, hq]; rfl
      simp only
      cases hb : takeLowest ns q₁ with
      | none => rw [takeLowest_none hb] at hq1; simp at hq1
      | some p' =>
        obtain ⟨b, q₂⟩ := p'
        obtain ⟨hb1, hb2, -⟩ := takeLowest_some hb
        have hq2 : q₂.length = fuel := by
          rw [hb2, List.length_erase_of_mem hb1, hq1]; rfl
        exact ih _ _ (h.step hls ha hb) (by simp [hq2])

/-! ### The leaves (R212) -/

/-- The symbols with a non-zero frequency, ascending, each with its frequency. -/
def leafList (freq : Table Word) : List (Byte × Freq40) :=
  freq.toList.zipIdx.filterMap fun e =>
    if e.1.toNat = 0 then none else some (BitVec.ofNat 8 e.2, e.1.setWidth 40)

theorem leaves_eq (freq : Table Word) : leaves freq = (leafList freq).map fun e => Node.leaf e.1 e.2 := by
  unfold leaves leafList
  rw [List.map_filterMap]
  congr 1
  funext e
  split <;> rfl

/-- The entries of a table with their indices. -/
theorem mem_zipIdx_table {α : Type} (t : Table α) (v : α) (k : Nat) :
    (v, k) ∈ t.toList.zipIdx ↔ ∃ x : Byte, k = x.toNat ∧ Table.get t x = v := by
  rw [List.mk_mem_zipIdx_iff_getElem?]
  constructor
  · intro h
    obtain ⟨hk, hv⟩ := List.getElem?_eq_some_iff.mp h
    have hk' : k < 256 := by simpa using hk
    refine ⟨BitVec.ofNat 8 k, by simp [Nat.mod_eq_of_lt hk'], ?_⟩
    simp only [Table.get, BitVec.toNat_ofNat, Nat.mod_eq_of_lt hk']
    simpa using hv
  · rintro ⟨x, rfl, rfl⟩
    have := x.isLt
    rw [List.getElem?_eq_getElem (by simpa using this)]
    simp [Table.get]

theorem mem_leafList (freq : Table Word) (x : Byte) (f : Freq40) :
    (x, f) ∈ leafList freq ↔ Table.get freq x ≠ 0 ∧ f = (Table.get freq x).setWidth 40 := by
  simp only [leafList, List.mem_filterMap]
  constructor
  · rintro ⟨⟨v, k⟩, hmem, he⟩
    obtain ⟨y, rfl, rfl⟩ := (mem_zipIdx_table freq v k).mp hmem
    split at he
    · cases he
    · rename_i hne
      simp only [Option.some.injEq, Prod.mk.injEq] at he
      obtain ⟨hx, rfl⟩ := he
      have hyx : y = x := by rw [← hx]; simp
      subst hyx
      exact ⟨fun h => hne (by rw [h]; rfl), rfl⟩
  · rintro ⟨hne, rfl⟩
    refine ⟨(Table.get freq x, x.toNat), (mem_zipIdx_table freq _ _).mpr ⟨x, rfl, rfl⟩, ?_⟩
    rw [if_neg]
    · simp
    · intro h; exact hne (BitVec.eq_of_toNat_eq (by simpa using h))

theorem zipIdx_pairwise {α : Type} (l : List α) (k : Nat) : (l.zipIdx k).Pairwise fun a b => a.2 < b.2 := by
  induction l generalizing k with
  | nil => simp
  | cons x l ih =>
    rw [List.zipIdx_cons, List.pairwise_cons]
    refine ⟨fun e he => ?_, ih (k + 1)⟩
    have := List.le_snd_of_mem_zipIdx he
    show k < e.2
    omega

/-- The leaves stand in ascending symbol value. -/
theorem leafList_pairwise (freq : Table Word) : (leafList freq).Pairwise fun a b => a.1.toNat < b.1.toNat := by
  unfold leafList
  rw [List.pairwise_filterMap]
  refine (zipIdx_pairwise freq.toList 0).imp_of_mem ?_
  intro e₁ e₂ h₁ h₂ hlt b₁ hb₁ b₂ hb₂
  have k₁ := (mem_zipIdx_table freq e₁.1 e₁.2).mp h₁
  have k₂ := (mem_zipIdx_table freq e₂.1 e₂.2).mp h₂
  obtain ⟨x₁, hx₁, -⟩ := k₁
  obtain ⟨x₂, hx₂, -⟩ := k₂
  split at hb₁
  · cases hb₁
  · split at hb₂
    · cases hb₂
    · simp only [Option.some.injEq] at hb₁ hb₂
      subst hb₁ hb₂
      rw [hx₁, hx₂] at hlt ⊢
      simpa using hlt

theorem leafList_nodup (freq : Table Word) : ((leafList freq).map (·.1)).Nodup := by
  rw [List.Nodup, List.pairwise_map]
  exact (leafList_pairwise freq).imp fun h e => by rw [e] at h; omega

theorem leafList_length_le (freq : Table Word) : (leafList freq).length ≤ 256 := by
  unfold leafList
  refine le_trans (List.length_filterMap_le _ _) ?_
  simp

theorem leafList_sum (freq : Table Word) : ((leafList freq).map fun e => e.2.toNat).sum < 2 ^ 40 := by
  have h1 : ∀ e ∈ leafList freq, e.2.toNat ≤ 2 ^ 32 - 1 := by
    rintro ⟨x, f⟩ he
    obtain ⟨-, rfl⟩ := (mem_leafList freq x f).mp he
    have := (Table.get freq x).isLt
    simp only [BitVec.toNat_setWidth]
    refine le_trans (Nat.mod_le _ _) (by omega)
  have h2 := List.sum_le_card_nsmul ((leafList freq).map fun e => e.2.toNat) (2 ^ 32 - 1) (by
    intro v hv
    obtain ⟨e, he, rfl⟩ := List.mem_map.mp hv
    exact h1 e he)
  have h3 := leafList_length_le freq
  rw [List.length_map, smul_eq_mul] at h2
  have h4 : (leafList freq).length * (2 ^ 32 - 1) ≤ 256 * (2 ^ 32 - 1) := Nat.mul_le_mul_right _ h3
  omega

/-- The nodes and the queue the merge loop starts from (R212, R214). -/
theorem Merging.start (freq : Table Word) :
    Merging (leafList freq).length (leaves freq) (leafList freq) (leaves freq) (List.range (leafList freq).length) := by
  have hlen : (leaves freq).length = (leafList freq).length := by simp [leaves_eq]
  have hleaf : ∀ n (h : n < (leafList freq).length),
      (leaves freq)[n]? = some (.leaf (leafList freq)[n].1 (leafList freq)[n].2) := by
    intro n h; simp [leaves_eq, h]
  have hno : ∀ (n : Nat) (f : Freq40) (l r : NodeNum), (leaves freq)[n]? ≠ some (Node.internal f l r) := by
    intro n f l r h
    have hn := (List.getElem?_eq_some_iff.mp h).1
    rw [hlen] at hn
    rw [hleaf n hn] at h
    simp at h
  refine ⟨leafList_length_le freq, hlen, ⟨[], by simp⟩, List.nodup_range, ?_, ?_, ?_, ?_, ?_⟩
  · intro n
    rw [List.mem_range, hlen]
    exact ⟨fun h => ⟨h, fun j _ f l r hj => absurd hj (hno j f l r)⟩, fun h => h.1⟩
  · rw [hlen, List.length_range]; omega
  · intro k h1 h2; omega
  · intro n f l r h; exact absurd h (hno n f l r)
  · refine ⟨fun n => match (leafList freq)[n]? with | some e => .leaf e.1 e.2 | none => .leaf 0 0, fun n hn => ?_, ?_⟩
    · rw [List.mem_range] at hn
      simp only [List.getElem?_eq_getElem hn]
      refine ⟨.leaf (hleaf n hn), ?_⟩
      simp [nfreqOf, List.getD_eq_getElem?_getD, hleaf n hn, Node.nfreq, HTree.weight, HTree.leavesOf]
    · have e : (List.range (leafList freq).length).flatMap (fun n => HTree.leavesOf
          (match (leafList freq)[n]? with | some e => HTree.leaf e.1 e.2 | none => .leaf 0 0)) = leafList freq := by
        rw [List.flatMap_def]
        have : (List.range (leafList freq).length).map (fun n => HTree.leavesOf
            (match (leafList freq)[n]? with | some e => HTree.leaf e.1 e.2 | none => .leaf 0 0)) =
            (leafList freq).map fun e => [e] := by
          apply List.ext_getElem (by simp)
          intro i h₁ h₂
          have hi : i < (leafList freq).length := by simpa using h₁
          simp [List.getElem?_eq_getElem hi, HTree.leavesOf]
        rw [this, ← List.flatMap_def]
        simp
      rw [e]

/-- What `HF.BUILD` builds from `m` leaves (R212 to R218). -/
structure Built (freq : Table Word) (ns : List Node) : Prop where
  length : ns.length = 2 * (leafList freq).length - 1
  leaf : ∀ n (h : n < (leafList freq).length), ns[n]? = some (.leaf (leafList freq)[n].1 (leafList freq)[n].2)
  merged : ∀ k, (leafList freq).length ≤ k → k < ns.length → IsMerge ns k
  lower : ∀ (n : Nat) (f : Freq40) (l r : NodeNum), ns[n]? = some (Node.internal f l r) → l.toNat < n ∧ r.toNat < n
  last : ∀ n, InQueue ns ns.length n → n + 1 = ns.length
  tree : ns ≠ [] → ∃ t : HTree, Rep ns (ns.length - 1) t ∧ t.leavesOf.Perm (leafList freq) ∧
    nfreqOf ns (ns.length - 1) = t.weight

theorem buildTree_built (freq : Table Word) : Built freq (buildTree freq) := by
  have hlen : (leaves freq).length = (leafList freq).length := by simp [leaves_eq]
  have hstart := Merging.start freq
  by_cases h0 : (leafList freq).length = 0
  · have : buildTree freq = leaves freq := by rw [buildTree, hlen, h0]; rfl
    rw [this]
    refine ⟨by omega, fun n h => by omega, fun k h1 h2 => by omega, hstart.lower, fun n hn => ?_, fun hne => ?_⟩
    · have := hn.1
      omega
    exact absurd (List.eq_nil_of_length_eq_zero (by omega)) hne
  · obtain ⟨q', hM, hq'⟩ := mergeLoop_spec (leafList_sum freq) ((leafList freq).length - 1) (leaves freq)
      (List.range (leafList freq).length) hstart (by rw [List.length_range]; omega)
    have hbuild : mergeLoop ((leafList freq).length - 1) (leaves freq) (List.range (leafList freq).length) = buildTree freq := by
      rw [buildTree, hlen]
    rw [hbuild] at hM
    obtain ⟨hfew, hbase, ⟨ms, hms⟩, hnd, hq, hcount, hmerged, hlower, g, hg, hperm⟩ := hM
    have hL : (buildTree freq).length = 2 * (leafList freq).length - 1 := by omega
    have hlast : (buildTree freq).length - 1 ∈ q' := by
      rw [hq]
      refine ⟨by omega, fun j hj f l r hnode => ?_⟩
      have := hlower j f l r hnode
      omega
    obtain ⟨r, rfl⟩ := List.length_eq_one_iff.mp hq'
    obtain rfl : (buildTree freq).length - 1 = r := by simpa using hlast
    refine ⟨hL, fun n h => ?_, hmerged, hlower, fun n hn => ?_, fun _ => ⟨g _, (hg _ hlast).1, ?_, (hg _ hlast).2⟩⟩
    · rw [hms, List.getElem?_append_left (by omega)]
      simp [leaves_eq, h]
    · have := (hq n).mpr hn
      rw [List.mem_singleton] at this
      have := hn.1
      omega
    · simpa using hperm

/-- Only nodes from `m` on are internal, and what they are is a merge. -/
theorem Built.merge_of_internal {freq : Table Word} {ns : List Node} (h : Built freq ns) {n : Nat} {f : Freq40} {l r : NodeNum}
    (hn : ns[n]? = some (Node.internal f l r)) : n < ns.length ∧ (leafList freq).length ≤ n ∧ IsMerge ns n := by
  have hlt := (List.getElem?_eq_some_iff.mp hn).1
  have hm : (leafList freq).length ≤ n := by
    by_contra hc
    rw [h.leaf n (by omega)] at hn
    cases hn
  exact ⟨hlt, hm, h.merged n hm hlt⟩

/-- What an internal node merges, by its own fields. -/
theorem Built.fields {freq : Table Word} {ns : List Node} (h : Built freq ns) {n : Nat} {f : Freq40} {l r : NodeNum}
    (hn : ns[n]? = some (Node.internal f l r)) : f.toNat = nfreqOf ns l.toNat + nfreqOf ns r.toNat ∧ InQueue ns n l.toNat ∧
      InQueue ns n r.toNat ∧ l.toNat ≠ r.toNat ∧ (∀ x, InQueue ns n x → x ≠ l.toNat → ComesBefore ns l.toNat x) ∧
      ∀ x, InQueue ns n x → x ≠ l.toNat → x ≠ r.toNat → ComesBefore ns r.toNat x := by
  obtain ⟨hlt, -, a, b, g, h1, h2, h3, h4, h5, h6, h7⟩ := h.merge_of_internal hn
  have hL := h.length
  have := leafList_length_le freq
  have := h3.1
  have := h4.1
  rw [hn] at h1
  simp only [Option.some.injEq, Node.internal.injEq] at h1
  obtain ⟨rfl, rfl, rfl⟩ := h1
  have ha : (BitVec.ofNat 9 a).toNat = a := by rw [BitVec.toNat_ofNat]; exact Nat.mod_eq_of_lt (by omega)
  have hb : (BitVec.ofNat 9 b).toNat = b := by rw [BitVec.toNat_ofNat]; exact Nat.mod_eq_of_lt (by omega)
  rw [ha, hb]
  exact ⟨h2, h3, h4, h5, h6, h7⟩

/-- The leaves' frequencies sum to all frequencies (R218). -/
theorem leafList_total (freq : Table Word) : ((leafList freq).map fun e => e.2.toNat).sum =
    ((List.range 256).map fun x => (Table.get freq (BitVec.ofNat 8 x)).toNat).sum := by
  have e1 : ((List.range 256).map fun x => (Table.get freq (BitVec.ofNat 8 x)).toNat) = freq.toList.map (·.toNat) := by
    apply List.ext_getElem (by simp)
    intro i h1 h2
    have hi : i < 256 := by simpa using h1
    simp [Table.get, Nat.mod_eq_of_lt hi]
  have e2 : ∀ (l : List Word) (k : Nat), (((l.zipIdx k).filterMap fun e =>
      if e.1.toNat = 0 then none else some (BitVec.ofNat 8 e.2, (e.1.setWidth 40 : Freq40))).map fun e => e.2.toNat).sum =
      (l.map (·.toNat)).sum := by
    intro l
    induction l with
    | nil => simp
    | cons w l ih =>
      intro k
      rw [List.zipIdx_cons, List.filterMap_cons, List.map_cons, List.sum_cons, ← ih (k + 1)]
      by_cases hw : w.toNat = 0
      · simp [hw]
      · have := w.isLt
        simp only [hw, if_false, List.map_cons, List.sum_cons, BitVec.toNat_setWidth]
        rw [Nat.mod_eq_of_lt (by omega)]
  rw [e1]
  exact e2 freq.toList 0

/-! ### The declared tree (R212 to R217) -/

theorem buildTree_isHuffTree (freq : Table Word) : IsHuffTree freq (buildTree freq) := by
  have h := buildTree_built freq
  refine ⟨(leafList freq).map (·.1), ?_, ?_, by simpa using h.length, ?_, ?_⟩
  · rw [List.pairwise_map]; exact leafList_pairwise freq
  · intro x
    simp only [List.mem_map, Prod.exists, exists_and_right, exists_eq_right]
    constructor
    · rintro ⟨f, hf⟩; exact ((mem_leafList freq x f).mp hf).1
    · intro hx; exact ⟨_, (mem_leafList freq x _).mpr ⟨hx, rfl⟩⟩
  · intro k hk
    rw [List.length_map] at hk
    rw [h.leaf k hk, List.getElem_map]
    have := (mem_leafList freq (leafList freq)[k].1 (leafList freq)[k].2).mp (List.getElem_mem hk)
    rw [this.2]
  · intro k h1 h2
    rw [List.length_map] at h1
    exact h.merged k h1 h2

theorem ComesBefore.asymm {ns : List Node} {a b : Nat} (h : ComesBefore ns a b) : ¬ ComesBefore ns b a := by
  unfold ComesBefore at *; omega

theorem ComesBefore.congr {ns ms : List Node} {k a b : Nat} (h : ∀ j : Nat, j < k → ns[j]? = ms[j]?) (ha : a < k) (hb : b < k) :
    ComesBefore ns a b ↔ ComesBefore ms a b := by
  simp [ComesBefore, nfreqOf, List.getD_eq_getElem?_getD, h a ha, h b hb]

theorem InQueue.congr {ns ms : List Node} {k n : Nat} (h : ∀ j : Nat, j < k → ns[j]? = ms[j]?) : InQueue ns k n ↔ InQueue ms k n := by
  unfold InQueue
  refine and_congr_right fun _ => forall_congr' fun j => forall_congr' fun hj => ?_
  rw [h j hj]

/-- A list is determined by being ascending and by its members. -/
theorem ascending_unique {l m : List Byte} (hl : l.Pairwise fun x y => x.toNat < y.toNat)
    (hm : m.Pairwise fun x y => x.toNat < y.toNat) (h : ∀ x, x ∈ l ↔ x ∈ m) : l = m := by
  have nd : ∀ {l : List Byte}, l.Pairwise (fun x y => x.toNat < y.toNat) → l.Nodup := fun hp =>
    hp.imp fun h e => by rw [e] at h; omega
  have hp : l.Perm m := (List.perm_ext_iff_of_nodup (nd hl) (nd hm)).mpr h
  exact hp.eq_of_pairwise (fun a b _ _ h1 h2 => by omega) hl hm

/-- The tree is a function of the frequency table (R217). -/
theorem IsHuffTree.unique {freq : Table Word} {ns ms : List Node} (h₁ : IsHuffTree freq ns) (h₂ : IsHuffTree freq ms) :
    ns = ms := by
  obtain ⟨l, hl1, hl2, hl3, hl4, hl5⟩ := h₁
  obtain ⟨m, hm1, hm2, hm3, hm4, hm5⟩ := h₂
  obtain rfl : l = m := ascending_unique hl1 hm1 fun x => by rw [hl2, hm2]
  have key : ∀ k : Nat, ns[k]? = ms[k]? := by
    intro k
    induction k using Nat.strong_induction_on with
    | _ k ih =>
      by_cases hk : k < l.length
      · rw [hl4 k hk, hm4 k hk]
      · by_cases hk2 : k < ns.length
        · obtain ⟨a, b, f, n1, n2, n3, n4, n5, n6, n7⟩ := hl5 k (by omega) hk2
          obtain ⟨a', b', f', m1, m2, m3, m4, m5, m6, m7⟩ := hm5 k (by omega) (by omega)
          have qc : ∀ n, InQueue ns k n ↔ InQueue ms k n := fun n => InQueue.congr ih
          have haa : a = a' := by
            by_contra hne
            have e1 := n6 a' ((qc a').mpr m3) (Ne.symm hne)
            have e2 := m6 a ((qc a).mp n3) hne
            rw [← ComesBefore.congr ih m3.1 n3.1] at e2
            exact e1.asymm e2
          subst haa
          have hbb : b = b' := by
            by_contra hne
            have e1 := n7 b' ((qc b').mpr m4) (Ne.symm m5) (Ne.symm hne)
            have e2 := m7 b ((qc b).mp n4) (Ne.symm n5) hne
            rw [← ComesBefore.congr ih m4.1 n4.1] at e2
            exact e1.asymm e2
          subst hbb
          have hff : f = f' := by
            apply BitVec.eq_of_toNat_eq
            rw [n2, m2]
            simp [nfreqOf, List.getD_eq_getElem?_getD, ih a n3.1, ih b n4.1]
          rw [n1, m1, hff]
        · rw [List.getElem?_eq_none (by omega), List.getElem?_eq_none (by omega)]
  exact List.ext_getElem? key

/-- A tree that is declared so is the one `HF.BUILD` builds. -/
theorem IsHuffTree.built {freq : Table Word} {ns : List Node} (h : IsHuffTree freq ns) : Built freq ns := by
  rw [h.unique (buildTree_isHuffTree freq)]
  exact buildTree_built freq

end Sys2Proof.Machine
end

