-- ==== Sys2Proof/Laws/Codebook.lean ====
section
/-! SUPPORT. The codebook as a mapping (R51, R52), its validation (R241), matching one code (R244), and the codebook of a tree
(R231 to R234). -/

namespace Sys2Proof.Machine

/-! ### Entries -/

theorem codeOfEntry_eq_some {n : BitVec 8} {v : CodeWord} {w : BitStr} (h : codeOfEntry n v = some w) :
    w.length = n.toNat ∧ 1 ≤ n.toNat ∧ ∀ i (hi : i < w.length), w[i] = v.getLsbD (n.toNat - 1 - i) := by
  unfold codeOfEntry at h
  split at h
  · cases h
  · rename_i hn
    obtain rfl := Option.some.inj h
    exact ⟨by simp, by omega, fun i hi => by simp⟩

theorem codeOfEntry_eq_none (n : BitVec 8) (v : CodeWord) : codeOfEntry n v = none ↔ n = 0 := by
  unfold codeOfEntry
  split
  · rename_i h
    exact ⟨fun _ => BitVec.eq_of_toNat_eq (by simpa using h), fun _ => rfl⟩
  · rename_i h
    constructor
    · intro hc; cases hc
    · intro hc; exact absurd (by rw [hc]; rfl) h

/-- A code has the length the table says, 1 to 255 bits (R52). -/
theorem code_length {s : State} {x : Byte} {c : BitStr} (h : code s x = some c) :
    c.length = (Table.get s.cbl x).toNat ∧ 1 ≤ c.length ∧ c.length ≤ 255 := by
  obtain ⟨h1, h2, -⟩ := codeOfEntry_eq_some h
  have := (Table.get s.cbl x).isLt
  omega

theorem code_eq_none (s : State) (x : Byte) : code s x = none ↔ Table.get s.cbl x = 0 := codeOfEntry_eq_none _ _

/-- The entry of a code of 1 to 255 bits is read back as that code (R119). -/
theorem codeOfEntry_of_code {c : BitStr} (h1 : 1 ≤ c.length) (h2 : c.length ≤ 255) :
    codeOfEntry (BitVec.ofNat 8 c.length) (BitVec.ofNat 256 (val c)) = some c := by
  have hn : (BitVec.ofNat 8 c.length).toNat = c.length := by
    rw [BitVec.toNat_ofNat]; exact Nat.mod_eq_of_lt (by omega)
  unfold codeOfEntry
  rw [if_neg (by omega), hn]
  congr 1
  apply List.ext_getElem (by simp)
  intro i h₁ h₂
  simp only [List.getElem_map, List.getElem_range, BitVec.getLsbD_ofNat, val_testBit c i h₂]
  simp only [show c.length - 1 - i < 256 by omega, decide_true, Bool.true_and]

/-! ### The codebook as a list -/

theorem codebook_zip (s : State) (e : (BitVec 8 × CodeWord) × Nat) :
    e ∈ (s.cbl.toList.zip s.cbc.toList).zipIdx ↔
      ∃ x : Byte, e = ((Table.get s.cbl x, Table.get s.cbc x), x.toNat) := by
  obtain ⟨⟨n, v⟩, k⟩ := e
  rw [List.mk_mem_zipIdx_iff_getElem?, List.getElem?_zip_eq_some]
  constructor
  · rintro ⟨h1, h2⟩
    obtain ⟨x, rfl, hx⟩ := (mem_zipIdx_table s.cbl n k).mp (List.mk_mem_zipIdx_iff_getElem?.mpr h1)
    obtain ⟨y, hy, hy'⟩ := (mem_zipIdx_table s.cbc v x.toNat).mp (List.mk_mem_zipIdx_iff_getElem?.mpr h2)
    obtain rfl : x = y := BitVec.eq_of_toNat_eq hy
    exact ⟨x, by rw [hx, hy']⟩
  · rintro ⟨x, he⟩
    simp only [Prod.mk.injEq] at he
    obtain ⟨⟨rfl, rfl⟩, rfl⟩ := he
    exact ⟨List.mk_mem_zipIdx_iff_getElem?.mp ((mem_zipIdx_table s.cbl _ _).mpr ⟨x, rfl, rfl⟩),
      List.mk_mem_zipIdx_iff_getElem?.mp ((mem_zipIdx_table s.cbc _ _).mpr ⟨x, rfl, rfl⟩)⟩

/-- The codebook lists exactly the symbols that have a code, with it (R51). -/
theorem mem_codebook (s : State) (x : Byte) (c : BitStr) : (x, c) ∈ codebook s ↔ code s x = some c := by
  simp only [codebook, List.mem_filterMap, Option.map_eq_some_iff, Prod.mk.injEq]
  constructor
  · rintro ⟨e, he, d, hd, hx, rfl⟩
    obtain ⟨y, rfl⟩ := (codebook_zip s e).mp he
    have : y = x := by rw [← hx]; simp
    subst this
    exact hd
  · intro h
    exact ⟨((Table.get s.cbl x, Table.get s.cbc x), x.toNat), (codebook_zip s _).mpr ⟨x, rfl⟩, c, h, by simp, rfl⟩

/-- The codebook is listed by ascending symbol. -/
theorem codebook_pairwise (s : State) : (codebook s).Pairwise fun a b => a.1.toNat < b.1.toNat := by
  unfold codebook
  rw [List.pairwise_filterMap]
  refine (zipIdx_pairwise _ 0).imp_of_mem ?_
  intro e₁ e₂ h₁ h₂ hlt b₁ hb₁ b₂ hb₂
  obtain ⟨x₁, rfl⟩ := (codebook_zip s e₁).mp h₁
  obtain ⟨x₂, rfl⟩ := (codebook_zip s e₂).mp h₂
  simp only [Option.map_eq_some_iff] at hb₁ hb₂
  obtain ⟨c₁, -, rfl⟩ := hb₁
  obtain ⟨c₂, -, rfl⟩ := hb₂
  simpa using hlt

/-! ### Validation (R241) -/

theorem firstDup_none {cb : List (Byte × BitStr)} (h : firstDup cb = none) :
    cb.Pairwise fun a b => b.2 ≠ a.2 := by
  induction cb with
  | nil => simp
  | cons e rest ih =>
    rw [firstDup] at h
    split at h
    · cases h
    · rename_i hf
      refine List.pairwise_cons.mpr ⟨fun b hb => ?_, ih h⟩
      have := List.find?_eq_none.mp hf b hb
      simpa using this

/-- What `firstDup` finds in an ascending list: the smallest first symbol and, for it, the smallest second one. -/
theorem firstDup_some {cb : List (Byte × BitStr)} (hp : cb.Pairwise fun a b => a.1.toNat < b.1.toNat) {x y : Byte}
    (h : firstDup cb = some (x, y)) :
    x.toNat < y.toNat ∧ (∃ c, (x, c) ∈ cb ∧ (y, c) ∈ cb) ∧
      ∀ x' y' c, x'.toNat < y'.toNat → (x', c) ∈ cb → (y', c) ∈ cb → x.toNat < x'.toNat ∨ (x = x' ∧ y.toNat ≤ y'.toNat) := by
  induction cb with
  | nil => simp [firstDup] at h
  | cons e rest ih =>
    obtain ⟨he, hp'⟩ := List.pairwise_cons.mp hp
    rw [firstDup] at h
    split at h
    · rename_i e' hf
      simp only [Option.some.injEq, Prod.mk.injEq] at h
      obtain ⟨rfl, rfl⟩ := h
      have hmem := List.mem_of_find?_eq_some hf
      have heq : e'.2 = e.2 := by simpa using List.find?_some hf
      refine ⟨he e' hmem, ⟨e.2, by simp, by rw [← heq]; simp [hmem]⟩, fun x' y' c hxy hx hy => ?_⟩
      rcases List.mem_cons.mp hx with hx | hx
      · rcases List.mem_cons.mp hy with hy | hy
        · rw [← hx] at hy; simp only [Prod.mk.injEq] at hy; rw [hy.1] at hxy; omega
        · right
          refine ⟨by rw [← hx], ?_⟩
          -- the first match in an ascending list is the least
          have hle : ∀ (l : List (Byte × BitStr)), l.Pairwise (fun a b => a.1.toNat < b.1.toNat) →
              ∀ z, l.find? (fun e' => e'.2 == e.2) = some z → ∀ w ∈ l, w.2 = e.2 → z.1.toNat ≤ w.1.toNat := by
            intro l
            induction l with
            | nil => intro _ z hz; simp at hz
            | cons a l ihl =>
              intro hl z hz w hw hwe
              obtain ⟨ha, hl'⟩ := List.pairwise_cons.mp hl
              rw [List.find?_cons] at hz
              split at hz
              · obtain rfl := Option.some.inj hz
                rcases List.mem_cons.mp hw with rfl | hw
                · exact le_refl _
                · exact le_of_lt (ha w hw)
              · rename_i hne
                rcases List.mem_cons.mp hw with rfl | hw
                · rw [hwe] at hne; simp at hne
                · exact ihl hl' z hz w hw hwe
          exact hle rest hp' e' hf (y', c) hy (by rw [← hx])
      · left
        exact he _ hx
    · rename_i hf
      obtain ⟨h1, ⟨c, h2, h3⟩, h4⟩ := ih hp' h
      refine ⟨h1, ⟨c, by simp [h2], by simp [h3]⟩, fun x' y' c' hxy hx hy => ?_⟩
      rcases List.mem_cons.mp hx with hx | hx
      · rcases List.mem_cons.mp hy with hy | hy
        · rw [← hx] at hy; simp only [Prod.mk.injEq] at hy; rw [hy.1] at hxy; omega
        · have := List.find?_eq_none.mp hf _ hy
          rw [← hx] at this; simp at this
      · rcases List.mem_cons.mp hy with hy | hy
        · have := he _ hx
          rw [← hy] at this
          simp only at this
          omega
        · exact h4 x' y' c' hxy hx hy

/-- The check of R241 passes exactly when `CbOK` holds (R52). -/
theorem firstDup_codebook_none (s : State) : firstDup (codebook s) = none ↔ CbOK s := by
  constructor
  · intro h x y c hx hy
    have hp := firstDup_none h
    by_contra hne
    have hx' := (mem_codebook s x c).mpr hx
    have hy' := (mem_codebook s y c).mpr hy
    rcases lt_or_gt_of_ne (fun e => hne (BitVec.eq_of_toNat_eq e) : x.toNat ≠ y.toNat) with hlt | hlt
    all_goals
      have hpw := List.pairwise_iff_getElem.mp hp
      obtain ⟨i, hi, ei⟩ := List.mem_iff_getElem.mp hx'
      obtain ⟨j, hj, ej⟩ := List.mem_iff_getElem.mp hy'
      rcases lt_trichotomy i j with hij | hij | hij
      · exact hpw i j hi hj hij (by rw [ei, ej])
      · subst hij; rw [ei] at ej; simp only [Prod.mk.injEq] at ej; exact hne ej.1
      · exact hpw j i hj hi hij (by rw [ei, ej])
  · intro h
    cases hf : firstDup (codebook s) with
    | none => rfl
    | some p =>
      obtain ⟨x, y⟩ := p
      obtain ⟨h1, ⟨c, h2, h3⟩, -⟩ := firstDup_some (codebook_pairwise s) hf
      have := h x y c ((mem_codebook ..).mp h2) ((mem_codebook ..).mp h3)
      rw [this] at h1; omega

/-- When `CbOK` fails the check finds the first duplicate pair (R241). -/
theorem firstDup_codebook_some {s : State} {x y : Byte} (h : firstDup (codebook s) = some (x, y)) : IsFirstDup s x y := by
  obtain ⟨h1, ⟨c, h2, h3⟩, h4⟩ := firstDup_some (codebook_pairwise s) h
  exact ⟨h1, ⟨c, (mem_codebook ..).mp h2, (mem_codebook ..).mp h3⟩, fun x' y' c' hxy hx hy =>
    h4 x' y' c' hxy ((mem_codebook ..).mpr hx) ((mem_codebook ..).mpr hy)⟩

theorem IsFirstDup.unique {s : State} {x y x' y' : Byte} (h : IsFirstDup s x y) (h' : IsFirstDup s x' y') :
    x = x' ∧ y = y' := by
  obtain ⟨h1, ⟨c, h2, h3⟩, h4⟩ := h
  obtain ⟨h1', ⟨c', h2', h3'⟩, h4'⟩ := h'
  have a := h4 x' y' c' h1' h2' h3'
  have b := h4' x y c h1 h2 h3
  rcases a with a | ⟨rfl, a⟩
  · rcases b with b | ⟨rfl, b⟩ <;> omega
  · rcases b with b | ⟨-, b⟩
    · omega
    · exact ⟨rfl, BitVec.eq_of_toNat_eq (by omega)⟩

theorem checkCodebook_true {α : Type} {s : State} (h : CbOK s) (k : Except Raise α) : checkCodebook (codebook s) k = k := by
  rw [checkCodebook, (firstDup_codebook_none s).mpr h]

theorem checkCodebook_false {α : Type} {s : State} {x y : Byte} (h : IsFirstDup s x y) (k : Except Raise α) :
    checkCodebook (codebook s) k = .error (.hfCbDup, dupInfo (x, y)) := by
  cases hf : firstDup (codebook s) with
  | none =>
    obtain ⟨h1, ⟨c, h2, h3⟩, -⟩ := h
    have := (firstDup_codebook_none s).mp hf x y c h2 h3
    rw [this] at h1; omega
  | some p =>
    obtain ⟨x', y'⟩ := p
    obtain ⟨rfl, rfl⟩ := (firstDup_codebook_some hf).unique h
    rw [checkCodebook, hf]

/-! ### Matching one code (R244) -/

theorem inBits_take (s : State) (i : Nat) {j k : Nat} (h : j ≤ k) : (inBits s i k).take j = inBits s i j := by
  rw [inBits, ← List.map_take, List.take_range, Nat.min_eq_left h, inBits]

theorem inBits_prefix (s : State) (i : Nat) {j k : Nat} (h : j ≤ k) : inBits s i j <+: inBits s i k := by
  rw [← inBits_take s i h]; exact List.take_prefix _ _

/-- A prefix of input bits is input bits. -/
theorem eq_inBits_of_prefix {s : State} {i k : Nat} {c : BitStr} (h : c <+: inBits s i k) :
    c = inBits s i c.length ∧ c.length ≤ k := by
  have hl := h.length_le
  rw [inBits_length] at hl
  exact ⟨by rw [← inBits_take s i hl]; exact List.prefix_iff_eq_take.mp h, hl⟩

/-- What each answer of `hmatch` says. -/
def Answers (s : State) (i lim : Nat) : CodeMatch → Prop
  | .hit x n => FindsCode s i lim n x
  | .noCode => FindsNoCode s i lim
  | .trunc => RunsOut s i lim

/-- The loop of `hmatch` from `k` on, nothing having matched before. -/
theorem hmatchFrom_spec (s : State) (i lim : Nat) (hi : i < lim) :
    ∀ (fuel k : Nat), fuel + k = 256 → 1 ≤ k →
      (∀ j, 1 ≤ j → j < k → i + j ≤ lim ∧ ∀ y, code s y ≠ some (inBits s i j)) →
      (2 ≤ k → ∃ y c, code s y = some c ∧ inBits s i (k - 1) <+: c ∧ k - 1 < c.length) →
      Answers s i lim (hmatchFrom s (codebook s) i lim fuel k) := by
  intro fuel
  induction fuel with
  | zero =>
    intro k hk h1 hno hext
    -- no code is longer than 255 bits
    exfalso
    obtain ⟨y, c, hy, hpre, hlen⟩ := hext (by omega)
    have := (code_length hy).2.2
    omega
  | succ fuel ih =>
    intro k hk h1 hno hext
    rw [hmatchFrom]
    by_cases hlim : lim < i + k
    · rw [if_pos hlim]
      have hk2 : 2 ≤ k := by omega
      have hkl : k - 1 = lim - i := by
        have := (hno (k - 1) (by omega) (by omega)).1
        omega
      refine ⟨fun y c hy hpre => ?_, ?_⟩
      · obtain ⟨he, hle⟩ := eq_inBits_of_prefix hpre
        have := (code_length hy).2.1
        exact (hno c.length this (by omega)).2 y (by rw [hy, ← he])
      · obtain ⟨y, c, hy, hpre, -⟩ := hext hk2
        exact ⟨y, c, hy, by rw [← hkl]; exact hpre⟩
    · rw [if_neg hlim]
      cases hf : (codebook s).find? fun e => e.2 == inBits s i k with
      | some e =>
        have hmem := List.mem_of_find?_eq_some hf
        have heq : e.2 = inBits s i k := by simpa using List.find?_some hf
        exact ⟨h1, by omega, by rw [← heq]; exact (mem_codebook s e.1 e.2).mp hmem, fun j a b => (hno j a b).2⟩
      | none =>
        have hnok : ∀ y, code s y ≠ some (inBits s i k) := by
          intro y hy
          have := List.find?_eq_none.mp hf _ ((mem_codebook s y _).mpr hy)
          simp at this
        have hno' : ∀ j, 1 ≤ j → j < k + 1 → i + j ≤ lim ∧ ∀ y, code s y ≠ some (inBits s i j) := by
          intro j a b
          by_cases hjk : j = k
          · subst hjk; exact ⟨by omega, hnok⟩
          · exact hno j a (by omega)
        simp only
        split
        · rename_i hany
          rw [List.any_eq_true] at hany
          obtain ⟨e, hmem, he⟩ := hany
          simp only [Bool.and_eq_true, decide_eq_true_eq, List.isPrefixOf_iff_prefix] at he
          exact ih (k + 1) (by omega) (by omega) hno' fun _ =>
            ⟨e.1, e.2, (mem_codebook s e.1 e.2).mp hmem, by simpa using he.2, by simpa using he.1⟩
        · rename_i hany
          refine ⟨k, h1, by omega, fun y c hy => ⟨fun hpre => ?_, fun hpre => ?_⟩⟩
          · obtain ⟨he, hle⟩ := eq_inBits_of_prefix hpre
            exact (hno' c.length (code_length hy).2.1 (by omega)).2 y (by rw [hy, ← he])
          · apply hany
            rw [List.any_eq_true]
            refine ⟨(y, c), (mem_codebook s y c).mpr hy, ?_⟩
            simp only [Bool.and_eq_true, decide_eq_true_eq, List.isPrefixOf_iff_prefix]
            refine ⟨?_, hpre⟩
            have hle := hpre.length_le
            rw [inBits_length] at hle
            rcases Nat.lt_or_ge k c.length with h | h
            · exact h
            · exact absurd (by rw [hy, ← hpre.eq_of_length (by rw [inBits_length]; omega)]) (hnok y)

theorem hmatch_spec (s : State) {i lim : Nat} (hi : i < lim) :
    Answers s i lim (hmatch s (codebook s) i lim) :=
  hmatchFrom_spec s i lim hi 255 1 (by omega) (by omega) (fun j _ _ => by omega) (fun _ => by omega)

theorem FindsCode.unique {s : State} {i lim k k' : Nat} {x x' : Byte} (hcb : CbOK s) (h : FindsCode s i lim k x)
    (h' : FindsCode s i lim k' x') : k = k' ∧ x = x' := by
  obtain ⟨a1, a2, a3, a4⟩ := h
  obtain ⟨b1, b2, b3, b4⟩ := h'
  have hk : k = k' := by
    rcases lt_trichotomy k k' with h | h | h
    · exact absurd a3 (b4 k a1 h x)
    · exact h
    · exact absurd b3 (a4 k' b1 h x')
  subst hk
  exact ⟨rfl, hcb _ _ _ a3 b3⟩

theorem FindsCode.not_noCode {s : State} {i lim k : Nat} {x : Byte} (h : FindsCode s i lim k x) : ¬ FindsNoCode s i lim := by
  rintro ⟨n, n1, n2, n3⟩
  obtain ⟨m1, m2⟩ := n3 x _ h.2.2.1
  rcases Nat.le_total k n with hkn | hkn
  · exact m1 (inBits_prefix s i hkn)
  · exact m2 (inBits_prefix s i hkn)

theorem FindsCode.not_runsOut {s : State} {i lim k : Nat} {x : Byte} (h : FindsCode s i lim k x) : ¬ RunsOut s i lim := by
  rintro ⟨h1, -⟩
  have := h.2.1
  exact h1 x _ h.2.2.1 (inBits_prefix s i (by omega))

theorem FindsNoCode.not_runsOut {s : State} {i lim : Nat} (h : FindsNoCode s i lim) : ¬ RunsOut s i lim := by
  obtain ⟨n, n1, n2, n3⟩ := h
  rintro ⟨-, y, c, hy, hpre⟩
  exact (n3 y c hy).2 ((inBits_prefix s i (by omega)).trans hpre)

/-- `hmatch` answers `(x, k)` exactly when that code is found (R244). -/
theorem hmatch_hit {s : State} (hcb : CbOK s) {i lim : Nat} (hi : i < lim) {x : Byte} {k : Nat}
    (h : FindsCode s i lim k x) : hmatch s (codebook s) i lim = .hit x k := by
  have hs := hmatch_spec s hi
  cases e : hmatch s (codebook s) i lim <;> rw [e] at hs <;> simp only [Answers] at hs
  · obtain ⟨rfl, rfl⟩ := h.unique hcb hs
    rfl
  · exact absurd hs h.not_noCode
  · exact absurd hs h.not_runsOut

theorem hmatch_noCode {s : State} {i lim : Nat} (hi : i < lim) (h : FindsNoCode s i lim) :
    hmatch s (codebook s) i lim = .noCode := by
  have hs := hmatch_spec s hi
  cases e : hmatch s (codebook s) i lim <;> rw [e] at hs <;> simp only [Answers] at hs
  · exact absurd h hs.not_noCode
  · exact absurd hs h.not_runsOut

theorem hmatch_trunc {s : State} {i lim : Nat} (hi : i < lim) (h : RunsOut s i lim) :
    hmatch s (codebook s) i lim = .trunc := by
  have hs := hmatch_spec s hi
  cases e : hmatch s (codebook s) i lim <;> rw [e] at hs <;> simp only [Answers] at hs
  · exact absurd h hs.not_runsOut
  · exact absurd h hs.not_runsOut

/-! ### The codebook of a list of codes (R119, R233) -/

theorem lookup_eq_some_of_mem {l : List (Byte × BitStr)} (hnd : (l.map (·.1)).Nodup) {x : Byte} {c : BitStr} :
    l.lookup x = some c ↔ (x, c) ∈ l := by
  induction l with
  | nil => simp
  | cons e l ih =>
    obtain ⟨y, d⟩ := e
    simp only [List.map_cons, List.nodup_cons, List.mem_map, Prod.exists, exists_and_right, exists_eq_right, not_exists] at hnd
    rw [List.lookup_cons]
    by_cases hxy : x = y
    · subst hxy
      simp only [BEq.rfl, Option.some.injEq, List.mem_cons, Prod.mk.injEq, true_and]
      constructor
      · rintro rfl; exact .inl rfl
      · rintro (rfl | h)
        · rfl
        · exact absurd h (hnd.1 c)
    · have : (x == y) = false := by simpa using hxy
      simp only [this, List.mem_cons, Prod.mk.injEq, hxy, false_and, false_or]
      exact ih hnd.2

/-- The codebook that a list of codes gives: its own entries, and no other symbol has a code. -/
theorem code_setCodebook {l : List (Byte × BitStr)} (hlen : ∀ e ∈ l, 1 ≤ e.2.length ∧ e.2.length ≤ 255) (s : State) (x : Byte) :
    code (setCodebook l s) x = l.lookup x := by
  simp only [code, setCodebook, codebookLengths, codebookWords, Table.get_tabulate]
  cases h : l.lookup x with
  | none => exact (codeOfEntry_eq_none _ _).mpr rfl
  | some c =>
    obtain ⟨e, he, hee⟩ : ∃ e ∈ l, e = (x, c) := by
      obtain ⟨l₁, l₂, hl, -⟩ := List.lookup_eq_some_iff.mp h
      exact ⟨(x, c), by rw [hl]; simp, rfl⟩
    subst hee
    have := hlen _ he
    exact codeOfEntry_of_code this.1 this.2

/-! ### The codes of a tree (R231, R232, R234) -/

theorem not_prefix_of_branch {c a b : BitStr} {x : Bool} (ha : c ++ [x] <+: a) (hb : c ++ [!x] <+: b) : ¬ a <+: b := by
  intro h
  have h1 := ha.trans h
  have h2 := List.prefix_of_prefix_length_le h1 hb (by simp)
  have h3 := h2.eq_of_length (by simp)
  have := List.append_cancel_left h3
  cases x <;> simp at this

/-- No path of a leaf is a prefix of another's (R234). -/
theorem HTree.pathsOf_pairwise (t : HTree) (c : BitStr) :
    (t.pathsOf c).Pairwise fun a b => ¬ a.2 <+: b.2 ∧ ¬ b.2 <+: a.2 := by
  induction t generalizing c with
  | leaf => simp [pathsOf]
  | node l r ihl ihr =>
    rw [pathsOf, List.pairwise_append]
    refine ⟨ihl _, ihr _, fun a ha b hb => ⟨?_, ?_⟩⟩
    · exact not_prefix_of_branch (x := false) (l.pathsOf_prefix _ a ha).1 (r.pathsOf_prefix _ b hb).1
    · exact not_prefix_of_branch (x := true) (r.pathsOf_prefix _ b hb).1 (l.pathsOf_prefix _ a ha).1

/-- Every infinite bit sequence runs into a leaf (R234, completeness). -/
theorem HTree.pathsOf_complete (t : HTree) (c : BitStr) (g : Nat → Bool) :
    ∃ e ∈ t.pathsOf c, ∃ n, e.2 = c ++ (List.range n).map g := by
  induction t generalizing c g with
  | leaf x f => exact ⟨(x, c), by simp [pathsOf], 0, by simp⟩
  | node l r ihl ihr =>
    have hs : ∀ n, c ++ [g 0] ++ (List.range n).map (fun i => g (i + 1)) = c ++ (List.range (n + 1)).map g := by
      intro n
      rw [List.append_assoc, List.range_succ_eq_map, List.map_cons, List.map_map]
      rfl
    rw [pathsOf]
    cases h : g 0 with
    | false =>
      obtain ⟨e, he, n, hn⟩ := ihl (c ++ [g 0]) fun i => g (i + 1)
      rw [h] at he
      exact ⟨e, by simp [he], n + 1, by rw [hn, hs]⟩
    | true =>
      obtain ⟨e, he, n, hn⟩ := ihr (c ++ [g 0]) fun i => g (i + 1)
      rw [h] at he
      exact ⟨e, by simp [he], n + 1, by rw [hn, hs]⟩

theorem HTree.pathsOf_pos (l r : HTree) : ∀ e ∈ (HTree.node l r).pathsOf [], 1 ≤ e.2.length := by
  intro e he
  simp only [pathsOf, List.mem_append] at he
  rcases he with he | he
  · have := (l.pathsOf_prefix _ e he).1.length_le
    simpa using this
  · have := (r.pathsOf_prefix _ e he).1.length_le
    simpa using this

/-- The paths of the declared kind lead where the traversal leads. -/
theorem mem_pathsOf_pathTo {s : State} {n : Nat} {t : HTree} (h : Rep s.nodes n t) :
    ∀ c, PathTo s n c → ∀ x d, (x, d) ∈ t.pathsOf c → ∃ (m : Nat) (f : Freq40), PathTo s m d ∧ s.nodes[m]? = some (Node.leaf x f) := by
  induction h with
  | leaf h =>
    intro c hc x d hx
    simp only [HTree.pathsOf, List.mem_singleton, Prod.mk.injEq] at hx
    obtain ⟨rfl, rfl⟩ := hx
    exact ⟨_, _, hc, h⟩
  | node h _ _ ihl ihr =>
    intro c hc x d hx
    simp only [HTree.pathsOf, List.mem_append] at hx
    rcases hx with hx | hx
    · exact ihl _ (.left hc h) x d hx
    · exact ihr _ (.right hc h) x d hx

/-- Node numbers fall along a path, and only the internal nodes have edges (R218). -/
theorem PathTo.depth {s : State} {freq : Table Word} (hB : Built freq s.nodes) (hroot : s.root.toNat + 1 = s.nodes.length)
    {n : Nat} {c : BitStr} (h : PathTo s n c) : n + c.length ≤ s.root.toNat ∧ 2 * c.length + 1 ≤ s.nodes.length := by
  have hL := hB.length
  induction h with
  | root => simp; omega
  | left p hn ih | right p hn ih =>
    obtain ⟨h1, h2, -⟩ := hB.merge_of_internal hn
    have := hB.lower _ _ _ _ hn
    simp only [List.length_append, List.length_singleton]
    omega

theorem pathTo_mem_pathsOf {s : State} {t : HTree} (h : Rep s.nodes s.root.toNat t) {m : Nat} {d : BitStr} (hp : PathTo s m d) :
    ∃ t', Rep s.nodes m t' ∧ ∀ e ∈ t'.pathsOf d, e ∈ t.pathsOf [] := by
  induction hp with
  | root => exact ⟨t, h, fun e he => he⟩
  | left p hn ih =>
    obtain ⟨t', hr, hsub⟩ := ih
    cases hr with
    | leaf hl => rw [hl] at hn; cases hn
    | node hl h1 h2 =>
      rw [hl] at hn
      simp only [Option.some.injEq, Node.internal.injEq] at hn
      obtain ⟨-, rfl, rfl⟩ := hn
      exact ⟨_, h1, fun e he => hsub e (by simp [HTree.pathsOf, he])⟩
  | right p hn ih =>
    obtain ⟨t', hr, hsub⟩ := ih
    cases hr with
    | leaf hl => rw [hl] at hn; cases hn
    | node hl h1 h2 =>
      rw [hl] at hn
      simp only [Option.some.injEq, Node.internal.injEq] at hn
      obtain ⟨-, rfl, rfl⟩ := hn
      exact ⟨_, h2, fun e he => hsub e (by simp [HTree.pathsOf, he])⟩

/-- What the codes of a held tree are (R231, R232, R234): `freq` is the table the tree is of. -/
structure CodesOf (s : State) (freq : Table Word) (codes : List (Byte × BitStr)) : Prop where
  nodup : (codes.map (·.1)).Nodup
  lengths : ∀ e ∈ codes, 1 ≤ e.2.length ∧ e.2.length ≤ 255
  mem : ∀ x c, (x, c) ∈ codes ↔ TreeCode s x c
  symbols : ∀ x, (∃ c, (x, c) ∈ codes) ↔ Table.get freq x ≠ 0
  free : codes.Pairwise fun a b => ¬ a.2 <+: b.2 ∧ ¬ b.2 <+: a.2
  complete : 2 ≤ s.nodes.length → ∀ g : Nat → Bool, ∃ e ∈ codes, e.2 = (List.range e.2.length).map g

theorem treeCodes_codesOf {s : State} {freq : Table Word} (hT : TreeOK s) (hF : IsHuffTree freq s.nodes) :
    CodesOf s freq (treeCodes s) := by
  have hB := hF.built
  have hcount := hT.count
  have hroot := hT.rootIs
  have hsym : ∀ x, (∃ f, (x, f) ∈ leafList freq) ↔ Table.get freq x ≠ 0 := fun x =>
    ⟨fun ⟨f, hf⟩ => ((mem_leafList freq x f).mp hf).1, fun h => ⟨_, (mem_leafList freq x _).mpr ⟨h, rfl⟩⟩⟩
  have hl := hB.length
  have hle := leafList_length_le freq
  by_cases h0 : s.nodes.length = 0
  · -- no node
    have hempty : leafList freq = [] := List.eq_nil_of_length_eq_zero (by omega)
    have e : treeCodes s = [] := by rw [treeCodes, if_neg (by omega), if_neg (by omega)]
    rw [e]
    refine ⟨by simp, by simp, fun x c => ?_, fun x => ?_, by simp, fun h => by omega⟩
    · constructor
      · intro h; simp at h
      · rintro (⟨h, -⟩ | ⟨h, -⟩) <;> omega
    · rw [← hsym, hempty]; simp
  · by_cases h1 : s.nodes.length = 1
    · -- one node
      have hl1 : (leafList freq).length = 1 := by omega
      have hleaf := hB.leaf 0 (by omega)
      have hget : s.nodes.getD 0 (.leaf 0 0) = .leaf (leafList freq)[0].1 (leafList freq)[0].2 := by
        rw [List.getD_eq_getElem?_getD, hleaf]; rfl
      have e : treeCodes s = [((leafList freq)[0].1, [false])] := by
        rw [treeCodes, if_pos (by omega), hget]; rfl
      obtain ⟨a, ha⟩ := List.length_eq_one_iff.mp hl1
      rw [e]
      refine ⟨by simp, by simp, fun x c => ?_, fun x => ?_, by simp, fun h => by omega⟩
      · rw [List.mem_singleton, Prod.mk.injEq]
        constructor
        · rintro ⟨rfl, rfl⟩; exact .inl ⟨h1, rfl, _, hleaf⟩
        · rintro (⟨-, rfl, f, hf⟩ | ⟨h, -⟩)
          · rw [hleaf] at hf
            simp only [Option.some.injEq, Node.leaf.injEq] at hf
            exact ⟨hf.1.symm, rfl⟩
          · omega
      · rw [← hsym]
        simp only [ha, List.mem_singleton, List.getElem_cons_zero, Prod.mk.injEq]
        obtain ⟨y, g⟩ := a
        simp
    · -- an internal root
      have hne : s.nodes ≠ [] := fun h => h0 (by rw [h]; rfl)
      obtain ⟨t, hrep, hperm, -⟩ := hB.tree hne
      rw [if_neg hne] at hroot
      rw [← hroot] at hrep
      have hdepth := t.depth_lt
      have hlen := hperm.length_eq
      have e : treeCodes s = t.pathsOf [] := by
        rw [treeCodes, if_neg (by omega), if_pos (by omega)]
        exact hrep.paths_eq 256 [] (by omega)
      have hmem : ∀ x c, (x, c) ∈ t.pathsOf [] ↔ TreeCode s x c := by
        intro x c
        constructor
        · intro h
          exact .inr ⟨by omega, mem_pathsOf_pathTo hrep [] .root x c h⟩
        · rintro (⟨h, -⟩ | ⟨-, n, f, hp, hn⟩)
          · exact absurd h h1
          · obtain ⟨t', hr, hsub⟩ := pathTo_mem_pathsOf hrep hp
            cases hr with
            | leaf hl =>
              rw [hl] at hn
              simp only [Option.some.injEq, Node.leaf.injEq] at hn
              obtain ⟨rfl, -⟩ := hn
              exact hsub _ (by simp [HTree.pathsOf])
            | node hl _ _ => rw [hl] at hn; cases hn
      rw [e]
      refine ⟨?_, fun a ha => ?_, hmem, fun x => ?_, t.pathsOf_pairwise [], fun _ g => ?_⟩
      · rw [t.pathsOf_symbols]
        exact (hperm.map (·.1)).nodup_iff.mpr (leafList_nodup freq)
      · have h2 := (t.pathsOf_prefix [] a ha).2
        refine ⟨?_, by simp at h2; omega⟩
        cases t with
        | leaf x f => simp [HTree.leavesOf] at hlen; omega
        | node l r => exact HTree.pathsOf_pos l r a ha
      · rw [← hsym]
        have h3 : (∃ c, (x, c) ∈ t.pathsOf []) ↔ x ∈ (t.pathsOf []).map (·.1) := by simp
        have h4 : (∃ f, (x, f) ∈ leafList freq) ↔ x ∈ (leafList freq).map (·.1) := by simp
        rw [h3, h4, t.pathsOf_symbols]
        exact (hperm.map (·.1)).mem_iff
      · obtain ⟨e, he, n, hn⟩ := t.pathsOf_complete [] g
        refine ⟨e, he, ?_⟩
        rw [hn]; simp

/-- The code of a symbol after `HF.DERIVE`'s tables are written from a held tree (R233). -/
theorem code_treeCodes {s : State} {freq : Table Word} (hT : TreeOK s) (hF : IsHuffTree freq s.nodes) (u : State) (x : Byte)
    (c : BitStr) : code (setCodebook (treeCodes s) u) x = some c ↔ (x, c) ∈ treeCodes s := by
  have h := treeCodes_codesOf hT hF
  rw [code_setCodebook h.lengths, lookup_eq_some_of_mem h.nodup]

/-- A list whose codes are pairwise incomparable gives a prefix-free mapping. -/
theorem prefixFree_of_pairwise {codes : List (Byte × BitStr)} (h : codes.Pairwise fun a b => ¬ a.2 <+: b.2 ∧ ¬ b.2 <+: a.2)
    {x y : Byte} {c d : BitStr} (hx : (x, c) ∈ codes) (hy : (y, d) ∈ codes) (hne : x ≠ y) : ¬ c <+: d := by
  obtain ⟨i, hi, ei⟩ := List.mem_iff_getElem.mp hx
  obtain ⟨j, hj, ej⟩ := List.mem_iff_getElem.mp hy
  have hp := List.pairwise_iff_getElem.mp h
  rcases lt_trichotomy i j with hij | hij | hij
  · have := (hp i j hi hj hij).1
    rwa [ei, ej] at this
  · subst hij; rw [ei] at ej; simp only [Prod.mk.injEq] at ej; exact absurd ej.1 hne
  · have := (hp j i hj hi hij).2
    rwa [ei, ej] at this

end Sys2Proof.Machine
end

