-- ==== Sys2Proof/Laws/MatchFinder.lean ====
section
/-! SUPPORT. What the match finder answers, in the words of R142 to R147. -/

namespace Sys2Proof.Machine

theorem mem_candidates (p m d : Nat) : d ∈ candidates p m ↔ 1 ≤ d ∧ d ≤ p ∧ d ≤ m := by
  simp only [candidates, List.mem_map, List.mem_range]
  constructor
  · rintro ⟨k, hk, rfl⟩; omega
  · rintro ⟨h1, h2, h3⟩; exact ⟨d - 1, by omega, by omega⟩

theorem isCandidate_iff (s : State) (d : Nat) : IsCandidate s d ↔ d ∈ candidates s.pos.toNat (maxd s) := by
  rw [mem_candidates, IsCandidate, maxd]; omega

/-- The prefix of `0 .. n-1` on which a test holds, as a number. -/
theorem takeWhile_range (f : Nat → Bool) (n : Nat) :
    (∀ i < ((List.range n).takeWhile f).length, f i = true) ∧ ((List.range n).takeWhile f).length ≤ n ∧
      (((List.range n).takeWhile f).length < n → f ((List.range n).takeWhile f).length = false) := by
  set m := ((List.range n).takeWhile f).length with hm
  have hpre : (List.range n).takeWhile f <+: List.range n := List.takeWhile_prefix f
  have hle : m ≤ n := by simpa using hpre.length_le
  have hget : ∀ i (h : i < m), ((List.range n).takeWhile f)[i] = i := by
    intro i h
    rw [hpre.getElem h]; simp
  refine ⟨fun i hi => ?_, hle, fun hlt => ?_⟩
  · have hmem : ((List.range n).takeWhile f)[i] ∈ (List.range n).takeWhile f := List.getElem_mem hi
    rw [hget i hi] at hmem
    exact List.mem_takeWhile_imp hmem
  · have hsplit := List.takeWhile_append_dropWhile (p := f) (l := List.range n)
    have hne : (List.range n).dropWhile f ≠ [] := by
      intro h0
      have := congrArg List.length hsplit
      rw [h0] at this
      simp at this
      omega
    have hhead := List.head_dropWhile_not (p := f) hne
    have hidx : ((List.range n).dropWhile f).head hne = m := by
      have e : (List.range n)[m]'(by simpa using hlt) = m := by simp
      have e2 : ((List.range n).takeWhile f ++ (List.range n).dropWhile f)[m]'(by rw [hsplit]; simpa using hlt) =
          ((List.range n).dropWhile f).head hne := by
        rw [List.getElem_append_right (by omega), List.head_eq_getElem]
        congr 1; omega
      rw [← e2]; simp only [hsplit]; exact e
    rw [hidx] at hhead
    simpa using hhead

/-- `mlen` is the largest length for which the run agrees (R144). -/
theorem mlen_isMatchLen (s : State) (d : Nat) :
    IsMatchLen s d (mlen (ibufAt s) s.pos.toNat (lookahead s) d) := by
  obtain ⟨h1, h2, h3⟩ := takeWhile_range
    (fun i => ibufAt s (s.pos.toNat - d + i) == ibufAt s (s.pos.toNat + i)) (lookahead s)
  refine ⟨h2, fun i hi => by simpa using h1 i hi, fun j hj hag => ?_⟩
  by_contra hc
  push Not at hc
  have hlt := h3 (lt_of_lt_of_le hc hj)
  rw [beq_eq_false_iff_ne] at hlt
  exact hlt (hag _ hc)

theorem isMatchLen_unique {s : State} {d k l : Nat} (hk : IsMatchLen s d k) (hl : IsMatchLen s d l) : k = l :=
  le_antisymm (hl.2.2 k hk.1 hk.2.1) (hk.2.2 l hl.1 hl.2.1)

theorem isMatchLen_iff (s : State) (d l : Nat) :
    IsMatchLen s d l ↔ mlen (ibufAt s) s.pos.toNat (lookahead s) d = l :=
  ⟨fun h => isMatchLen_unique (mlen_isMatchLen s d) h, fun h => h ▸ mlen_isMatchLen s d⟩

theorem le_foldl_longest (len : Nat → Nat) (ds : List Nat) (m : Nat) :
    m ≤ ds.foldl (fun m d => max m (len d)) m ∧ ∀ d ∈ ds, len d ≤ ds.foldl (fun m d => max m (len d)) m := by
  induction ds generalizing m with
  | nil => simp
  | cons d ds ih =>
    obtain ⟨h1, h2⟩ := ih (max m (len d))
    refine ⟨le_trans (le_max_left _ _) h1, fun x hx => ?_⟩
    rcases List.mem_cons.mp hx with rfl | hx
    · exact le_trans (le_max_right _ _) h1
    · exact h2 x hx

theorem foldl_longest_mem (len : Nat → Nat) (ds : List Nat) (m : Nat) :
    ds.foldl (fun m d => max m (len d)) m = m ∨ ∃ d ∈ ds, len d = ds.foldl (fun m d => max m (len d)) m := by
  induction ds generalizing m with
  | nil => simp
  | cons d ds ih =>
    rcases ih (max m (len d)) with h | ⟨x, hx, h⟩
    · rcases max_choice m (len d) with hm | hm
      · left; rw [List.foldl_cons, h, hm]
      · right; exact ⟨d, by simp, by rw [List.foldl_cons, h, hm]⟩
    · right; exact ⟨x, by simp [hx], h⟩

/-- `Lmax` bounds every candidate's length and is reached unless it is 0 (R146). -/
theorem longest_spec (len : Nat → Nat) (ds : List Nat) :
    (∀ d ∈ ds, len d ≤ longest len ds) ∧ (longest len ds = 0 ∨ ∃ d ∈ ds, len d = longest len ds) :=
  ⟨(le_foldl_longest len ds 0).2, foldl_longest_mem len ds 0⟩

theorem candidates_pairwise (p m : Nat) : (candidates p m).Pairwise (· < ·) := by
  unfold candidates
  rw [List.pairwise_map]
  exact List.pairwise_lt_range.imp (by omega)

/-- The first member of a rising list that passes a test is the least that does. -/
theorem find?_rising {ds : List Nat} (h : ds.Pairwise (· < ·)) {f : Nat → Bool} {d : Nat} :
    ds.find? f = some d ↔ d ∈ ds ∧ f d = true ∧ ∀ x ∈ ds, f x = true → d ≤ x := by
  induction ds with
  | nil => simp
  | cons a ds ih =>
    obtain ⟨ha, hp⟩ := List.pairwise_cons.mp h
    rw [List.find?_cons]
    cases hf : f a with
    | true =>
      simp only [Option.some.injEq]
      constructor
      · rintro rfl
        refine ⟨by simp, hf, fun x hx _ => ?_⟩
        rcases List.mem_cons.mp hx with rfl | hx
        · exact le_refl _
        · exact le_of_lt (ha x hx)
      · rintro ⟨hd, -, hmin⟩
        rcases List.mem_cons.mp hd with rfl | hd
        · rfl
        · have := hmin a (by simp) hf
          have := ha d hd
          omega
    | false =>
      rw [ih hp]
      constructor
      · rintro ⟨h1, h2, h3⟩
        refine ⟨by simp [h1], h2, fun x hx hfx => ?_⟩
        rcases List.mem_cons.mp hx with rfl | hx
        · rw [hf] at hfx; cases hfx
        · exact h3 x hx hfx
      · rintro ⟨h1, h2, h3⟩
        rcases List.mem_cons.mp h1 with rfl | h1
        · rw [hf] at h2; cases h2
        · exact ⟨h1, h2, fun x hx => h3 x (by simp [hx])⟩

theorem findAtPos_eq (s : State) : findAtPos s =
    (let len := mlen (ibufAt s) s.pos.toNat (lookahead s)
     let ds := candidates s.pos.toNat (maxd s)
     if s.minm.toNat ≤ longest len ds then (ds.find? fun d => len d == longest len ds).map fun d => (d, longest len ds)
     else none) := rfl

/-- The search answers `(d, L)` exactly when that is the best match (R146, R147). -/
theorem findAtPos_eq_some (s : State) (d l : Nat) (hm : 1 ≤ s.minm.toNat) :
    findAtPos s = some (d, l) ↔ IsBestMatch s d l := by
  rw [findAtPos_eq]
  simp only
  set len := mlen (ibufAt s) s.pos.toNat (lookahead s) with hlen
  set ds := candidates s.pos.toNat (maxd s) with hds
  obtain ⟨hmax, hreach⟩ := longest_spec len ds
  have hrise : ds.Pairwise (· < ·) := candidates_pairwise _ _
  constructor
  · intro h
    split at h
    · rename_i hle
      rw [Option.map_eq_some_iff] at h
      obtain ⟨x, hx, he⟩ := h
      simp only [Prod.mk.injEq] at he
      obtain ⟨rfl, rfl⟩ := he
      obtain ⟨h1, h2, h3⟩ := (find?_rising hrise).mp hx
      rw [beq_iff_eq] at h2
      refine ⟨(isCandidate_iff s x).mpr h1, (isMatchLen_iff s x _).mpr h2, hle, fun d' l' hc hl' => ?_⟩
      have hc' := (isCandidate_iff s d').mp hc
      have hl'' : len d' = l' := (isMatchLen_iff s d' l').mp hl'
      have := hmax d' hc'
      rcases Nat.lt_or_ge l' (longest len ds) with hlt | hge
      · exact .inl hlt
      · exact .inr ⟨by omega, h3 d' hc' (by rw [beq_iff_eq]; omega)⟩
    · cases h
  · rintro ⟨hc, hl, hle, hbest⟩
    have hc' := (isCandidate_iff s d).mp hc
    have hl' : len d = l := (isMatchLen_iff s d l).mp hl
    have hL : longest len ds = l := by
      have h1 := hmax d hc'
      rcases hreach with h0 | ⟨x, hx, hxl⟩
      · omega
      · rcases hbest x (len x) ((isCandidate_iff s x).mpr hx) ((isMatchLen_iff s x _).mpr rfl) with h | ⟨h, -⟩ <;> omega
    rw [hL, if_pos hle, Option.map_eq_some_iff]
    refine ⟨d, (find?_rising hrise).mpr ⟨hc', by rw [beq_iff_eq]; exact hl', fun x hx hxl => ?_⟩, rfl⟩
    rw [beq_iff_eq] at hxl
    rcases hbest x _ ((isCandidate_iff s x).mpr hx) ((isMatchLen_iff s x _).mpr hxl) with h | ⟨-, h⟩
    · omega
    · exact h

/-- The search answers `None` exactly when no candidate reaches `MINM` (R147). -/
theorem findAtPos_eq_none (s : State) (hm : 1 ≤ s.minm.toNat) : findAtPos s = none ↔ NoMatch s := by
  constructor
  · intro h d l hc hl
    by_contra hcon
    push Not at hcon
    rw [findAtPos_eq] at h
    simp only at h
    set len := mlen (ibufAt s) s.pos.toNat (lookahead s) with hlen
    set ds := candidates s.pos.toNat (maxd s) with hds
    obtain ⟨hmax, hreach⟩ := longest_spec len ds
    have hc' := (isCandidate_iff s d).mp hc
    have hl' : len d = l := (isMatchLen_iff s d l).mp hl
    have h1 := hmax d hc'
    rw [if_pos (by omega), Option.map_eq_none_iff] at h
    rcases hreach with h0 | ⟨x, hx, hxl⟩
    · omega
    · have := List.find?_eq_none.mp h x hx
      simp [hxl] at this
  · intro h
    cases he : findAtPos s with
    | none => rfl
    | some r =>
      obtain ⟨d, l⟩ := r
      obtain ⟨hc, hl, hle, -⟩ := (findAtPos_eq_some s d l hm).mp he
      have := h d l hc hl
      omega

/-- What a match that was found satisfies (R147): it fits the token fields whenever `CfgOK` holds, and its bytes agree. -/
theorem findAtPos_bounds {s : State} {d l : Nat} (hcfg : cfgOK s = true) (h : findAtPos s = some (d, l)) :
    1 ≤ d ∧ d ≤ s.pos.toNat ∧ d ≤ Config.maxDistField ∧ s.minm.toNat ≤ l ∧ l ≤ s.minm.toNat + Config.maxLengthField ∧
      1 ≤ l ∧ s.pos.toNat + l ≤ s.inLen.toNat ∧ AgreesFor s d l := by
  rw [cfgOK_iff] at hcfg
  obtain ⟨hc, hl, hle, -⟩ := (findAtPos_eq_some s d l (by omega)).mp h
  obtain ⟨h1, h2, h3, h4⟩ := hc
  have := hl.1
  unfold lookahead at this
  simp only [Config.maxLengthField, Config.maxDistField] at *
  refine ⟨h1, h2, h4, hle, by omega, by omega, by omega, hl.2.1⟩

end Sys2Proof.Machine
end

