-- ==== Sys2Proof/Laws/Lzss.lean ====
section
/-! SUPPORT. What one encoder step and one decoder step of LZSS do, and that the decoder undoes the encoder (R167, R199). -/

namespace Sys2Proof.Machine

theorem toNat_ofNat32 {n : Nat} (h : n < 2 ^ 32) : (BitVec.ofNat 32 n).toNat = n := by
  rw [BitVec.toNat_ofNat, Nat.mod_eq_of_lt h]

@[simp] theorem literalToken_length (b : Byte) : (literalToken b).length = 9 := by simp [literalToken]

@[simp] theorem matchToken_length (m d l : Nat) : (matchToken m d l).length = 17 := by simp [matchToken]

theorem Token.enc_length_le (m : Nat) (t : Token) : 9 ≤ (t.enc m).length ∧ (t.enc m).length ≤ 17 := by
  cases t <;> simp [Token.enc]

theorem Token.enc_length_pos (m : Nat) (t : Token) : 0 < (t.enc m).length := by
  have := (t.enc_length_le m).1; omega

/-! ### One encoder step -/

/-- One unit of `LZ.STEP` and `LZ.ENC` that completes emits a match that was found, or the literal at `POS` (R165). -/
theorem encodeToken_ok {s t : State} (h : encodeToken s = .ok t) :
    (∃ d l, findAtPos s = some (d, l) ∧ s.obits + 17 ≤ s.obufBits ∧
      t = setEnd false (setPos (s.pos.toNat + l) (setMatch (some (d, l)) (outAppend (matchToken s.minm.toNat d l) s)))) ∨
    (findAtPos s = none ∧ s.obits + 9 ≤ s.obufBits ∧
      t = setEnd false (setPos (s.pos.toNat + 1) (setMatch none
        (outAppend (literalToken (ibufAt s s.pos.toNat)) s)))) := by
  unfold encodeToken at h
  split at h
  · rename_i d l hf
    obtain ⟨u, hu, rfl⟩ := map_eq_ok h
    obtain ⟨hfit, rfl⟩ := putUnit_eq_ok hu
    exact .inl ⟨d, l, hf, by simpa using hfit, rfl⟩
  · rename_i hf
    obtain ⟨u, hu, rfl⟩ := map_eq_ok h
    obtain ⟨hfit, rfl⟩ := putUnit_eq_ok hu
    exact .inr ⟨hf, by simpa using hfit, rfl⟩

/-- A unit of the encoder raises only `OBUF_FULL` (R165). -/
theorem encodeToken_error {s : State} {r : Raise} (h : encodeToken s = .error r) :
    r = raiseAt .obufFull s.obits ∧ s.obufBits < s.obits + (if (findAtPos s).isSome then 17 else 9) := by
  unfold encodeToken at h
  split at h
  · rename_i d l hf
    rcases putUnit_cases (matchToken s.minm.toNat d l) s with ⟨-, e⟩ | ⟨hfull, e⟩
    · rw [e] at h; simp at h
    · rw [e] at h; simp at h; simp [hf, h] ; simpa using hfull
  · rename_i hf
    rcases putUnit_cases (literalToken (ibufAt s s.pos.toNat)) s with ⟨-, e⟩ | ⟨hfull, e⟩
    · rw [e] at h; simp at h
    · rw [e] at h; simp at h; simp [hf, h]; simpa using hfull

/-! ### The copy of a match -/

/-- The bytes a copy of `l` bytes from `d` back gives, one at a time (R196). -/
def copyBytes (d : Nat) : Nat → List Byte → List Byte
  | 0, w => w
  | l + 1, w => copyBytes d l (w ++ [w.getD (w.length - d) 0])

theorem copyMatch_byteStream (d : Nat) (hd : 1 ≤ d) :
    ∀ (l : Nat) (s : State) (w : List Byte), s.ostr = byteStream w → d ≤ w.length →
      copyMatch d l s = { s with ostr := byteStream (copyBytes d l w) } := by
  intro l
  induction l with
  | zero => intro s w h _; simp only [copyMatch, copyBytes, ← h]
  | succ l ih =>
    intro s w h hdw
    have hb : outByte s (s.olen - d) = w.getD (w.length - d) 0 := by
      rw [olen_byteStream h, outByte_byteStream s w h _ (by omega), List.getD_eq_getElem?_getD,
        List.getElem?_eq_getElem (by omega)]
      rfl
    rw [copyMatch, copyBytes, hb,
      ih _ (w ++ [w.getD (w.length - d) 0]) (by simp [h, byteStream_append]) (by simp; omega)]
    rfl

/-- A copy appends `rep` of the last `d` bytes (R14, R196). -/
theorem copyBytes_eq_rep (d : Nat) (hd : 1 ≤ d) (w : List Byte) (hdw : d ≤ w.length) :
    ∀ l, copyBytes d l w = w ++ rep (w.drop (w.length - d)) l := by
  -- copying one byte more at the end
  have hsnoc : ∀ (l : Nat) (v : List Byte), d ≤ v.length →
      copyBytes d (l + 1) v = copyBytes d l v ++ [(copyBytes d l v).getD ((copyBytes d l v).length - d) 0] := by
    intro l
    induction l with
    | zero => intro v _; simp [copyBytes]
    | succ l ih =>
      intro v hv
      rw [copyBytes, ih _ (by simp; omega)]
      simp only [copyBytes]
  intro l
  induction l with
  | zero => simp [copyBytes, rep]
  | succ l ih =>
    rw [hsnoc l w hdw, ih]
    have hlen : (w.drop (w.length - d)).length = d := by simp; omega
    have hrep : rep (w.drop (w.length - d)) (l + 1) =
        rep (w.drop (w.length - d)) l ++ [(w.drop (w.length - d)).getD (l % d) 0] := by
      simp [rep, List.range_succ, hlen]
    rw [hrep, ← List.append_assoc]
    congr 2
    simp only [List.length_append, rep_length]
    rw [show w.length + l - d = (w.length - d) + l by omega]
    by_cases hl : l < d
    · rw [List.getD_append _ _ _ _ (by omega), Nat.mod_eq_of_lt hl]
      simp [List.getD_eq_getElem?_getD]
    · rw [List.getD_append_right _ _ _ _ (by omega), show w.length - d + l - w.length = l - d by omega]
      simp only [rep, List.getD_eq_getElem?_getD, List.getElem?_map, hlen]
      rw [List.getElem?_range (by omega)]
      simp only [Option.map_some, Option.getD_some]
      rw [show l % d = (l - d) % d from Nat.mod_eq_sub_mod (by omega)]

/-! ### One decoder step -/

/-- The input stream spells `w` from bit `p` on, all of it inside the stream. -/
def Spells (s : State) (p : Nat) (w : BitStr) : Prop :=
  p + w.length ≤ 8 * s.inLen.toNat ∧ ∀ j (hj : j < w.length), inBit s (p + j) = w[j]

theorem Spells.inBits {s : State} {p : Nat} {w : BitStr} (h : Spells s p w) : inBits s p w.length = w :=
  inBits_eq rfl h.2

theorem Spells.left {s : State} {p : Nat} {a b : BitStr} (h : Spells s p (a ++ b)) : Spells s p a := by
  obtain ⟨h1, h2⟩ := h
  rw [List.length_append] at h1
  refine ⟨by omega, fun j hj => ?_⟩
  rw [h2 j (by simp; omega), List.getElem_append_left hj]

theorem Spells.right {s : State} {p : Nat} {a b : BitStr} (h : Spells s p (a ++ b)) : Spells s (p + a.length) b := by
  obtain ⟨h1, h2⟩ := h
  rw [List.length_append] at h1
  refine ⟨by omega, fun j hj => ?_⟩
  have := h2 (a.length + j) (by simp; omega)
  rw [Nat.add_assoc, this, List.getElem_append_right (by omega)]
  congr 1; omega

/-- The input of two states is the same. -/
theorem Spells.congr {s t : State} {p : Nat} {w : BitStr} (h : Spells s p w) (hl : t.inLen = s.inLen)
    (hb : ∀ i, ibufAt t i = ibufAt s i) : Spells t p w := by
  refine ⟨by rw [hl]; exact h.1, fun j hj => ?_⟩
  rw [← h.2 j hj, inBit, inBit, hb]

/-- What the registers show after a token was decoded (R191). -/
def tokenRegs : Token → State → State
  | .literal b, s => setToken .literal b 0 0 s
  | .matched d l, s => setToken .matched 0 d l s

/-- One decoder step on an acceptable token that fits: it appends the token's bytes and consumes its bits
(R193, R194, R196). -/
theorem decodeToken_spells {s : State} {w : List Byte} {t : Token} (hw : s.ostr = byteStream w)
    (hin : Spells s s.bitpos.toNat (t.enc s.minm.toNat)) (hv : t.valid s.minm.toNat w.length)
    (hfit : 8 * (t.expand w).length ≤ s.obufBits) :
    decodeToken s = .ok (setEnd false (setBitpos (s.bitpos.toNat + (t.enc s.minm.toNat).length)
      (tokenRegs t { s with ostr := byteStream (t.expand w) }))) := by
  have hob := obits_byteStream hw
  cases t with
  | literal b =>
    have hin' : Spells s s.bitpos.toNat ([false] ++ bits 8 b.toNat) := hin
    have hlen := hin'.1
    simp only [List.length_append, List.length_singleton, bits_length] at hlen
    have hbit : inBit s s.bitpos.toNat = false := by simpa using hin'.2 0 (by simp)
    have hbyte : inBits s (s.bitpos.toNat + 1) 8 = bits 8 b.toNat := by simpa using hin'.right.inBits
    have hfit' : s.obits + (bits 8 b.toNat).length ≤ s.obufBits := by
      simp [Token.expand] at hfit; simp; omega
    have hun : ¬ unreadBits s < 9 := by unfold unreadBits; omega
    simp only [decodeToken, if_neg hun, hbit, Bool.false_eq_true, if_false, decodeLiteral, hbyte, ofNat_val_bits,
      putUnit_ok hfit', map_ok]
    simp [outAppend, setToken, setBitpos, setEnd, tokenRegs, Token.enc, Token.expand, hw, byteStream_append]
  | matched d l =>
    obtain ⟨hd1, hdn, hdm, hl1, hl2⟩ := hv
    simp only [Config.maxDistField, Config.maxLengthField] at hdm hl2
    have hin' : Spells s s.bitpos.toNat ([true] ++ (bits 12 d ++ bits 4 (l - s.minm.toNat))) := hin
    have hlen := hin'.1
    simp only [List.length_append, List.length_singleton, bits_length] at hlen
    have hbit : inBit s s.bitpos.toNat = true := by simpa using hin'.2 0 (by simp)
    have hdist : inBits s (s.bitpos.toNat + 1) 12 = bits 12 d := by simpa using hin'.right.left.inBits
    have hlenf : inBits s (s.bitpos.toNat + 13) 4 = bits 4 (l - s.minm.toNat) := by
      have := hin'.right.right.inBits
      simpa [Nat.add_assoc] using this
    have hvd : val (bits 12 d) = d := val_bits _ _ (by omega)
    have hvl : val (bits 4 (l - s.minm.toNat)) + s.minm.toNat = l := by rw [val_bits _ _ (by omega)]; omega
    have hol : s.olen = w.length := olen_byteStream hw
    have hexp : (Token.matched d l).expand w = copyBytes d l w := (copyBytes_eq_rep d hd1 w hdn l).symm
    have hfit' : s.fits (8 * l) = true := by
      rw [fits_iff, hob]
      simp [Token.expand] at hfit
      omega
    have h9 : ¬ unreadBits s < 9 := by unfold unreadBits; omega
    have h17 : ¬ unreadBits s < 17 := by unfold unreadBits; omega
    simp only [decodeToken, if_neg h9, hbit, if_true, decodeMatch, hdist, hlenf, hvd, hvl, if_neg h17, hol,
      if_neg (show ¬ d = 0 by omega), if_neg (show ¬ w.length < d by omega), hfit',
      copyMatch_byteStream d hd1 l s w hw hdn, hexp]
    simp [Token.enc, tokenRegs]

/-! ### The decoder on a token stream (R199) -/

/-- Expanding one token never loses bytes. -/
theorem Token.length_le_expand (w : List Byte) (t : Token) : w.length ≤ (t.expand w).length := by
  cases t <;> simp [Token.expand]

theorem length_le_expandTokens (w : List Byte) (ts : List Token) : w.length ≤ (expandTokens w ts).length := by
  induction ts generalizing w with
  | nil => exact le_refl _
  | cons t ts ih => exact le_trans (t.length_le_expand w) (ih _)

/-- The loop of `LZ.DEC` on a stream of acceptable tokens and fewer than 9 further bits: it ends with their bytes. -/
theorem iterate_decodeToken (ts : List Token) :
    ∀ (s : State) (w : List Byte) (pad : BitStr) (fuel : Nat),
      s.endFlag = false → s.inLen.toNat < 2 ^ 28 + 1 → s.ostr = byteStream w →
      Spells s s.bitpos.toNat (encTokens s.minm.toNat ts ++ pad) →
      s.bitpos.toNat + (encTokens s.minm.toNat ts ++ pad).length = 8 * s.inLen.toNat → pad.length < 9 →
      validTokens s.minm.toNat w ts → 8 * (expandTokens w ts).length ≤ s.obufBits → ts.length < fuel →
      iterate (·.endFlag) decodeToken fuel s =
        ({ s with
            ostr := byteStream (expandTokens w ts)
            bitpos := BitVec.ofNat 32 (s.bitpos.toNat + (encTokens s.minm.toNat ts).length)
            tKind := .none, tByte := 0, tDist := 0, tLen := 0, endFlag := true }, none) := by
  induction ts with
  | nil =>
    intro s w pad fuel hend hin hw hsp hlen hpad hv hfit hfuel
    obtain ⟨f, rfl⟩ : ∃ f, fuel = f + 1 := ⟨fuel - 1, by omega⟩
    have hun : unreadBits s < 9 := by
      unfold unreadBits; simp [encTokens] at hlen; omega
    have hd : decodeToken s = .ok (setTerminal s) := by rw [decodeToken, if_pos hun]
    rw [iterate_succ (done := (·.endFlag)) hend hd, iterate_of_done (by simp)]
    simp [setTerminal, setToken, setEnd, encTokens, expandTokens, hw]
  | cons t ts ih =>
    intro s w pad fuel hend hin hw hsp hlen hpad hv hfit hfuel
    obtain ⟨f, rfl⟩ : ∃ f, fuel = f + 1 := ⟨fuel - 1, by omega⟩
    have henc : encTokens s.minm.toNat (t :: ts) = t.enc s.minm.toNat ++ encTokens s.minm.toNat ts := by
      simp [encTokens]
    have hexp : expandTokens w (t :: ts) = expandTokens (t.expand w) ts := rfl
    rw [henc, List.append_assoc] at hsp hlen
    rw [hexp] at hfit
    have hfit1 : 8 * (t.expand w).length ≤ s.obufBits :=
      le_trans (Nat.mul_le_mul_left 8 (length_le_expandTokens _ ts)) hfit
    have hd := decodeToken_spells hw hsp.left hv.1 hfit1
    set u := setEnd false (setBitpos (s.bitpos.toNat + (t.enc s.minm.toNat).length)
      (tokenRegs t { s with ostr := byteStream (t.expand w) })) with hu
    have hpos : u.bitpos.toNat = s.bitpos.toNat + (t.enc s.minm.toNat).length := by
      have : u.bitpos = BitVec.ofNat 32 (s.bitpos.toNat + (t.enc s.minm.toNat).length) := by rw [hu]; simp
      rw [this, toNat_ofNat32]
      rw [List.length_append] at hlen
      omega
    have humin : u.minm = s.minm := by rw [hu]; cases t <;> rfl
    have huin : u.inLen = s.inLen := by rw [hu]; cases t <;> rfl
    have hubuf : ∀ i, ibufAt u i = ibufAt s i := by intro i; rw [hu]; cases t <;> rfl
    have huob : u.obufBits = s.obufBits := by rw [hu]; cases t <;> rfl
    have huw : u.ostr = byteStream (t.expand w) := by rw [hu]; cases t <;> rfl
    rw [iterate_succ (done := (·.endFlag)) hend hd]
    rw [ih u (t.expand w) pad f (by rw [hu]; rfl) (by rw [huin]; exact hin) huw
      (by rw [humin, hpos]; exact hsp.right.congr huin hubuf)
      (by rw [humin, hpos, huin]; rw [List.length_append] at hlen; omega) hpad
      (by rw [humin]; exact hv.2) (by rw [huob]; exact hfit) (by simp at hfuel; omega)]
    rw [humin, hpos, hexp, henc, List.length_append, hu]
    cases t <;> simp [setEnd, setBitpos, setToken, tokenRegs, Nat.add_assoc]

/-! ### The encoder's tokens -/

theorem inputBytes_take_succ (s : State) (p : Nat) (hp : p < s.inLen.toNat) :
    (inputBytes s).take (p + 1) = (inputBytes s).take p ++ [ibufAt s p] := by
  rw [List.take_add_one, inputBytes]
  simp [hp]

theorem inputBytes_length (s : State) : (inputBytes s).length = s.inLen.toNat := by simp [inputBytes]

/-- A match that agrees for `l` symbols copies the next `l` input bytes (R145). -/
theorem copyBytes_input (s : State) (d : Nat) (hd : 1 ≤ d) :
    ∀ (l p : Nat), d ≤ p → p + l ≤ s.inLen.toNat → (∀ i < l, ibufAt s (p - d + i) = ibufAt s (p + i)) →
      copyBytes d l ((inputBytes s).take p) = (inputBytes s).take (p + l) := by
  intro l
  induction l with
  | zero => intro p _ _ _; rfl
  | succ l ih =>
    intro p hdp hpl hag
    have hlen : ((inputBytes s).take p).length = p := by simp [inputBytes_length]; omega
    have hbyte : ((inputBytes s).take p).getD (((inputBytes s).take p).length - d) 0 = ibufAt s p := by
      rw [hlen, List.getD_eq_getElem?_getD, List.getElem?_take, if_pos (by omega)]
      have : (inputBytes s)[p - d]? = some (ibufAt s (p - d)) := by
        simp [inputBytes, show p - d < s.inLen.toNat by omega]
      rw [this]
      simpa using hag 0 (by omega)
    rw [copyBytes, hbyte, ← inputBytes_take_succ s p (by omega),
      ih (p + 1) (by omega) (by omega) fun i hi => by
        have := hag (i + 1) (by omega)
        rwa [show p + 1 - d + i = p - d + (i + 1) by omega, show p + 1 + i = p + (i + 1) by omega]]
    congr 1; omega

theorem expandTokens_snoc (w : List Byte) (ts : List Token) (t : Token) :
    expandTokens w (ts ++ [t]) = t.expand (expandTokens w ts) := by simp [expandTokens]

theorem encTokens_snoc (m : Nat) (ts : List Token) (t : Token) :
    encTokens m (ts ++ [t]) = encTokens m ts ++ t.enc m := by simp [encTokens]

theorem validTokens_snoc (m : Nat) (w : List Byte) (ts : List Token) (t : Token) :
    validTokens m w (ts ++ [t]) ↔ validTokens m w ts ∧ t.valid m (expandTokens w ts).length := by
  induction ts generalizing w with
  | nil => simp [validTokens, expandTokens]
  | cons a ts ih =>
    rw [List.cons_append, validTokens, validTokens, ih, and_assoc]
    rfl

/-- What the encoder has done when it stands at `POS`: the output is the encoding of tokens that stand for the input before
`POS` (R165, R167). `s` is the state of the start. -/
structure Encoded (s t : State) (ts : List Token) : Prop where
  stream : t.ostr = encTokens s.minm.toNat ts
  bytes : expandTokens [] ts = (inputBytes s).take t.pos.toNat
  valid : validTokens s.minm.toNat [] ts
  inside : t.pos.toNat ≤ s.inLen.toNat
  count : ts.length ≤ t.pos.toNat
  size : t.obits ≤ 17 * t.pos.toNat ∧ (2 ≤ s.minm.toNat → t.obits ≤ 9 * t.pos.toNat)
  same : { t with ostr := s.ostr, pos := s.pos, mvalid := s.mvalid, mDist := s.mDist, mLen := s.mLen,
                  endFlag := s.endFlag } = s

theorem Encoded.inLen {s t : State} {ts : List Token} (h : Encoded s t ts) : t.inLen = s.inLen := by
  have := congrArg State.inLen h.same; exact this

theorem Encoded.minm {s t : State} {ts : List Token} (h : Encoded s t ts) : t.minm = s.minm := by
  have := congrArg State.minm h.same; exact this

theorem Encoded.byteAt {s t : State} {ts : List Token} (h : Encoded s t ts) (i : Nat) : ibufAt t i = ibufAt s i := by
  have := congrArg (fun x => ibufAt x i) h.same; exact this

theorem Encoded.cfg {s t : State} {ts : List Token} (h : Encoded s t ts) : cfgOK t = cfgOK s := by
  have := congrArg cfgOK h.same; exact this

/-- One more unit of the encoder extends the tokens by one. -/
theorem Encoded.step {s t u : State} {ts : List Token} (h : Encoded s t ts) (hcfg : cfgOK s = true)
    (hend : atInputEnd t = false) (hu : encodeToken t = .ok u) : ∃ k, Encoded s u (ts ++ [k]) ∧ t.pos.toNat < u.pos.toNat := by
  have e1 := h.inLen
  have e2 := h.minm
  have e3 := h.byteAt
  have e4 := h.cfg
  obtain ⟨hstream, hbytes, hvalid, hinside, hcount, hsize, hsame⟩ := h
  have hlt : t.pos.toNat < s.inLen.toNat := by
    simp only [atInputEnd, decide_eq_false_iff_not, not_le, e1] at hend
    exact hend
  have hN : s.inLen.toNat < 2 ^ 32 := s.inLen.isLt
  have hlen : (expandTokens [] ts).length = t.pos.toNat := by
    rw [hbytes]; simp [inputBytes_length]; omega
  rcases encodeToken_ok hu with ⟨d, l, hf, -, rfl⟩ | ⟨hf, -, rfl⟩
  · obtain ⟨b1, b2, b3, b4, b5, b6, b7, b8⟩ := findAtPos_bounds (by rw [e4]; exact hcfg) hf
    rw [e1] at b7
    rw [e2] at b4 b5
    have hpos : (BitVec.ofNat 32 (t.pos.toNat + l)).toNat = t.pos.toNat + l := toNat_ofNat32 (by omega)
    refine ⟨.matched d l, ⟨?_, ?_, ?_, ?_, ?_, ?_, ?_⟩, ?_⟩
    · simp only [setEnd_ostr, setPos_ostr, setMatch_ostr, outAppend_ostr, encTokens_snoc, hstream, e2]
      rfl
    · rw [expandTokens_snoc]
      have hag : ∀ i < l, ibufAt s (t.pos.toNat - d + i) = ibufAt s (t.pos.toNat + i) := fun i hi => by
        have := b8 i hi; rwa [e3, e3] at this
      have hc := copyBytes_input s d b1 l t.pos.toNat b2 b7 hag
      have hlen2 : ((inputBytes s).take t.pos.toNat).length = t.pos.toNat := by rw [← hbytes]; exact hlen
      rw [copyBytes_eq_rep d b1 _ (by omega)] at hc
      simp only [setEnd_pos, setPos_pos, hpos]
      rw [Token.expand, hbytes]
      exact hc
    · rw [validTokens_snoc]
      exact ⟨hvalid, b1, by omega, b3, b4, b5⟩
    · simp only [setEnd_pos, setPos_pos, hpos]; exact b7
    · simp only [setEnd_pos, setPos_pos, hpos, List.length_append, List.length_singleton]; omega
    · simp only [State.obits, setEnd_pos, setPos_pos, hpos, setEnd_ostr, setPos_ostr, setMatch_ostr, outAppend_ostr,
        List.length_append, matchToken_length] at hsize ⊢
      exact ⟨by omega, fun h => by have := hsize.2 h; omega⟩
    · exact hsame
    · simp only [setEnd_pos, setPos_pos, hpos]; omega
  · have hpos : (BitVec.ofNat 32 (t.pos.toNat + 1)).toNat = t.pos.toNat + 1 := toNat_ofNat32 (by omega)
    refine ⟨.literal (ibufAt s t.pos.toNat), ⟨?_, ?_, ?_, ?_, ?_, ?_, ?_⟩, ?_⟩
    · simp only [setEnd_ostr, setPos_ostr, setMatch_ostr, outAppend_ostr, encTokens_snoc, hstream, e3]
      rfl
    · rw [expandTokens_snoc]
      simp only [setEnd_pos, setPos_pos, hpos]
      rw [Token.expand, hbytes, inputBytes_take_succ s _ hlt]
    · rw [validTokens_snoc]
      exact ⟨hvalid, trivial⟩
    · simp only [setEnd_pos, setPos_pos, hpos]; omega
    · simp only [setEnd_pos, setPos_pos, hpos, List.length_append, List.length_singleton]; omega
    · simp only [State.obits, setEnd_pos, setPos_pos, hpos, setEnd_ostr, setPos_ostr, setMatch_ostr, outAppend_ostr,
        List.length_append, literalToken_length] at hsize ⊢
      exact ⟨by omega, fun h => by have := hsize.2 h; omega⟩
    · exact hsame
    · simp only [setEnd_pos, setPos_pos, hpos]; omega

theorem Encoded.start (s : State) : Encoded (encodeStart s) (encodeStart s) [] :=
  ⟨rfl, rfl, trivial, Nat.zero_le _, Nat.le_refl _, by simp [encodeStart, State.obits], rfl⟩

/-- The loop of `LZ.ENC` ends with tokens that stand for the input before `POS`; if it did not raise, for all of it. -/
theorem iterate_encodeToken (s : State) (hcfg : cfgOK s = true) :
    ∃ ts, Encoded (encodeStart s) (iterate atInputEnd encodeToken s.inLen.toNat (encodeStart s)).1 ts ∧
      ((iterate atInputEnd encodeToken s.inLen.toNat (encodeStart s)).2 = none →
        (iterate atInputEnd encodeToken s.inLen.toNat (encodeStart s)).1.pos = s.inLen) := by
  have hcfg' : cfgOK (encodeStart s) = true := hcfg
  have hkeep := iterate_keeps (done := atInputEnd) (unit := encodeToken)
    (fun t => ∃ ts, Encoded (encodeStart s) t ts)
    (fun t u ⟨ts, h⟩ hd hu => by
      obtain ⟨k, hk, -⟩ := h.step hcfg' hd hu
      exact ⟨_, hk⟩) s.inLen.toNat (encodeStart s) ⟨[], Encoded.start s⟩
  obtain ⟨ts, hts⟩ := hkeep
  refine ⟨ts, hts, fun hnone => ?_⟩
  have hdone := iterate_done (done := atInputEnd) (unit := encodeToken)
    (fun t => s.inLen.toNat - t.pos.toNat) (fun t => ∃ ts, Encoded (encodeStart s) t ts)
    (fun t u ⟨ts, h⟩ hd hu => by
      obtain ⟨k, hk, hlt⟩ := h.step hcfg' hd hu
      refine ⟨⟨_, hk⟩, ?_⟩
      have : t.pos.toNat < s.inLen.toNat := by
        have e1 : t.inLen = s.inLen := h.inLen
        simp only [atInputEnd, decide_eq_false_iff_not, not_le, e1] at hd
        exact hd
      omega)
    (fun t ⟨ts, h⟩ h0 => by
      have e1 : t.inLen = s.inLen := h.inLen
      simp only [atInputEnd, e1, decide_eq_true_eq]; omega)
    s.inLen.toNat (encodeStart s) (iterate atInputEnd encodeToken s.inLen.toNat (encodeStart s)).1
    ⟨[], Encoded.start s⟩ (by simp) (by rw [← hnone])
  have e1 : (iterate atInputEnd encodeToken s.inLen.toNat (encodeStart s)).1.inLen = s.inLen :=
    hts.inLen
  simp only [atInputEnd, e1, decide_eq_true_eq] at hdone
  have := hts.inside
  apply BitVec.eq_of_toNat_eq
  exact le_antisymm this hdone

end Sys2Proof.Machine
end

