-- ==== Sys2Proof/Laws/Units.lean ====
section
/-! SUPPORT. The units of the pipelines, as functions of the model and as the relations of Safety.lean: each completes exactly
as the relation says and raises exactly the faults it says (R165, R191, R245). -/

namespace Sys2Proof.Machine

theorem room_iff (s : State) (n : Nat) : Room s n ↔ s.obits + n ≤ s.obufBits := Iff.rfl

theorem CfgOK.iff (s : State) : CfgOK s ↔ cfgOK s = true := (cfgOK_iff s).symm

theorem LenOK.iff (s : State) : LenOK s ↔ lenOK s = true := (lenOK_iff s).symm

/-! ### The LZSS encoder (R165) -/

theorem encodeToken_of_best {s : State} {d l : Nat} (hcfg : CfgOK s) (h : IsBestMatch s d l) (hr : Room s 17) :
    encodeToken s = .ok { s with
      ostr := s.ostr ++ true :: (bits 12 d ++ bits 4 (l - s.minm.toNat))
      mvalid := true, mDist := BitVec.ofNat 32 d, mLen := BitVec.ofNat 32 l
      pos := BitVec.ofNat 32 (s.pos.toNat + l), endFlag := false } := by
  have hf := (findAtPos_eq_some s d l hcfg.2.2.1).mpr h
  rw [encodeToken, hf]
  simp only
  rw [putUnit_ok (by rw [matchToken_length]; exact hr)]
  rfl

theorem encodeToken_of_none {s : State} (hcfg : CfgOK s) (h : NoMatch s) (hr : Room s 9) :
    encodeToken s = .ok { s with
      ostr := s.ostr ++ false :: bits 8 (ibufAt s s.pos.toNat).toNat
      mvalid := false, mDist := 0, mLen := 0
      pos := BitVec.ofNat 32 (s.pos.toNat + 1), endFlag := false } := by
  have hf := (findAtPos_eq_none s hcfg.2.2.1).mpr h
  rw [encodeToken, hf]
  simp only
  rw [putUnit_ok (by rw [literalToken_length]; exact hr)]
  rfl

theorem encodeToken_of_full {s : State} (hcfg : CfgOK s) (h : EncodeFull s) :
    encodeToken s = .error (raiseAt .obufFull s.obits) := by
  rcases h with ⟨-, ⟨d, l, hb, hr⟩ | ⟨hn, hr⟩⟩
  · have hf := (findAtPos_eq_some s d l hcfg.2.2.1).mpr hb
    rw [encodeToken, hf]
    simp only
    rw [putUnit_full (by rw [matchToken_length]; rw [room_iff] at hr; omega)]
    rfl
  · have hf := (findAtPos_eq_none s hcfg.2.2.1).mpr hn
    rw [encodeToken, hf]
    simp only
    rw [putUnit_full (by rw [literalToken_length]; rw [room_iff] at hr; omega)]
    rfl

/-- Either there is a best match or there is none (R146, R147). -/
theorem best_or_none (s : State) (hm : 1 ≤ s.minm.toNat) : (∃ d l, IsBestMatch s d l) ∨ NoMatch s := by
  cases h : findAtPos s with
  | none => exact .inr ((findAtPos_eq_none s hm).mp h)
  | some r => exact .inl ⟨r.1, r.2, (findAtPos_eq_some s r.1 r.2 hm).mp h⟩

theorem IsBestMatch.unique {s : State} {d l d' l' : Nat} (hm : 1 ≤ s.minm.toNat) (h : IsBestMatch s d l)
    (h' : IsBestMatch s d' l') : d = d' ∧ l = l' := by
  have a := (findAtPos_eq_some s d l hm).mpr h
  have b := (findAtPos_eq_some s d' l' hm).mpr h'
  rw [a] at b
  simpa using b

theorem EncodeStep.ok {s t : State} (hcfg : CfgOK s) (h : EncodeStep s t) : encodeToken s = .ok t := by
  cases h with
  | matched d l more best room => exact encodeToken_of_best hcfg best room
  | literal more none room => exact encodeToken_of_none hcfg none room

/-- Before the end, one unit completes or does not fit. -/
theorem encode_total {s : State} (hcfg : CfgOK s) (hpos : s.pos.toNat < s.inLen.toNat) :
    (∃ t, EncodeStep s t) ∨ EncodeFull s := by
  rcases best_or_none s hcfg.2.2.1 with ⟨d, l, hb⟩ | hn
  · by_cases hr : Room s 17
    · exact .inl ⟨_, .matched d l hpos hb hr⟩
    · exact .inr ⟨hpos, .inl ⟨d, l, hb, hr⟩⟩
  · by_cases hr : Room s 9
    · exact .inl ⟨_, .literal hpos hn hr⟩
    · exact .inr ⟨hpos, .inr ⟨hn, hr⟩⟩

theorem EncodeStep.more {s t : State} (h : EncodeStep s t) : s.pos.toNat < s.inLen.toNat := by
  cases h <;> assumption

theorem atInputEnd_false {s : State} : atInputEnd s = false ↔ s.pos.toNat < s.inLen.toNat := by
  simp [atInputEnd]

theorem EncodeStep.round_iff {s t : State} (hcfg : CfgOK s) : Round atInputEnd encodeToken s t ↔ EncodeStep s t := by
  constructor
  · rintro ⟨hd, hu⟩
    have hpos := atInputEnd_false.mp hd
    rcases encode_total hcfg hpos with ⟨u, hu'⟩ | hf
    · have := (hu'.ok hcfg).symm.trans hu
      simp only [Except.ok.injEq] at this
      exact this ▸ hu'
    · rw [encodeToken_of_full hcfg hf] at hu; cases hu
  · intro h
    exact ⟨atInputEnd_false.mpr h.more, h.ok hcfg⟩

theorem EncodeStep.keeps {s t : State} (h : EncodeStep s t) :
    t = { s with ostr := t.ostr, mvalid := t.mvalid, mDist := t.mDist, mLen := t.mLen, pos := t.pos, endFlag := t.endFlag } := by
  cases h <;> rfl

/-- No step of the encoder ends it or records a payload length (R165, R166). -/
theorem encode_path_running {s t : State} (hend : s.endFlag = false) (h : Relation.ReflTransGen EncodeStep s t) :
    t.endFlag = false ∧ t.pbits = s.pbits := by
  induction h with
  | refl => exact ⟨hend, rfl⟩
  | tail _ hbc ih => cases hbc <;> exact ⟨rfl, ih.2⟩

theorem EncodeStep.cfg {s t : State} (h : EncodeStep s t) (hcfg : CfgOK s) : CfgOK t := by
  rw [h.keeps]; exact hcfg

/-- A step of the encoder moves `POS` on, within the input (R165, R169). -/
theorem EncodeStep.pos_lt {s t : State} (hcfg : CfgOK s) (h : EncodeStep s t) :
    s.pos.toNat < t.pos.toNat ∧ t.pos.toNat ≤ s.inLen.toNat := by
  have hN := s.inLen.isLt
  cases h with
  | matched d l more best room =>
    have hb := findAtPos_bounds ((CfgOK.iff s).mp hcfg) ((findAtPos_eq_some s d l hcfg.2.2.1).mpr best)
    simp only
    rw [toNat_ofNat32 (by omega)]
    omega
  | literal more none room =>
    simp only
    rw [toNat_ofNat32 (by omega)]
    omega

theorem encode_rounds {s t : State} (hcfg : CfgOK s) :
    Relation.ReflTransGen (Round atInputEnd encodeToken) s t ↔ Relation.ReflTransGen EncodeStep s t := by
  constructor
  · intro h
    have : Relation.ReflTransGen EncodeStep s t ∧ CfgOK t := by
      induction h with
      | refl => exact ⟨.refl, hcfg⟩
      | tail _ hbc ih =>
        have := (EncodeStep.round_iff ih.2).mp hbc
        exact ⟨ih.1.tail this, this.cfg ih.2⟩
    exact this.1
  · intro h
    have : Relation.ReflTransGen (Round atInputEnd encodeToken) s t ∧ CfgOK t := by
      induction h with
      | refl => exact ⟨.refl, hcfg⟩
      | tail _ hbc ih => exact ⟨ih.1.tail ((EncodeStep.round_iff ih.2).mpr hbc), hbc.cfg ih.2⟩
    exact this.1

theorem encode_path_keeps {s t : State} (hcfg : CfgOK s) (hpos : s.pos.toNat ≤ s.inLen.toNat)
    (h : Relation.ReflTransGen EncodeStep s t) : CfgOK t ∧ t.pos.toNat ≤ t.inLen.toNat ∧ t.inLen = s.inLen := by
  induction h with
  | refl => exact ⟨hcfg, hpos, rfl⟩
  | tail _ hbc ih =>
    have e : _ := congrArg State.inLen hbc.keeps
    simp only at e
    exact ⟨hbc.cfg ih.1, by rw [e]; exact (hbc.pos_lt ih.1).2, e.trans ih.2.2⟩

/-- The loop of `LZ.ENC`, by its steps (R166). -/
theorem encode_measure (s : State) : ∀ a b, (CfgOK a ∧ a.inLen = s.inLen) → atInputEnd a = false → encodeToken a = .ok b →
    (CfgOK b ∧ b.inLen = s.inLen) ∧ s.inLen.toNat - b.pos.toNat < s.inLen.toNat - a.pos.toNat := by
  intro a b ⟨hc, hl⟩ hd hu
  have hs := (EncodeStep.round_iff hc).mp ⟨hd, hu⟩
  have e : _ := congrArg State.inLen hs.keeps
  simp only at e
  have := hs.pos_lt hc
  have := hs.more
  rw [hl] at *
  exact ⟨⟨hs.cfg hc, e⟩, by omega⟩

theorem encode_zero (s : State) : ∀ a, (CfgOK a ∧ a.inLen = s.inLen) → s.inLen.toNat - a.pos.toNat = 0 → atInputEnd a = true := by
  intro a ⟨_, hl⟩ h0
  simp only [atInputEnd, hl, decide_eq_true_eq]; omega

/-! ### The LZSS decoder (R191) -/

theorem inBits_eq_bits (s : State) (i n : Nat) : inBits s i n = bits n (val (inBits s i n)) := by
  conv => lhs; rw [← bits_val (inBits s i n), inBits_length]

theorem val_inBits_lt (s : State) (i n : Nat) : val (inBits s i n) < 2 ^ n := by
  have := val_lt (inBits s i n)
  rwa [inBits_length] at this

theorem val_inBits_eq {s : State} {i n v : Nat} (h : inBits s i n = bits n v) (hv : v < 2 ^ n) : val (inBits s i n) = v := by
  rw [h, val_bits n v hv]

/-- A completed match copy in the words of R196. -/
theorem copyMatch_aligned {s : State} (h8 : s.obits % 8 = 0) {d : Nat} (hd : 1 ≤ d) (hdn : d ≤ s.olen) (l : Nat) :
    copyMatch d l s = { s with ostr := s.ostr ++ byteStream (rep ((outBytes s).drop (s.olen - d)) l) } := by
  have hw := ostr_eq_byteStream h8
  have hlen : (outBytes s).length = s.olen := outBytes_length s
  rw [copyMatch_byteStream d hd l s (outBytes s) hw (by omega), copyBytes_eq_rep d hd _ (by omega), byteStream_append, ← hw, hlen]

theorem DecodeStep.ok {s t : State} (h8 : s.obits % 8 = 0) (h : DecodeStep s t) : decodeToken s = .ok t := by
  cases h with
  | terminal few => rw [decodeToken, if_pos (show unreadBits s < 9 from few)]; rfl
  | literal b nine flag byte room =>
    rw [decodeToken, if_neg (show ¬ unreadBits s < 9 by unfold unreadBits; omega), flag]
    simp only [Bool.false_eq_true, if_false, decodeLiteral, byte, ofNat_val_bits]
    rw [putUnit_ok (by rw [bits_length]; exact room)]
    rfl
  | matched d f whole flag dist len lo hi field back room =>
    have h17 : ¬ unreadBits s < 17 := by unfold unreadBits; omega
    rw [decodeToken, if_neg (show ¬ unreadBits s < 9 by omega), flag]
    simp only [if_true, decodeMatch, val_inBits_eq dist (by omega), val_inBits_eq len (by omega), if_neg h17,
      if_neg (show ¬ d = 0 by omega), if_neg (show ¬ s.olen < d by omega)]
    rw [if_pos ((fits_iff _ _).mpr room), copyMatch_aligned h8 lo back]
    rfl

theorem DecodeFault.error {s : State} {n : BitVec 8} {w : Word} (h : DecodeFault s n w) :
    ∃ c : ErrCode, c.code = n ∧ decodeToken s = .error (c, w) := by
  have ofn : ∀ x : Word, BitVec.ofNat 32 x.toNat = x := fun x => by simp
  cases h with
  | literalFull nine flag full =>
    refine ⟨.obufFull, rfl, ?_⟩
    rw [decodeToken, if_neg (show ¬ unreadBits s < 9 by unfold unreadBits; omega), flag]
    simp only [Bool.false_eq_true, if_false, decodeLiteral]
    rw [putUnit_full (by rw [bits_length]; rw [room_iff] at full; omega)]
    rfl
  | truncated nine flag short =>
    refine ⟨.lzTrunc, rfl, ?_⟩
    rw [decodeToken, if_neg (show ¬ unreadBits s < 9 by unfold unreadBits; omega), flag]
    simp only [if_true, decodeMatch]
    rw [if_pos (show unreadBits s < 17 by unfold unreadBits; omega), raiseAt, ofn]
  | distZero whole flag zero =>
    refine ⟨.lzDistZero, rfl, ?_⟩
    have h17 : ¬ unreadBits s < 17 := by unfold unreadBits; omega
    rw [decodeToken, if_neg (show ¬ unreadBits s < 9 by omega), flag]
    simp only [if_true, decodeMatch, val_inBits_eq zero (by omega), if_neg h17]
    rw [raiseAt, ofn]
  | distRange d whole flag dist hi far =>
    refine ⟨.lzDistRange, rfl, ?_⟩
    have h17 : ¬ unreadBits s < 17 := by unfold unreadBits; omega
    rw [decodeToken, if_neg (show ¬ unreadBits s < 9 by omega), flag]
    simp only [if_true, decodeMatch, val_inBits_eq dist (by omega), if_neg h17, if_neg (show ¬ d = 0 by omega), if_pos far]
    rw [raiseAt, ofn]
  | matchFull d f whole flag dist len lo hi field back full =>
    refine ⟨.obufFull, rfl, ?_⟩
    have h17 : ¬ unreadBits s < 17 := by unfold unreadBits; omega
    rw [decodeToken, if_neg (show ¬ unreadBits s < 9 by omega), flag]
    simp only [if_true, decodeMatch, val_inBits_eq dist (by omega), val_inBits_eq len (by omega), if_neg h17,
      if_neg (show ¬ d = 0 by omega), if_neg (show ¬ s.olen < d by omega)]
    rw [if_neg (fun h => full ((fits_iff _ _).mp h))]
    rfl

/-- One unit of the decoder completes or raises. -/
theorem decode_total (s : State) : (∃ t, DecodeStep s t) ∨ ∃ n w, DecodeFault s n w := by
  by_cases h9 : 8 * s.inLen.toNat - s.bitpos.toNat < 9
  · exact .inl ⟨_, .terminal h9⟩
  cases hflag : inBit s s.bitpos.toNat with
  | false =>
    by_cases hr : Room s 8
    · refine .inl ⟨_, .literal (BitVec.ofNat 8 (val (inBits s (s.bitpos.toNat + 1) 8))) (by omega) hflag ?_ hr⟩
      have := val_inBits_lt s (s.bitpos.toNat + 1) 8
      rw [BitVec.toNat_ofNat, Nat.mod_eq_of_lt this, ← inBits_eq_bits]
    · exact .inr ⟨_, _, .literalFull (by omega) hflag hr⟩
  | true =>
    by_cases h17 : 8 * s.inLen.toNat - s.bitpos.toNat < 17
    · exact .inr ⟨_, _, .truncated (by omega) hflag h17⟩
    · have hd := val_inBits_lt s (s.bitpos.toNat + 1) 12
      have hf := val_inBits_lt s (s.bitpos.toNat + 13) 4
      have ed := inBits_eq_bits s (s.bitpos.toNat + 1) 12
      have ef := inBits_eq_bits s (s.bitpos.toNat + 13) 4
      by_cases h0 : val (inBits s (s.bitpos.toNat + 1) 12) = 0
      · exact .inr ⟨_, _, .distZero (by omega) hflag (by rw [h0] at ed; exact ed)⟩
      · by_cases hfar : s.olen < val (inBits s (s.bitpos.toNat + 1) 12)
        · exact .inr ⟨_, _, .distRange _ (by omega) hflag ed hd hfar⟩
        · by_cases hr : Room s (8 * (val (inBits s (s.bitpos.toNat + 13) 4) + s.minm.toNat))
          · exact .inl ⟨_, .matched _ _ (by omega) hflag ed ef (by omega) hd hf (by omega) hr⟩
          · exact .inr ⟨_, _, .matchFull _ _ (by omega) hflag ed ef (by omega) hd hf (by omega) hr⟩

theorem decodeToken_ok_iff {s t : State} (h8 : s.obits % 8 = 0) : decodeToken s = .ok t ↔ DecodeStep s t := by
  constructor
  · intro hu
    rcases decode_total s with ⟨u, h⟩ | ⟨n, w, h⟩
    · have := (h.ok h8).symm.trans hu
      simp only [Except.ok.injEq] at this
      exact this ▸ h
    · obtain ⟨c, -, hc⟩ := h.error
      rw [hc] at hu; cases hu
  · exact fun h => h.ok h8

theorem decodeToken_error_iff {s : State} (h8 : s.obits % 8 = 0) {c : ErrCode} {w : Word} :
    decodeToken s = .error (c, w) ↔ DecodeFault s c.code w := by
  have inj : ∀ a b : ErrCode, a.code = b.code → a = b := by intro a b; cases a <;> cases b <;> decide
  constructor
  · intro hu
    rcases decode_total s with ⟨u, h⟩ | ⟨n, w', h⟩
    · rw [h.ok h8] at hu; cases hu
    · obtain ⟨c', rfl, hc⟩ := h.error
      rw [hc] at hu
      simp only [Except.error.injEq, Prod.mk.injEq] at hu
      obtain ⟨rfl, rfl⟩ := hu
      exact h
  · intro h
    obtain ⟨c', e, hc⟩ := h.error
    rw [inj c' c e] at hc
    exact hc

/-! ### The Huffman decoder (R245) -/

theorem SymbolStep.ok {s t : State} (hcb : CbOK s) (h : SymbolStep s t) : decodeSymbol (codebook s) s = .ok t := by
  cases h with
  | terminal stop => rw [decodeSymbol, if_pos stop]; rfl
  | symbol x k more hit room =>
    rw [decodeSymbol, if_neg (by omega), hmatch_hit hcb more hit]
    simp only
    rw [putUnit_ok (by rw [bits_length]; exact room)]
    rfl

theorem SymbolFault.error {s : State} (hcb : CbOK s) {n : BitVec 8} {w : Word} (h : SymbolFault s n w) :
    ∃ c : ErrCode, c.code = n ∧ decodeSymbol (codebook s) s = .error (c, w) := by
  have ofn : ∀ x : Word, BitVec.ofNat 32 x.toNat = x := fun x => by simp
  cases h with
  | noCode more none =>
    refine ⟨.hfNoCode, rfl, ?_⟩
    rw [decodeSymbol, if_neg (by omega), hmatch_noCode more none]
    simp only
    rw [raiseAt, ofn]
  | trunc more out =>
    refine ⟨.hfTrunc, rfl, ?_⟩
    rw [decodeSymbol, if_neg (by omega), hmatch_trunc more out]
    simp only
    rw [raiseAt, ofn]
  | full x k more hit full =>
    refine ⟨.obufFull, rfl, ?_⟩
    rw [decodeSymbol, if_neg (by omega), hmatch_hit hcb more hit]
    simp only
    rw [putUnit_full (by rw [bits_length]; rw [room_iff] at full; omega)]
    rfl

theorem symbol_total (s : State) : (∃ t, SymbolStep s t) ∨ ∃ n w, SymbolFault s n w := by
  by_cases hstop : s.pbits.toNat ≤ s.bitpos.toNat
  · exact .inl ⟨_, .terminal hstop⟩
  have hs := hmatch_spec s (i := s.bitpos.toNat) (lim := s.pbits.toNat) (by omega)
  cases e : hmatch s (codebook s) s.bitpos.toNat s.pbits.toNat <;> rw [e] at hs <;> simp only [Answers] at hs
  · rename_i x k
    by_cases hr : Room s 8
    · exact .inl ⟨_, .symbol x k (by omega) hs hr⟩
    · exact .inr ⟨_, _, .full x k (by omega) hs hr⟩
  · exact .inr ⟨_, _, .noCode (by omega) hs⟩
  · exact .inr ⟨_, _, .trunc (by omega) hs⟩

theorem decodeSymbol_ok_iff {s t : State} (hcb : CbOK s) : decodeSymbol (codebook s) s = .ok t ↔ SymbolStep s t := by
  constructor
  · intro hu
    rcases symbol_total s with ⟨u, h⟩ | ⟨n, w, h⟩
    · have := (h.ok hcb).symm.trans hu
      simp only [Except.ok.injEq] at this
      exact this ▸ h
    · obtain ⟨c, -, hc⟩ := h.error hcb
      rw [hc] at hu; cases hu
  · exact fun h => h.ok hcb

end Sys2Proof.Machine
end

