-- ==== Sys2Proof/Laws/Huffman.lean ====
section
/-! SUPPORT. The loops of `HF.ENC` and `HF.DEC` (R243, R246), and the input stream after `BUF.XFER` (R272). -/

namespace Sys2Proof.Machine

theorem encSymbols_snoc (g : Byte → Option BitStr) (xs : List Byte) (x : Byte) :
    encSymbols g (xs ++ [x]) = (encSymbols g xs).bind fun c => (g x).map (c ++ ·) := by
  induction xs with
  | nil => simp only [List.nil_append, encSymbols]; cases g x <;> simp
  | cons y ys ih =>
    simp only [List.cons_append, encSymbols, ih]
    cases g y with
    | none => rfl
    | some d => cases encSymbols g ys with
      | none => rfl
      | some c => cases g x <;> simp

theorem encSymbols_take_le {g : Byte → Option BitStr} {xs : List Byte} {c : BitStr} (h : encSymbols g xs = some c) (k : Nat) :
    ∃ d, encSymbols g (xs.take k) = some d ∧ d.length ≤ c.length := by
  induction xs generalizing c k with
  | nil => exact ⟨[], by simp [encSymbols], by simp⟩
  | cons x xs ih =>
    simp only [encSymbols, Option.bind_eq_some_iff, Option.map_eq_some_iff] at h
    obtain ⟨e, he, f, hf, rfl⟩ := h
    cases k with
    | zero => exact ⟨[], by simp [encSymbols], by simp⟩
    | succ k =>
      obtain ⟨d, hd, hdl⟩ := ih hf k
      exact ⟨e ++ d, by simp [encSymbols, he, hd], by simp; omega⟩

/-- The state of `HF.ENC` after `k` symbols with the codes `c` (R243). -/
def encodedTo (s : State) (k : Nat) (c : BitStr) : State :=
  { s with ostr := c, pos := BitVec.ofNat 32 k, endFlag := false }

/-- One symbol more (R243). -/
theorem encodeSymbol_step {s : State} {k : Nat} {c d : BitStr} (hk : k < s.inLen.toNat) (hd : code s (ibufAt s k) = some d)
    (hr : (c ++ d).length ≤ 8 * s.obufCap) :
    Round atInputEnd encodeSymbol (encodedTo s k c) (encodedTo s (k + 1) (c ++ d)) := by
  have hN := s.inLen.isLt
  have hp : (encodedTo s k c).pos.toNat = k := by
    show (BitVec.ofNat 32 k).toNat = k
    exact toNat_ofNat32 (by omega)
  refine ⟨atInputEnd_false.mpr (by rw [hp]; exact hk), ?_⟩
  have hb : ibufAt (encodedTo s k c) k = ibufAt s k := rfl
  have hc : code (encodedTo s k c) (ibufAt s k) = some d := hd
  rw [encodeSymbol, hp, putSymbol, hb, hc]
  simp only
  rw [putUnit_ok (by
    have : (encodedTo s k c).obits = c.length := rfl
    rw [this]; simp only [List.length_append] at hr; exact hr)]
  rfl

theorem encode_symbols_path {s : State} : ∀ (k : Nat) (c : BitStr), k ≤ s.inLen.toNat →
    encSymbols (code s) ((inputBytes s).take k) = some c → c.length ≤ 8 * s.obufCap →
    Relation.ReflTransGen (Round atInputEnd encodeSymbol) (encodedTo s 0 []) (encodedTo s k c) := by
  intro k
  induction k with
  | zero =>
    intro c _ h _
    simp only [List.take_zero, encSymbols, Option.some.injEq] at h
    rw [← h]
  | succ k ih =>
    intro c hk h hr
    rw [inputBytes_take_succ s k (by omega), encSymbols_snoc, Option.bind_eq_some_iff] at h
    obtain ⟨d, hd, he⟩ := h
    rw [Option.map_eq_some_iff] at he
    obtain ⟨e, he, rfl⟩ := he
    exact (ih d (by omega) hd (by simp at hr; omega)).tail (encodeSymbol_step (by omega) he hr)

theorem encodeSymbol_ok {s t : State} (h : encodeSymbol s = .ok t) :
    ∃ c, code s (ibufAt s s.pos.toNat) = some c ∧ s.obits + c.length ≤ s.obufBits ∧
      t = { s with ostr := s.ostr ++ c, pos := BitVec.ofNat 32 (s.pos.toNat + 1) } := by
  rw [encodeSymbol] at h
  obtain ⟨u, hu, rfl⟩ := map_eq_ok h
  rw [putSymbol] at hu
  split at hu
  · cases hu
  · rename_i c hc
    obtain ⟨h1, rfl⟩ := putUnit_eq_ok hu
    exact ⟨c, hc, h1, rfl⟩

theorem encodeSymbol_measure (s : State) : ∀ a b, a.inLen = s.inLen → atInputEnd a = false → encodeSymbol a = .ok b →
    b.inLen = s.inLen ∧ s.inLen.toNat - b.pos.toNat < s.inLen.toNat - a.pos.toNat := by
  intro a b ha hd hu
  have hpos := atInputEnd_false.mp hd
  have hN := s.inLen.isLt
  obtain ⟨c, -, -, rfl⟩ := encodeSymbol_ok hu
  rw [ha] at hpos
  refine ⟨ha, ?_⟩
  simp only
  rw [toNat_ofNat32 (by omega)]
  omega

theorem encodeSymbol_zero (s : State) : ∀ a, a.inLen = s.inLen → s.inLen.toNat - a.pos.toNat = 0 → atInputEnd a = true := by
  intro a ha h0
  simp only [atInputEnd, ha, decide_eq_true_eq]; omega

/-- The loop of `HF.ENC` when every symbol has a code and they fit (R243). -/
theorem iterate_encodeSymbol {s : State} {c : BitStr} (h : encSymbols (code s) (inputBytes s) = some c)
    (hr : c.length ≤ 8 * s.obufCap) :
    iterate atInputEnd encodeSymbol s.inLen.toNat (encodeStart s) = (encodedTo s s.inLen.toNat c, none) := by
  have hN := s.inLen.isLt
  have htake : (inputBytes s).take s.inLen.toNat = inputBytes s := List.take_of_length_le (by rw [inputBytes_length])
  have hpath := encode_symbols_path (s := s) s.inLen.toNat c (le_refl _) (by rw [htake]; exact h) hr
  refine iterate_eq_done (fun a => s.inLen.toNat - a.pos.toNat) (fun a => a.inLen = s.inLen) (encodeSymbol_measure s)
    (encodeSymbol_zero s) (s := encodeStart s) rfl (by simp) hpath ?_
  have : (encodedTo s s.inLen.toNat c).pos.toNat = s.inLen.toNat := toNat_ofNat32 hN
  simp only [atInputEnd, decide_eq_true_eq, this]
  exact le_refl _

/-- The loop of `HF.ENC` when it raises at symbol `k` (R243). -/
theorem iterate_encodeSymbol_raised {s : State} {k : Nat} {c : BitStr} {r : Raise} (hk : k < s.inLen.toNat)
    (h : encSymbols (code s) ((inputBytes s).take k) = some c) (hr : c.length ≤ 8 * s.obufCap)
    (hu : encodeSymbol (encodedTo s k c) = .error r) :
    iterate atInputEnd encodeSymbol s.inLen.toNat (encodeStart s) = (encodedTo s k c, some r) := by
  have hN := s.inLen.isLt
  have hpath := encode_symbols_path (s := s) k c (by omega) h hr
  refine iterate_eq_raised (fun a => s.inLen.toNat - a.pos.toNat) (fun a => a.inLen = s.inLen) (encodeSymbol_measure s)
    (encodeSymbol_zero s) (s := encodeStart s) rfl (by simp) hpath ?_ hu
  have : (encodedTo s k c).pos.toNat = k := toNat_ofNat32 (by omega)
  exact atInputEnd_false.mpr (by rw [this]; exact hk)

/-! ### The decoder -/

/-- Prefix-free codes are found where they stand (R244). -/
theorem findsCode_of_spells {s : State} {i lim : Nat} {x : Byte} {c : BitStr} (hpf : PrefixFree (code s))
    (hc : code s x = some c) (hsp : Spells s i c) (hlim : i + c.length ≤ lim) : FindsCode s i lim c.length x := by
  have hin := hsp.inBits
  refine ⟨(code_length hc).2.1, hlim, by rw [hin]; exact hc, fun j hj hjc y hy => ?_⟩
  have hpre : inBits s i j <+: c := by
    conv => rhs; rw [← hin]
    exact inBits_prefix s i (by omega)
  by_cases hxy : y = x
  · subst hxy
    rw [hc] at hy
    have := congrArg List.length (Option.some.inj hy)
    rw [inBits_length] at this
    omega
  · exact hpf y x _ c hxy hy hc hpre

theorem cbOK_of_prefixFree {s : State} (h : PrefixFree (code s)) : CbOK s := by
  intro x y c hx hy
  by_contra hne
  exact h x y c c hne hx hy (List.prefix_refl c)

/-- The loop of `HF.DEC` on the codes of `w`, the payload ending with them: it ends with the bytes `w` (R246). -/
theorem iterate_decodeSymbol {cb : List (Byte × BitStr)} (w : List Byte) :
    ∀ (s : State) (v : List Byte) (c : BitStr) (fuel : Nat), codebook s = cb → PrefixFree (code s) →
      s.endFlag = false → s.ostr = byteStream v → encSymbols (code s) w = some c → Spells s s.bitpos.toNat c →
      s.bitpos.toNat + c.length = s.pbits.toNat → v.length + w.length ≤ s.obufCap → w.length < fuel →
      iterate (·.endFlag) (decodeSymbol cb) fuel s =
        ({ s with
            ostr := byteStream (v ++ w), bitpos := s.pbits
            tKind := .none, tByte := 0, tDist := 0, tLen := 0, endFlag := true }, none) := by
  induction w with
  | nil =>
    intro s v c fuel hcb hpf hend hv hc hsp hlen hroom hfuel
    obtain ⟨f, rfl⟩ : ∃ f, fuel = f + 1 := ⟨fuel - 1, by omega⟩
    simp only [encSymbols, Option.some.injEq] at hc
    subst hc
    have hb : s.bitpos = s.pbits := BitVec.eq_of_toNat_eq (by simpa using hlen)
    have hd : decodeSymbol cb s = .ok (setTerminal s) := by
      rw [decodeSymbol, if_pos (by rw [hb])]
    rw [iterate_succ (done := (·.endFlag)) hend hd, iterate_of_done (by simp)]
    simp [setTerminal, setToken, setEnd, hv, hb]
  | cons x w ih =>
    intro s v c fuel hcb hpf hend hv hc hsp hlen hroom hfuel
    obtain ⟨f, rfl⟩ : ∃ f, fuel = f + 1 := ⟨fuel - 1, by omega⟩
    simp only [encSymbols, Option.bind_eq_some_iff, Option.map_eq_some_iff] at hc
    obtain ⟨d, hd, e, he, rfl⟩ := hc
    have hcbok := cbOK_of_prefixFree hpf
    have hd1 := (code_length hd).2.1
    rw [List.length_append] at hlen
    have hfind := findsCode_of_spells (lim := s.pbits.toNat) hpf hd hsp.left (by omega)
    have hroom8 : Room s 8 := by
      rw [room_iff, obits_byteStream hv, State.obufBits]
      simp only [List.length_cons] at hroom; omega
    have hstep := SymbolStep.ok hcbok (.symbol x d.length (by omega) hfind hroom8)
    rw [hcb] at hstep
    rw [iterate_succ (done := (·.endFlag)) hend hstep]
    have hpos : (BitVec.ofNat 32 (s.bitpos.toNat + d.length)).toNat = s.bitpos.toNat + d.length := by
      rw [toNat_ofNat32]
      have := s.pbits.isLt
      omega
    have hnext := ih { s with
        ostr := s.ostr ++ bits 8 x.toNat, tKind := .symbol, tByte := x, tDist := 0, tLen := 0
        bitpos := BitVec.ofNat 32 (s.bitpos.toNat + d.length), endFlag := false }
      (v ++ [x]) e f hcb hpf rfl (by simp [hv, byteStream_append]) he
      (by simp only [hpos]; exact hsp.right.congr rfl fun _ => rfl) (by simp only [hpos]; omega)
      (by simp only [List.length_append, List.length_cons, List.length_nil] at hroom ⊢; omega) (by simp only [List.length_cons] at hfuel; omega)
    rw [hnext]
    simp

/-! ### The input after `BUF.XFER` -/

/-- After `BUF.XFER` the input stream spells the output stream, if that was whole bytes (R272). -/
theorem spells_moveOutput {s : State} (h8 : s.obits % 8 = 0) (h32 : s.olen < 2 ^ 32) :
    Spells (moveOutput s) 0 s.ostr ∧ 8 * (moveOutput s).inLen.toNat = s.ostr.length := by
  have hlen : s.ostr.length = 8 * s.olen := by
    rw [State.olen, ceil8]; simp only [State.obits] at h8 ⊢; omega
  have hin : (moveOutput s).inLen.toNat = s.olen := toNat_ofNat32 h32
  refine ⟨⟨by rw [hin]; omega, fun j hj => ?_⟩, by rw [hin]; omega⟩
  rw [Nat.zero_add, inBit_moveOutput s j (by omega), List.getD_eq_getElem?_getD, List.getElem?_eq_getElem hj]
  rfl

theorem Spells.of_prefix {s : State} {p : Nat} {a w : BitStr} (h : Spells s p w) (ha : a <+: w) : Spells s p a := by
  obtain ⟨b, rfl⟩ := ha
  exact h.left

theorem padded_length (c : BitStr) : (padded c).length = 8 * ceil8 c.length := by
  simp [padded, add_padLen]

theorem padded_mod (c : BitStr) : (padded c).length % 8 = 0 := by rw [padded_length]; omega

end Sys2Proof.Machine
end

