-- ==== Sys2Proof/Laws/Step.lean ====
section
/-! SUPPORT. What each command can write (R22, R100): one lemma per command, which every claim about all commands cites; what
one step can be. -/

namespace Sys2Proof.Machine

/-! ### Units -/

theorem encodeToken_writes {s t : State} (h : encodeToken s = .ok t) : t = { s with
    ostr := t.ostr, mvalid := t.mvalid, mDist := t.mDist, mLen := t.mLen, pos := t.pos, endFlag := t.endFlag } := by
  rcases encodeToken_ok h with ⟨d, l, -, -, rfl⟩ | ⟨-, -, rfl⟩ <;> rfl

theorem copyMatch_writes (d : Nat) : ∀ (l : Nat) (s : State), copyMatch d l s = { s with ostr := (copyMatch d l s).ostr } := by
  intro l
  induction l with
  | zero => intro s; rfl
  | succ l ih => intro s; rw [copyMatch, ih]; rfl

theorem copyMatch_length (d : Nat) : ∀ (l : Nat) (s : State), (copyMatch d l s).ostr.length = s.ostr.length + 8 * l := by
  intro l
  induction l with
  | zero => intro s; rfl
  | succ l ih => intro s; rw [copyMatch, ih]; simp; omega

/-- A copy extends the stream. -/
theorem copyMatch_prefix (d : Nat) : ∀ (l : Nat) (s : State), s.ostr <+: (copyMatch d l s).ostr := by
  intro l
  induction l with
  | zero => intro s; exact List.prefix_refl _
  | succ l ih => intro s; exact (List.prefix_append s.ostr _).trans (ih (outAppend _ s))

/-- What a unit of the LZSS decoder that completes is, in any state (R191). -/
theorem decodeToken_cases {s t : State} (h : decodeToken s = .ok t) :
    (unreadBits s < 9 ∧ t = setTerminal s) ∨
    (∃ b, s.obits + 8 ≤ s.obufBits ∧ 9 ≤ unreadBits s ∧
      t = setEnd false (setBitpos (s.bitpos.toNat + 9) (setToken .literal b 0 0 (outAppend (bits 8 b.toNat) s)))) ∨
    (∃ d l, s.obits + 8 * l ≤ s.obufBits ∧ 17 ≤ unreadBits s ∧ d < 4096 ∧ l ≤ 15 + s.minm.toNat ∧
      t = setEnd false (setBitpos (s.bitpos.toNat + 17) (setToken .matched 0 d l (copyMatch d l s)))) := by
  unfold decodeToken at h
  split at h
  · rename_i h9
    exact .inl ⟨h9, (Except.ok.inj h).symm⟩
  · rename_i h9
    split at h
    · right; right
      unfold decodeMatch at h
      simp only at h
      split at h
      · cases h
      · rename_i h17
        split at h
        · cases h
        · split at h
          · cases h
          · split at h
            · rename_i hfit
              have hd := val_inBits_lt s (s.bitpos.toNat + 1) 12
              have hf := val_inBits_lt s (s.bitpos.toNat + 13) 4
              exact ⟨_, _, (fits_iff _ _).mp hfit, by omega, by omega, by omega, (Except.ok.inj h).symm⟩
            · cases h
    · right; left
      unfold decodeLiteral at h
      simp only at h
      obtain ⟨u, hu, rfl⟩ := map_eq_ok h
      obtain ⟨h1, rfl⟩ := putUnit_eq_ok hu
      exact ⟨_, by simpa using h1, by omega, rfl⟩

theorem decodeToken_writes {s t : State} (h : decodeToken s = .ok t) : t = { s with
    ostr := t.ostr, tKind := t.tKind, tByte := t.tByte, tDist := t.tDist, tLen := t.tLen, bitpos := t.bitpos
    endFlag := t.endFlag } := by
  rcases decodeToken_cases h with ⟨-, rfl⟩ | ⟨b, -, -, rfl⟩ | ⟨d, l, -, -, -, -, rfl⟩
  · rfl
  · rfl
  · rw [copyMatch_writes]; rfl

theorem encodeSymbol_writes {s t : State} (h : encodeSymbol s = .ok t) : t = { s with ostr := t.ostr, pos := t.pos } := by
  obtain ⟨c, -, -, rfl⟩ := encodeSymbol_ok h
  rfl

/-- What a unit of the Huffman decoder that completes is (R245). -/
theorem decodeSymbol_cases {cb : List (Byte × BitStr)} {s t : State} (h : decodeSymbol cb s = .ok t) :
    (s.pbits.toNat ≤ s.bitpos.toNat ∧ t = setTerminal s) ∨
    (∃ x k, s.bitpos.toNat < s.pbits.toNat ∧ hmatch s cb s.bitpos.toNat s.pbits.toNat = .hit x k ∧
      s.obits + 8 ≤ s.obufBits ∧
      t = setEnd false (setBitpos (s.bitpos.toNat + k) (setToken .symbol x 0 0 (outAppend (bits 8 x.toNat) s)))) := by
  unfold decodeSymbol at h
  simp only at h
  split at h
  · rename_i hs
    exact .inl ⟨hs, (Except.ok.inj h).symm⟩
  · rename_i hs
    split at h
    · cases h
    · cases h
    · rename_i x k hm
      obtain ⟨u, hu, rfl⟩ := map_eq_ok h
      obtain ⟨h1, rfl⟩ := putUnit_eq_ok hu
      exact .inr ⟨x, k, by omega, hm, by simpa using h1, rfl⟩

theorem decodeSymbol_writes {cb : List (Byte × BitStr)} {s t : State} (h : decodeSymbol cb s = .ok t) : t = { s with
    ostr := t.ostr, tKind := t.tKind, tByte := t.tByte, tDist := t.tDist, tLen := t.tLen, bitpos := t.bitpos
    endFlag := t.endFlag } := by
  rcases decodeSymbol_cases h with ⟨-, rfl⟩ | ⟨x, k, -, -, -, rfl⟩ <;> rfl

/-! ### Loops -/

theorem iterate_encodeToken_writes (fuel : Nat) (s : State) : (iterate atInputEnd encodeToken fuel s).1 = { s with
    ostr := (iterate atInputEnd encodeToken fuel s).1.ostr, mvalid := (iterate atInputEnd encodeToken fuel s).1.mvalid
    mDist := (iterate atInputEnd encodeToken fuel s).1.mDist, mLen := (iterate atInputEnd encodeToken fuel s).1.mLen
    pos := (iterate atInputEnd encodeToken fuel s).1.pos, endFlag := (iterate atInputEnd encodeToken fuel s).1.endFlag } :=
  iterate_keeps (fun t => t = { s with
    ostr := t.ostr, mvalid := t.mvalid, mDist := t.mDist, mLen := t.mLen, pos := t.pos, endFlag := t.endFlag })
    (fun a b ha _ hu => by rw [encodeToken_writes hu, ha]) fuel s rfl

theorem iterate_encodeSymbol_writes (fuel : Nat) (s : State) : (iterate atInputEnd encodeSymbol fuel s).1 = { s with
    ostr := (iterate atInputEnd encodeSymbol fuel s).1.ostr, pos := (iterate atInputEnd encodeSymbol fuel s).1.pos } :=
  iterate_keeps (fun t => t = { s with ostr := t.ostr, pos := t.pos })
    (fun a b ha _ hu => by rw [encodeSymbol_writes hu, ha]) fuel s rfl

/-- Both decoders' loops write the same. -/
theorem iterate_decode_writes {unit : State → Except Raise State} (hunit : ∀ s t, unit s = .ok t → t = { s with
    ostr := t.ostr, tKind := t.tKind, tByte := t.tByte, tDist := t.tDist, tLen := t.tLen, bitpos := t.bitpos
    endFlag := t.endFlag }) (fuel : Nat) (s : State) : (iterate (·.endFlag) unit fuel s).1 = { s with
    ostr := (iterate (·.endFlag) unit fuel s).1.ostr, tKind := (iterate (·.endFlag) unit fuel s).1.tKind
    tByte := (iterate (·.endFlag) unit fuel s).1.tByte, tDist := (iterate (·.endFlag) unit fuel s).1.tDist
    tLen := (iterate (·.endFlag) unit fuel s).1.tLen, bitpos := (iterate (·.endFlag) unit fuel s).1.bitpos
    endFlag := (iterate (·.endFlag) unit fuel s).1.endFlag } :=
  iterate_keeps (fun t => t = { s with
    ostr := t.ostr, tKind := t.tKind, tByte := t.tByte, tDist := t.tDist, tLen := t.tLen, bitpos := t.bitpos
    endFlag := t.endFlag })
    (fun a b ha _ hu => by rw [hunit a b hu, ha]) fuel s rfl

/-! ### Commands: what each writes -/

/-- `t` differs from `s` in the fault registers at most. -/
def SameButFault (s t : State) : Prop := t = { s with err := t.err, errCode := t.errCode, errInfo := t.errInfo }

theorem complete_ok (s t : State) : complete s (.ok t) = .next t := rfl
theorem complete_error (s : State) (r : Raise) : complete s (.error r) = .next (raise r s) := rfl

/-- The checks before a command's effect: it is performed, or a fault is recorded and nothing else changes (R294, R296). -/
theorem checkCfg_cases {α : Type} (s : State) (k : Except Raise α) :
    (CfgOK s ∧ checkCfg s k = k) ∨ (¬ CfgOK s ∧ checkCfg s k = .error (.cfgErr, 0)) := by
  by_cases h : CfgOK s
  · exact .inl ⟨h, checkCfg_true k ((CfgOK.iff s).mp h)⟩
  · refine .inr ⟨h, checkCfg_false k ?_⟩
    rw [CfgOK.iff] at h; simpa using h

theorem checkLen_cases {α : Type} (s : State) (k : Except Raise α) :
    (LenOK s ∧ checkLen s k = k) ∨ (¬ LenOK s ∧ checkLen s k = .error (.badLen, s.inLen)) := by
  by_cases h : LenOK s
  · exact .inl ⟨h, checkLen_true k ((LenOK.iff s).mp h)⟩
  · refine .inr ⟨h, checkLen_false k ?_⟩
    rw [LenOK.iff] at h; simpa using h

theorem checkAligned_cases {α : Type} (s : State) (k : Except Raise α) :
    (s.obits % 8 = 0 ∧ checkAligned s k = k) ∨
      (s.obits % 8 ≠ 0 ∧ checkAligned s k = .error (.unaligned, BitVec.ofNat 32 s.obits)) := by
  unfold checkAligned
  by_cases h : s.obits % 8 = 0
  · exact .inl ⟨h, by rw [if_pos h]⟩
  · exact .inr ⟨h, by rw [if_neg h]; rfl⟩

theorem checkPbits_cases {α : Type} (s : State) (k : Except Raise α) :
    (s.pbits.toNat ≤ 8 * s.inLen.toNat ∧ checkPbits s k = k) ∨
      (8 * s.inLen.toNat < s.pbits.toNat ∧ checkPbits s k = .error (.hfBadPbits, s.pbits)) := by
  unfold checkPbits
  by_cases h : s.pbits.toNat ≤ 8 * s.inLen.toNat
  · exact .inl ⟨h, by rw [if_pos h]⟩
  · exact .inr ⟨by omega, by rw [if_neg h]⟩

theorem checkCodebook_cases {α : Type} (s : State) (k : Except Raise α) :
    (CbOK s ∧ checkCodebook (codebook s) k = k) ∨
      ∃ x y, IsFirstDup s x y ∧ checkCodebook (codebook s) k = .error (.hfCbDup, dupInfo (x, y)) := by
  cases h : firstDup (codebook s) with
  | none =>
    have := (firstDup_codebook_none s).mp h
    exact .inl ⟨this, checkCodebook_true this k⟩
  | some p => exact .inr ⟨p.1, p.2, firstDup_codebook_some h, checkCodebook_false (firstDup_codebook_some h) k⟩

/-- A command that ends in its own effect or in a fault. -/
theorem complete_cases (s : State) (r : Except Raise State) :
    (∃ t, r = .ok t ∧ complete s r = .next t) ∨ ∃ e, r = .error e ∧ complete s r = .next (raise e s) := by
  cases r with
  | ok t => exact .inl ⟨t, rfl, rfl⟩
  | error e => exact .inr ⟨e, rfl, rfl⟩

theorem checkCfg_eq_ok {α : Type} {s : State} {k : Except Raise α} {a : α} (h : checkCfg s k = .ok a) : CfgOK s ∧ k = .ok a := by
  rcases checkCfg_cases s k with ⟨hc, e⟩ | ⟨-, e⟩ <;> rw [e] at h
  · exact ⟨hc, h⟩
  · cases h

theorem checkLen_eq_ok {α : Type} {s : State} {k : Except Raise α} {a : α} (h : checkLen s k = .ok a) : LenOK s ∧ k = .ok a := by
  rcases checkLen_cases s k with ⟨hc, e⟩ | ⟨-, e⟩ <;> rw [e] at h
  · exact ⟨hc, h⟩
  · cases h

theorem checkAligned_eq_ok {α : Type} {s : State} {k : Except Raise α} {a : α} (h : checkAligned s k = .ok a) :
    s.obits % 8 = 0 ∧ k = .ok a := by
  rcases checkAligned_cases s k with ⟨hc, e⟩ | ⟨-, e⟩ <;> rw [e] at h
  · exact ⟨hc, h⟩
  · cases h

theorem checkPbits_eq_ok {α : Type} {s : State} {k : Except Raise α} {a : α} (h : checkPbits s k = .ok a) :
    s.pbits.toNat ≤ 8 * s.inLen.toNat ∧ k = .ok a := by
  rcases checkPbits_cases s k with ⟨hc, e⟩ | ⟨-, e⟩ <;> rw [e] at h
  · exact ⟨hc, h⟩
  · cases h

theorem checkCodebook_eq_ok {α : Type} {s : State} {k : Except Raise α} {a : α} (h : checkCodebook (codebook s) k = .ok a) :
    CbOK s ∧ k = .ok a := by
  rcases checkCodebook_cases s k with ⟨hc, e⟩ | ⟨x, y, -, e⟩ <;> rw [e] at h
  · exact ⟨hc, h⟩
  · cases h

theorem finish_cases (f : State → State) (p : State × Option Raise) :
    (p.2 = none ∧ finish f p = f p.1) ∨ ∃ r, p.2 = some r ∧ finish f p = raise r p.1 := by
  obtain ⟨t, o⟩ := p
  cases o with
  | none => exact .inl ⟨rfl, rfl⟩
  | some r => exact .inr ⟨r, rfl, rfl⟩

theorem putSymbol_ok {x : Byte} {s t : State} (h : putSymbol x s = .ok t) :
    ∃ c, code s x = some c ∧ s.obits + c.length ≤ s.obufBits ∧ t = outAppend c s := by
  rw [putSymbol] at h
  split at h
  · cases h
  · rename_i c hc
    obtain ⟨h1, rfl⟩ := putUnit_eq_ok h
    exact ⟨c, hc, h1, rfl⟩

/-- What each command may write besides the fault registers (R22, R100). -/
def mayWrite : Instr → State → State → Prop
  | .nop, s, t => t = s
  | .lzFind, s, t => t = { s with mvalid := t.mvalid, mDist := t.mDist, mLen := t.mLen }
  | .lzPutl _, s, t | .lzPutm, s, t | .hfPuts _, s, t => t = { s with ostr := t.ostr }
  | .lzStep, s, t => t = { s with
      ostr := t.ostr, mvalid := t.mvalid, mDist := t.mDist, mLen := t.mLen, pos := t.pos, endFlag := t.endFlag }
  | .lzEnc, s, t => t = { s with
      ostr := t.ostr, mvalid := t.mvalid, mDist := t.mDist, mLen := t.mLen, pos := t.pos, endFlag := t.endFlag
      pbits := t.pbits }
  | .lzDstep, s, t | .lzDec, s, t | .hfDsym, s, t | .hfDec, s, t => t = { s with
      ostr := t.ostr, tKind := t.tKind, tByte := t.tByte, tDist := t.tDist, tLen := t.tLen, bitpos := t.bitpos
      endFlag := t.endFlag }
  | .hfCount, s, t => t = { s with freq := t.freq }
  | .hfBuild, s, t => t = { s with nodes := t.nodes, nnodes := t.nnodes, root := t.root, tvalid := t.tvalid }
  | .hfDerive, s, t => t = { s with
      cbl := t.cbl, cbc := t.cbc, nodes := t.nodes, nnodes := t.nnodes, root := t.root, tvalid := t.tvalid }
  | .hfEnc, s, t => t = { s with ostr := t.ostr, pos := t.pos, endFlag := t.endFlag, pbits := t.pbits }
  | .bsInit, s, t => t = { s with ostr := t.ostr, endFlag := t.endFlag }
  | .bsFlush, s, t => t = { s with ostr := t.ostr, pbits := t.pbits }
  | .bufXfer, s, t => t = { s with
      ibuf := t.ibuf, inLen := t.inLen, ostr := t.ostr, pos := t.pos, bitpos := t.bitpos, endFlag := t.endFlag }
  | .sysClrerr, s, t => t = { s with err := t.err, errCode := t.errCode, errInfo := t.errInfo }
  | .sysReset, s, t => t = resetEngine s

/-- A command that completes with a state it may write, or records a fault there. -/
def Writes (i : Instr) (s : State) : Prop :=
  ∃ t, exec i s = .next t ∧ ((mayWrite i s t) ∨ ∃ u r, mayWrite i s u ∧ t = raise r u)

theorem mayWrite_refl {i : Instr} (h : i ≠ .sysReset) (s : State) : mayWrite i s s := by
  cases i <;> first | exact absurd rfl h | exact (rfl : s = s)

/-- What a pipeline command may have written when it ends (R293, R294). -/
theorem finish_writes {i : Instr} {s t : State} {f : State → State} {p : State × Option Raise} (h : finish f p = t)
    (hok : mayWrite i s (f p.1)) (hraise : mayWrite i s p.1) : mayWrite i s t ∨ ∃ u e, mayWrite i s u ∧ t = raise e u := by
  rcases finish_cases f p with ⟨-, e⟩ | ⟨r, -, e⟩
  · left; rw [← h, e]; exact hok
  · right; exact ⟨p.1, r, hraise, by rw [← h, e]⟩

/-- The four pipeline commands (R3, R294). -/
def isPipeline : Instr → Bool
  | .lzEnc | .lzDec | .hfEnc | .hfDec => true
  | _ => false

/-- A command that is no pipeline takes its one effect or records a fault and changes nothing else (R294). -/
theorem exec_single {i : Instr} (hi : isPipeline i = false) (s : State) :
    ∃ r, exec i s = complete s r ∧ ∀ t, r = .ok t → mayWrite i s t := by
  cases i <;> simp only [isPipeline, Bool.true_eq_false] at hi <;> clear hi
  case nop => exact ⟨_, rfl, fun t h => (Except.ok.inj h).symm⟩
  case lzFind =>
    refine ⟨_, rfl, fun t h => ?_⟩
    obtain ⟨-, h⟩ := checkCfg_eq_ok h
    obtain ⟨-, h⟩ := checkLen_eq_ok h
    rw [← Except.ok.inj h]; rfl
  case lzPutl b =>
    refine ⟨_, rfl, fun t h => ?_⟩
    obtain ⟨-, rfl⟩ := putUnit_eq_ok h
    rfl
  case lzPutm =>
    refine ⟨_, rfl, fun t h => ?_⟩
    obtain ⟨-, h⟩ := checkCfg_eq_ok h
    split at h
    · obtain ⟨-, rfl⟩ := putUnit_eq_ok h
      rfl
    · cases h
  case lzStep =>
    refine ⟨_, rfl, fun t h => ?_⟩
    obtain ⟨-, h⟩ := checkCfg_eq_ok h
    obtain ⟨-, h⟩ := checkLen_eq_ok h
    split at h
    · rw [← Except.ok.inj h]; rfl
    · exact encodeToken_writes h
  case lzDstep =>
    refine ⟨_, rfl, fun t h => ?_⟩
    obtain ⟨-, h⟩ := checkCfg_eq_ok h
    obtain ⟨-, h⟩ := checkLen_eq_ok h
    obtain ⟨-, h⟩ := checkAligned_eq_ok h
    exact decodeToken_writes h
  case hfCount =>
    refine ⟨_, rfl, fun t h => ?_⟩
    obtain ⟨-, h⟩ := checkLen_eq_ok h
    rw [← Except.ok.inj h]; rfl
  case hfBuild => exact ⟨_, rfl, fun t h => by rw [← Except.ok.inj h]; rfl⟩
  case hfDerive =>
    refine ⟨_, rfl, fun t h => ?_⟩
    split at h
    · rw [← Except.ok.inj h]; rfl
    · cases h
  case hfPuts x =>
    refine ⟨_, rfl, fun t h => ?_⟩
    obtain ⟨-, h⟩ := checkCodebook_eq_ok h
    obtain ⟨c, -, -, rfl⟩ := putSymbol_ok h
    rfl
  case hfDsym =>
    refine ⟨_, rfl, fun t h => ?_⟩
    obtain ⟨-, h⟩ := checkLen_eq_ok h
    obtain ⟨-, h⟩ := checkPbits_eq_ok h
    obtain ⟨-, h⟩ := checkAligned_eq_ok h
    obtain ⟨-, h⟩ := checkCodebook_eq_ok h
    exact decodeSymbol_writes h
  case bsInit => exact ⟨_, rfl, fun t h => by rw [← Except.ok.inj h]; rfl⟩
  case bsFlush => exact ⟨_, rfl, fun t h => by rw [← Except.ok.inj h]; rfl⟩
  case bufXfer =>
    refine ⟨_, rfl, fun t h => ?_⟩
    split at h
    · rw [← Except.ok.inj h]; rfl
    · cases h
  case sysClrerr => exact ⟨_, rfl, fun t h => by rw [← Except.ok.inj h]; rfl⟩
  case sysReset => exact ⟨_, rfl, fun t h => (Except.ok.inj h).symm⟩

/-- A pipeline command records a fault of its checks, or runs its loop to its end or to the unit that raises (R294). -/
theorem exec_pipeline {i : Instr} (hi : isPipeline i = true) (s : State) :
    ∃ r, exec i s = complete s r ∧ ∀ t, r = .ok t → mayWrite i s t ∨ ∃ u e, mayWrite i s u ∧ t = raise e u := by
  cases i <;> simp only [isPipeline, Bool.false_eq_true] at hi <;> clear hi
  case lzEnc =>
    refine ⟨_, rfl, fun t h => ?_⟩
    obtain ⟨-, h⟩ := checkCfg_eq_ok h
    obtain ⟨-, h⟩ := checkLen_eq_ok h
    refine finish_writes (Except.ok.inj h) ?_ ?_ <;> rw [iterate_encodeToken_writes] <;> rfl
  case lzDec =>
    refine ⟨_, rfl, fun t h => ?_⟩
    obtain ⟨-, h⟩ := checkCfg_eq_ok h
    obtain ⟨-, h⟩ := checkLen_eq_ok h
    refine finish_writes (Except.ok.inj h) ?_ ?_ <;>
      · rw [iterate_decode_writes fun _ _ => decodeToken_writes]; rfl
  case hfEnc =>
    refine ⟨_, rfl, fun t h => ?_⟩
    obtain ⟨-, h⟩ := checkLen_eq_ok h
    obtain ⟨-, h⟩ := checkCodebook_eq_ok h
    refine finish_writes (Except.ok.inj h) ?_ ?_ <;> rw [iterate_encodeSymbol_writes] <;> rfl
  case hfDec =>
    refine ⟨_, rfl, fun t h => ?_⟩
    obtain ⟨-, h⟩ := checkLen_eq_ok h
    obtain ⟨-, h⟩ := checkPbits_eq_ok h
    obtain ⟨-, h⟩ := checkCodebook_eq_ok h
    refine finish_writes (Except.ok.inj h) ?_ ?_ <;>
      · rw [iterate_decode_writes fun _ _ => decodeSymbol_writes]; rfl

/-- Every command completes, and writes what R22 and R100 list for it, and the fault registers. -/
theorem exec_writes (i : Instr) (s : State) : Writes i s := by
  by_cases hi : isPipeline i = true
  · obtain ⟨r, e, h⟩ := exec_pipeline hi s
    rcases complete_cases s r with ⟨t, hr, e'⟩ | ⟨x, hr, e'⟩
    · exact ⟨t, e.trans e', h t hr⟩
    · exact ⟨_, e.trans e', .inr ⟨s, x, mayWrite_refl (by rintro rfl; cases hi) s, rfl⟩⟩
  · obtain ⟨r, e, h⟩ := exec_single (by simpa using hi) s
    rcases complete_cases s r with ⟨t, hr, e'⟩ | ⟨x, hr, e'⟩
    · exact ⟨t, e.trans e', .inl (h t hr)⟩
    · by_cases hreset : i = .sysReset
      · subst hreset; exact ⟨_, rfl, .inl rfl⟩
      · exact ⟨_, e.trans e', .inr ⟨s, x, mayWrite_refl hreset s, rfl⟩⟩

/-! ### Commands: the faults each raises (R291) -/

theorem putUnit_raises {c : BitStr} {s : State} {r : Raise} (h : putUnit c s = .error r) : r.1 = .obufFull := by
  rcases putUnit_cases c s with ⟨-, e⟩ | ⟨-, e⟩ <;> rw [e] at h
  · cases h
  · rw [← Except.error.inj h]; rfl

theorem map_eq_error {α β : Type} {f : α → β} {x : Except Raise α} {r : Raise} (h : x.map f = .error r) : x = .error r := by
  cases x with
  | ok a => cases h
  | error e => exact congrArg _ (Except.error.inj h)

theorem encodeToken_raises {s : State} {r : Raise} (h : encodeToken s = .error r) : r.1 = .obufFull := by
  unfold encodeToken at h
  split at h <;> exact putUnit_raises (map_eq_error h)

theorem decodeToken_raises {s : State} {r : Raise} (h : decodeToken s = .error r) :
    r.1 = .obufFull ∨ r.1 = .lzTrunc ∨ r.1 = .lzDistZero ∨ r.1 = .lzDistRange := by
  unfold decodeToken at h
  split at h
  · cases h
  · split at h
    · unfold decodeMatch at h
      simp only at h
      split at h
      · rw [← Except.error.inj h]; simp [raiseAt]
      · split at h
        · rw [← Except.error.inj h]; simp [raiseAt]
        · split at h
          · rw [← Except.error.inj h]; simp [raiseAt]
          · split at h
            · cases h
            · rw [← Except.error.inj h]; simp [raiseAt]
    · exact .inl (putUnit_raises (map_eq_error h))

theorem putSymbol_raises {x : Byte} {s : State} {r : Raise} (h : putSymbol x s = .error r) :
    r.1 = .hfMissingKey ∨ r.1 = .obufFull := by
  unfold putSymbol at h
  split at h
  · rw [← Except.error.inj h]; simp
  · exact .inr (putUnit_raises h)

theorem encodeSymbol_raises {s : State} {r : Raise} (h : encodeSymbol s = .error r) :
    r.1 = .hfMissingKey ∨ r.1 = .obufFull := putSymbol_raises (map_eq_error h)

theorem decodeSymbol_raises {cb : List (Byte × BitStr)} {s : State} {r : Raise} (h : decodeSymbol cb s = .error r) :
    r.1 = .hfNoCode ∨ r.1 = .hfTrunc ∨ r.1 = .obufFull := by
  unfold decodeSymbol at h
  simp only at h
  split at h
  · cases h
  · split at h
    · rw [← Except.error.inj h]; simp [raiseAt]
    · rw [← Except.error.inj h]; simp [raiseAt]
    · exact .inr (.inr (putUnit_raises (map_eq_error h)))

/-- A loop that raised, raised what a unit raises. -/
theorem iterate_error {done : State → Bool} {unit : State → Except Raise State} {fuel : Nat} {s : State} {r : Raise}
    (h : (iterate done unit fuel s).2 = some r) : unit (iterate done unit fuel s).1 = .error r :=
  (iterate_raised fuel s _ r (by rw [← h])).2

end Sys2Proof.Machine
end

