-- ==== Sys2Proof/Laws/Loops.lean ====
section
/-! SUPPORT. The loops of `LZ.DEC` and `HF.DEC` by their steps (R197, R246): a run of steps is a run of rounds, and the bounds
of R200 and R250 are enough. -/

namespace Sys2Proof.Machine

/-! ### `LZ.DEC` -/

theorem DecodeStep.keeps {s t : State} (h : DecodeStep s t) : t = { s with
    ostr := t.ostr, tKind := t.tKind, tByte := t.tByte, tDist := t.tDist, tLen := t.tLen, bitpos := t.bitpos
    endFlag := t.endFlag } := by
  cases h <;> rfl

/-- A step keeps the output whole bytes (R197: `UNALIGNED` cannot occur). -/
theorem DecodeStep.aligned {s t : State} (h : DecodeStep s t) (h8 : s.obits % 8 = 0) : t.obits % 8 = 0 := by
  cases h with
  | terminal => exact h8
  | literal b => simp only [State.obits, List.length_append, bits_length] at *; omega
  | matched d f =>
    have e : ∀ w : List Byte, (w.flatMap fun b => bits 8 b.toNat).length = 8 * w.length := byteStream_length
    simp only [State.obits, List.length_append, e] at *; omega

/-- After the terminal step nothing moves any more (R192). -/
def AtEnd (s : State) : Prop := s.endFlag = true → s = setTerminal s ∧ 8 * s.inLen.toNat - s.bitpos.toNat < 9

theorem DecodeStep.atEnd {s t : State} (h : DecodeStep s t) : AtEnd t := by
  intro he
  cases h with
  | terminal few => exact ⟨rfl, few⟩
  | literal => cases he
  | matched => cases he

/-- A run of steps from a state that has not ended is a run of rounds. -/
theorem decode_rounds {s t : State} (hend : s.endFlag = false) (h8 : s.obits % 8 = 0)
    (h : Relation.ReflTransGen DecodeStep s t) :
    Relation.ReflTransGen (Round (·.endFlag) decodeToken) s t ∧ t.obits % 8 = 0 ∧ AtEnd t := by
  induction h with
  | refl => exact ⟨.refl, h8, fun he => by rw [hend] at he; cases he⟩
  | @tail b c _ hbc ih =>
    obtain ⟨hp, h8b, hb⟩ := ih
    cases he : b.endFlag with
    | false => exact ⟨hp.tail ⟨he, hbc.ok h8b⟩, hbc.aligned h8b, hbc.atEnd⟩
    | true =>
      obtain ⟨e, few⟩ := hb he
      have : c = b := by
        cases hbc with
        | terminal => exact e.symm
        | literal _ nine => omega
        | matched _ _ whole => omega
      rw [this]; exact ⟨hp, h8b, hb⟩

/-- A run of rounds is a run of steps. -/
theorem decode_steps {s t : State} (h8 : s.obits % 8 = 0) (h : Relation.ReflTransGen (Round (·.endFlag) decodeToken) s t) :
    Relation.ReflTransGen DecodeStep s t ∧ t.obits % 8 = 0 := by
  induction h with
  | refl => exact ⟨.refl, h8⟩
  | tail _ hbc ih =>
    have := (decodeToken_ok_iff ih.2).mp hbc.2
    exact ⟨ih.1.tail this, this.aligned ih.2⟩

/-- What bounds the loop of `LZ.DEC`: the tokens the unread bits can hold, and the terminal step (R200). -/
def decodeFuel (s : State) : Nat := if s.endFlag then 0 else (8 * s.inLen.toNat - s.bitpos.toNat) / 9 + 1

theorem decode_measure {n : Word} (hn : n.toNat ≤ 2 ^ 28) : ∀ a b, (a.inLen = n ∧ a.obits % 8 = 0) → a.endFlag = false →
    decodeToken a = .ok b → (b.inLen = n ∧ b.obits % 8 = 0) ∧ decodeFuel b < decodeFuel a := by
  intro a b ⟨hl, h8⟩ he hu
  have h := (decodeToken_ok_iff h8).mp hu
  refine ⟨⟨by rw [h.keeps]; exact hl, h.aligned h8⟩, ?_⟩
  unfold decodeFuel
  rw [he]
  cases h with
  | terminal few => simp
  | literal b nine =>
    rw [hl] at nine
    simp only [Bool.false_eq_true, if_false, hl]
    rw [toNat_ofNat32 (by omega)]
    omega
  | matched d f whole =>
    rw [hl] at whole
    simp only [Bool.false_eq_true, if_false, hl]
    rw [toNat_ofNat32 (by omega)]
    omega

theorem decode_zero {n : Word} : ∀ a, (a.inLen = n ∧ a.obits % 8 = 0) → decodeFuel a = 0 → a.endFlag = true := by
  intro a _ h
  unfold decodeFuel at h
  split at h
  · assumption
  · omega

theorem decodeFuel_start (s : State) : decodeFuel (decodeStart s) = 8 * s.inLen.toNat / 9 + 1 := by
  simp [decodeFuel, decodeStart]

/-! ### `HF.DEC` -/

theorem SymbolStep.keeps {s t : State} (h : SymbolStep s t) : t = { s with
    ostr := t.ostr, tKind := t.tKind, tByte := t.tByte, tDist := t.tDist, tLen := t.tLen, bitpos := t.bitpos
    endFlag := t.endFlag } := by
  cases h <;> rfl

theorem codebook_congr {s t : State} (hl : t.cbl = s.cbl) (hc : t.cbc = s.cbc) : codebook t = codebook s := by
  unfold codebook; rw [hl, hc]

theorem code_congr {s t : State} (hl : t.cbl = s.cbl) (hc : t.cbc = s.cbc) : code t = code s := by
  funext x; unfold code; rw [hl, hc]

theorem CbOK.congr {s t : State} (hl : t.cbl = s.cbl) (hc : t.cbc = s.cbc) (h : CbOK s) : CbOK t := by
  unfold CbOK; rw [code_congr hl hc]; exact h

/-- `t` has the codebook and the payload length of `s`. -/
def SamePayload (s t : State) : Prop := t.cbl = s.cbl ∧ t.cbc = s.cbc ∧ t.pbits = s.pbits

theorem SymbolStep.same {s a b : State} (h : SymbolStep a b) (ha : SamePayload s a) : SamePayload s b := by
  unfold SamePayload; rw [h.keeps]; exact ha

theorem decodeSymbol_ok_iff' {s a b : State} (hcb : CbOK s) (ha : SamePayload s a) :
    decodeSymbol (codebook s) a = .ok b ↔ SymbolStep a b := by
  rw [← codebook_congr ha.1 ha.2.1]
  exact decodeSymbol_ok_iff (hcb.congr ha.1 ha.2.1)

/-- After the terminal step nothing moves any more (R245). -/
def AtPayloadEnd (s : State) : Prop := s.endFlag = true → s = setTerminal s ∧ s.pbits.toNat ≤ s.bitpos.toNat

theorem SymbolStep.atEnd {s t : State} (h : SymbolStep s t) : AtPayloadEnd t := by
  intro he
  cases h with
  | terminal stop => exact ⟨rfl, stop⟩
  | symbol => cases he

theorem symbol_rounds {s a t : State} (hcb : CbOK s) (ha : SamePayload s a) (hend : a.endFlag = false)
    (h : Relation.ReflTransGen SymbolStep a t) :
    Relation.ReflTransGen (Round (·.endFlag) (decodeSymbol (codebook s))) a t ∧ SamePayload s t ∧ AtPayloadEnd t := by
  induction h with
  | refl => exact ⟨.refl, ha, fun he => by rw [hend] at he; cases he⟩
  | @tail b c _ hbc ih =>
    obtain ⟨hp, hsb, hb⟩ := ih
    cases he : b.endFlag with
    | false => exact ⟨hp.tail ⟨he, (decodeSymbol_ok_iff' hcb hsb).mpr hbc⟩, hbc.same hsb, hbc.atEnd⟩
    | true =>
      obtain ⟨e, stop⟩ := hb he
      have : c = b := by
        cases hbc with
        | terminal => exact e.symm
        | symbol _ _ more => omega
      rw [this]; exact ⟨hp, hsb, hb⟩

theorem symbol_steps {s a t : State} (hcb : CbOK s) (ha : SamePayload s a)
    (h : Relation.ReflTransGen (Round (·.endFlag) (decodeSymbol (codebook s))) a t) :
    Relation.ReflTransGen SymbolStep a t ∧ SamePayload s t := by
  induction h with
  | refl => exact ⟨.refl, ha⟩
  | tail _ hbc ih =>
    have := (decodeSymbol_ok_iff' hcb ih.2).mp hbc.2
    exact ⟨ih.1.tail this, this.same ih.2⟩

/-- What bounds the loop of `HF.DEC`: the unread payload bits, and the terminal step (R250). -/
def symbolFuel (s : State) : Nat := if s.endFlag then 0 else (s.pbits.toNat - s.bitpos.toNat) + 1

theorem symbol_measure {s : State} (hcb : CbOK s) : ∀ a b, SamePayload s a → a.endFlag = false →
    decodeSymbol (codebook s) a = .ok b → SamePayload s b ∧ symbolFuel b < symbolFuel a := by
  intro a b ha he hu
  have h := (decodeSymbol_ok_iff' hcb ha).mp hu
  refine ⟨h.same ha, ?_⟩
  have := a.pbits.isLt
  unfold symbolFuel
  rw [he]
  cases h with
  | terminal stop => simp
  | symbol x k more hit =>
    obtain ⟨h1, h2, -⟩ := hit
    simp only [Bool.false_eq_true, if_false]
    rw [toNat_ofNat32 (by omega)]
    omega

theorem symbol_zero {s : State} : ∀ a, SamePayload s a → symbolFuel a = 0 → a.endFlag = true := by
  intro a _ h
  unfold symbolFuel at h
  split at h
  · assumption
  · omega

/-- No step passes the end of the payload, so `HF.DEC` ends at it (R246). -/
theorem SymbolStep.bitpos_le {s t : State} (h : SymbolStep s t) (hs : s.bitpos.toNat ≤ s.pbits.toNat) :
    t.bitpos.toNat ≤ t.pbits.toNat := by
  have := s.pbits.isLt
  cases h with
  | terminal => exact hs
  | symbol x k more hit =>
    obtain ⟨h1, h2, -⟩ := hit
    simp only
    rw [toNat_ofNat32 (by omega)]
    exact h2

theorem symbol_path_bitpos_le {s t : State} (h : Relation.ReflTransGen SymbolStep s t) (hs : s.bitpos.toNat ≤ s.pbits.toNat) :
    t.bitpos.toNat ≤ t.pbits.toNat := by
  induction h with
  | refl => exact hs
  | tail _ hbc ih => exact hbc.bitpos_le ih

end Sys2Proof.Machine
end

