-- ==== Sys2Proof/Laws/Commands.lean ====
section
/-! SUPPORT. The checks of the commands decided by the spec's own conditions, each command's outcome once its checks pass, and
one word of a codebook entry (R85). -/

namespace Sys2Proof.Machine

/-! ### Checks -/

theorem checkCfg_fail {α : Type} {s : State} (h : ¬ CfgOK s) (k : Except Raise α) : checkCfg s k = .error (.cfgErr, 0) := by
  rcases checkCfg_cases s k with ⟨h', -⟩ | ⟨-, e⟩
  · exact absurd h' h
  · exact e

theorem checkCfg_pass {α : Type} {s : State} (h : CfgOK s) (k : Except Raise α) : checkCfg s k = k := by
  rcases checkCfg_cases s k with ⟨-, e⟩ | ⟨h', -⟩
  · exact e
  · exact absurd h h'

theorem checkLen_fail {α : Type} {s : State} (h : ¬ LenOK s) (k : Except Raise α) :
    checkLen s k = .error (.badLen, s.inLen) := by
  rcases checkLen_cases s k with ⟨h', -⟩ | ⟨-, e⟩
  · exact absurd h' h
  · exact e

theorem checkLen_pass {α : Type} {s : State} (h : LenOK s) (k : Except Raise α) : checkLen s k = k := by
  rcases checkLen_cases s k with ⟨-, e⟩ | ⟨h', -⟩
  · exact e
  · exact absurd h h'

theorem checkAligned_fail {α : Type} {s : State} (h : s.obits % 8 ≠ 0) (k : Except Raise α) :
    checkAligned s k = .error (.unaligned, BitVec.ofNat 32 s.obits) := by
  rcases checkAligned_cases s k with ⟨h', -⟩ | ⟨-, e⟩
  · exact absurd h' h
  · exact e

theorem checkAligned_pass {α : Type} {s : State} (h : s.obits % 8 = 0) (k : Except Raise α) : checkAligned s k = k := by
  rcases checkAligned_cases s k with ⟨-, e⟩ | ⟨h', -⟩
  · exact e
  · exact absurd h h'

theorem checkPbits_fail {α : Type} {s : State} (h : 8 * s.inLen.toNat < s.pbits.toNat) (k : Except Raise α) :
    checkPbits s k = .error (.hfBadPbits, s.pbits) := by
  rcases checkPbits_cases s k with ⟨h', -⟩ | ⟨-, e⟩
  · omega
  · exact e

theorem checkPbits_pass {α : Type} {s : State} (h : s.pbits.toNat ≤ 8 * s.inLen.toNat) (k : Except Raise α) :
    checkPbits s k = k := by
  rcases checkPbits_cases s k with ⟨-, e⟩ | ⟨h', -⟩
  · exact e
  · omega

/-- `(s2 << 8) | s1` as a number (R292). -/
theorem dupInfo_eq (x y : Byte) : dupInfo (x, y) = BitVec.ofNat 32 (256 * y.toNat + x.toNat) := by
  apply BitVec.eq_of_toNat_eq
  have := x.isLt
  have := y.isLt
  simp only [dupInfo]
  rw [BitVec.toNat_append, BitVec.toNat_append]
  have h2 := Nat.two_pow_add_eq_or_of_lt (i := 8) (b := x.toNat) (by omega) y.toNat
  rw [show (0 : BitVec 16).toNat <<< 8 ||| y.toNat = y.toNat by simp, Nat.shiftLeft_eq, Nat.mul_comm, ← h2]
  simp
  omega

theorem checkCodebook_fail {α : Type} {s : State} {x y : Byte} (h : IsFirstDup s x y) (k : Except Raise α) :
    checkCodebook (codebook s) k = .error (.hfCbDup, BitVec.ofNat 32 (256 * y.toNat + x.toNat)) := by
  rw [checkCodebook_false h, dupInfo_eq]

/-! ### Pipelines whose checks pass -/

theorem exec_lzEnc (s : State) (h1 : CfgOK s) (h2 : LenOK s) : exec .lzEnc s =
    .next (finish encodeEnd (iterate atInputEnd encodeToken s.inLen.toNat (encodeStart s))) := by
  show execLzEnc s = _
  rw [execLzEnc, checkCfg_pass h1, checkLen_pass h2]
  rfl

theorem exec_lzDec (s : State) (h1 : CfgOK s) (h2 : LenOK s) : exec .lzDec s =
    .next (finish id (iterate (·.endFlag) decodeToken (8 * s.inLen.toNat / 9 + 1) (decodeStart s))) := by
  show execLzDec s = _
  rw [execLzDec, checkCfg_pass h1, checkLen_pass h2]
  rfl

theorem exec_hfEnc (s : State) (h1 : LenOK s) (h2 : CbOK s) : exec .hfEnc s =
    .next (finish encodeEnd (iterate atInputEnd encodeSymbol s.inLen.toNat (encodeStart s))) := by
  show execHfEnc s = _
  rw [execHfEnc, checkLen_pass h1, checkCodebook_true h2]
  rfl

theorem exec_hfDec (s : State) (h1 : LenOK s) (h2 : s.pbits.toNat ≤ 8 * s.inLen.toNat) (h3 : CbOK s) : exec .hfDec s =
    .next (finish id (iterate (·.endFlag) (decodeSymbol (codebook s)) (s.pbits.toNat + 1) (decodeStart s))) := by
  show execHfDec s = _
  rw [execHfDec, checkLen_pass h1, checkPbits_pass h2, checkCodebook_true h3]
  rfl

/-- `IN_LEN` is far below 32 bits once it is checked (R97). -/
theorem inLen_le {s : State} (h : CapsOK s) (h2 : LenOK s) : s.inLen.toNat ≤ 2 ^ 28 := le_trans h2 h.2.1

/-! ### One word of a codebook entry -/

theorem wordMask_getLsbD (w j : Nat) : ((0xFFFFFFFF : CodeWord) <<< (32 * w)).getLsbD j =
    decide (j < 256 ∧ 32 * w ≤ j ∧ j < 32 * w + 32) := by
  rw [BitVec.getLsbD_shiftLeft]
  have low : ∀ i, (0xFFFFFFFF : CodeWord).getLsbD i = decide (i < 32) := by
    intro i
    by_cases hi : i < 256
    · have : ∀ i : Fin 256, (0xFFFFFFFF : CodeWord).getLsbD i = decide (i.val < 32) := by decide +kernel
      exact this ⟨i, hi⟩
    · rw [BitVec.getLsbD_of_ge _ _ (by omega)]
      simp
      omega
  rw [low, Bool.eq_iff_iff]
  simp
  omega

/-- A write to one word of `CBC[s]` is what that word reads, and no other word changes (R85). -/
theorem setCodeWord_extract (c : CodeWord) (w w' : Nat) (v : Word) (hw : w < 8) (hw' : w' < 8) :
    (setCodeWord c w v).extractLsb' (32 * w') 32 = if w' = w then v else c.extractLsb' (32 * w') 32 := by
  apply BitVec.eq_of_getLsbD_eq
  intro k hk
  have h2 : 32 * w' + k < 256 := by omega
  simp only [setCodeWord, BitVec.getLsbD_extractLsb', hk, BitVec.getLsbD_or, BitVec.getLsbD_and, BitVec.getLsbD_not,
    decide_true, Bool.true_and, wordMask_getLsbD]
  rw [BitVec.getLsbD_shiftLeft, BitVec.getLsbD_setWidth]
  by_cases h : w' = w
  · subst h
    have h3 : 32 * w' ≤ 32 * w' + k ∧ 32 * w' + k < 32 * w' + 32 := by omega
    simp [h2, h3]
    intro _
    omega
  · rw [if_neg h]
    have h3 : ¬ (32 * w ≤ 32 * w' + k ∧ 32 * w' + k < 32 * w + 32) := by omega
    by_cases h4 : 32 * w' + k < 32 * w
    · simp [h2, h4, hk, h3]
    · have : v.getLsbD (32 * w' + k - 32 * w) = false := BitVec.getLsbD_of_ge _ _ (by omega)
      simp [h2, hk, this, h3]

end Sys2Proof.Machine
end

