-- ==== Sys2Proof/Laws/Decode.lean ====
section
/-! SUPPORT. Fields of a command word and matching a row of the command map (R110, R111). -/

namespace Sys2Proof

theorem commandWord_getLsbD (o b : Byte) (k : Nat) : (commandWord o b).getLsbD k =
    if k < 8 then b.getLsbD k else if k < 24 then false else o.getLsbD (k - 24) := by
  simp only [commandWord, BitVec.getLsbD_append]
  by_cases h1 : k < 8
  · simp [h1]
  · by_cases h2 : k < 24
    · simp [h1, h2]; omega
    · simp [h1, h2, show ¬ k - 8 < 16 by omega, show k - 8 - 16 = k - 24 by omega]

@[simp] theorem opcField_commandWord (o b : Byte) : opcField (commandWord o b) = o := by
  apply BitVec.eq_of_getLsbD_eq
  intro k hk
  simp [opcField, commandWord_getLsbD, hk, show ¬ 24 + k < 8 by omega]

@[simp] theorem immField_commandWord (o b : Byte) : immField (commandWord o b) = b := by
  apply BitVec.eq_of_getLsbD_eq
  intro k hk
  simp [immField, commandWord_getLsbD, hk]

@[simp] theorem rsvField_commandWord (o b : Byte) : rsvField (commandWord o b) = 0 := by
  apply BitVec.eq_of_getLsbD_eq
  intro k hk
  simp only [rsvField, BitVec.getLsbD_extractLsb', commandWord_getLsbD]
  simp [show 8 + k < 24 by omega]

/-- A word is its three fields (R110). -/
theorem word_of_fields {w : Word} (h : rsvField w = 0) : w = commandWord (opcField w) (immField w) := by
  apply BitVec.eq_of_getLsbD_eq
  intro k hk
  rw [commandWord_getLsbD]
  by_cases h1 : k < 8
  · simp [h1, immField]
  · by_cases h2 : k < 24
    · have := congrArg (fun x : BitVec 16 => x.getLsbD (k - 8)) h
      simp only [rsvField, BitVec.getLsbD_extractLsb', show k - 8 < 16 by omega, decide_true, Bool.true_and,
        show 8 + (k - 8) = k by omega] at this
      simp [h1, h2, this]
    · simp [h1, h2, opcField, show k - 24 < 8 by omega, show 24 + (k - 24) = k by omega]

@[simp] theorem and_maskFull (w : Word) : w &&& maskFull = w := by
  have : maskFull = BitVec.allOnes 32 := by decide
  rw [this, BitVec.and_allOnes]

theorem maskImm_getLsbD (k : Nat) (hk : k < 32) : maskImm.getLsbD k = decide (8 ≤ k) := by
  have : ∀ k : Fin 32, maskImm.getLsbD k = decide (8 ≤ k.val) := by decide
  exact this ⟨k, hk⟩

/-- What an immediate row matches: any `IMM8` (R111). -/
theorem and_maskImm (o : Byte) (w : Word) : w &&& maskImm = commandWord o 0 ↔ w = commandWord o (immField w) := by
  constructor
  · intro h
    apply BitVec.eq_of_getLsbD_eq
    intro k hk
    have := congrArg (fun x : Word => x.getLsbD k) h
    simp only [BitVec.getLsbD_and, maskImm_getLsbD k hk, commandWord_getLsbD] at this
    rw [commandWord_getLsbD]
    by_cases h1 : k < 8
    · simp [h1, immField]
    · simpa [h1, show 8 ≤ k by omega] using this
  · intro h
    rw [h]
    apply BitVec.eq_of_getLsbD_eq
    intro k hk
    simp only [BitVec.getLsbD_and, maskImm_getLsbD k hk, commandWord_getLsbD]
    by_cases h1 : k < 8
    · simp [h1, show ¬ 8 ≤ k by omega]
    · simp [h1, show 8 ≤ k by omega]

theorem commandWord_inj {o b o' b' : Byte} : commandWord o b = commandWord o' b' ↔ o = o' ∧ b = b' := by
  constructor
  · intro h
    exact ⟨by simpa using congrArg opcField h, by simpa using congrArg immField h⟩
  · rintro ⟨rfl, rfl⟩; rfl

end Sys2Proof
end

