-- ==== Sys2Proof/Laws/Invariant.lean ====
section
/-! SUPPORT. Each shared operation keeps the invariant, under the check that stands before it. -/

namespace Sys2Proof.Machine

variable {s : State}

theorem Inv.raise (h : Inv s) (r : Raise) : Inv (raise r s) :=
  ⟨h.memWf, h.memInside, h.caps, h.outFits, fun e => (by cases e), fun _ => ⟨r.1, rfl⟩, h.token,
    ⟨h.tree.absent, h.tree.built, h.tree.count, h.tree.rootIs⟩⟩

theorem Inv.clearFault (h : Inv s) : Inv (clearFault s) :=
  ⟨h.memWf, h.memInside, h.caps, h.outFits, fun _ => ⟨rfl, rfl⟩, fun e => (by cases e), h.token,
    ⟨h.tree.absent, h.tree.built, h.tree.count, h.tree.rootIs⟩⟩

theorem Inv.setEnd (h : Inv s) (b : Bool) : Inv (setEnd b s) :=
  ⟨h.memWf, h.memInside, h.caps, h.outFits, h.noFault, h.faultCode, h.token,
    ⟨h.tree.absent, h.tree.built, h.tree.count, h.tree.rootIs⟩⟩

theorem Inv.setPos (h : Inv s) (n : Nat) : Inv (setPos n s) :=
  ⟨h.memWf, h.memInside, h.caps, h.outFits, h.noFault, h.faultCode, h.token,
    ⟨h.tree.absent, h.tree.built, h.tree.count, h.tree.rootIs⟩⟩

theorem Inv.setBitpos (h : Inv s) (n : Nat) : Inv (setBitpos n s) :=
  ⟨h.memWf, h.memInside, h.caps, h.outFits, h.noFault, h.faultCode, h.token,
    ⟨h.tree.absent, h.tree.built, h.tree.count, h.tree.rootIs⟩⟩

theorem Inv.setMatch (h : Inv s) (r : Option (Nat × Nat)) : Inv (setMatch r s) :=
  ⟨h.memWf, h.memInside, h.caps, h.outFits, h.noFault, h.faultCode, h.token,
    ⟨h.tree.absent, h.tree.built, h.tree.count, h.tree.rootIs⟩⟩

theorem Inv.setFreq (h : Inv s) (t : Table Word) : Inv (setFreq t s) :=
  ⟨h.memWf, h.memInside, h.caps, h.outFits, h.noFault, h.faultCode, h.token,
    ⟨h.tree.absent, h.tree.built, h.tree.count, h.tree.rootIs⟩⟩

theorem Inv.setCodebook (h : Inv s) (l : List (Byte × BitStr)) : Inv (setCodebook l s) :=
  ⟨h.memWf, h.memInside, h.caps, h.outFits, h.noFault, h.faultCode, h.token,
    ⟨h.tree.absent, h.tree.built, h.tree.count, h.tree.rootIs⟩⟩

/-- A unit without a match leaves `T_DIST` and `T_LEN` 0; one without a byte leaves `T_BYTE` 0 (R41 to R43). -/
theorem Inv.setToken (h : Inv s) {k : UnitKind} {b : Byte} {d l : Nat} (hb : k = .none ∨ k = .matched → b = 0)
    (hd : k ≠ .matched → d = 0 ∧ l = 0) : Inv (setToken k b d l s) :=
  ⟨h.memWf, h.memInside, h.caps, h.outFits, h.noFault, h.faultCode,
    ⟨hb, fun e => by obtain ⟨rfl, rfl⟩ := hd e; exact ⟨rfl, rfl⟩⟩,
    ⟨h.tree.absent, h.tree.built, h.tree.count, h.tree.rootIs⟩⟩

/-- A write of the output stream within the capacity (R34). -/
theorem Inv.setOstr (h : Inv s) {c : BitStr} (hc : c.length ≤ 8 * s.obufCap) : Inv { s with ostr := c } :=
  ⟨h.memWf, h.memInside, h.caps, hc, h.noFault, h.faultCode, h.token,
    ⟨h.tree.absent, h.tree.built, h.tree.count, h.tree.rootIs⟩⟩

theorem Inv.emptyOut (h : Inv s) : Inv (emptyOut s) := h.setOstr (Nat.zero_le _)

theorem Inv.outAppend (h : Inv s) {c : BitStr} (hc : s.obits + c.length ≤ s.obufBits) : Inv (outAppend c s) :=
  h.setOstr (by rw [List.length_append]; exact hc)

/-- Padding stays within the capacity, which is whole bytes (R164). -/
theorem Inv.flushOut (h : Inv s) : Inv (flushOut s) := by
  have hp := add_padLen s.obits
  have hf := h.outFits
  have : Inv { s with ostr := s.ostr ++ List.replicate (padLen s.obits) false } := by
    refine h.setOstr ?_
    rw [List.length_append, List.length_replicate]
    simp only [State.obits, ceil8] at hp ⊢
    omega
  exact ⟨this.memWf, this.memInside, this.caps, this.outFits, this.noFault, this.faultCode, this.token,
    ⟨this.tree.absent, this.tree.built, this.tree.count, this.tree.rootIs⟩⟩

theorem Inv.copyMatch (h : Inv s) {d l : Nat} (hl : s.obits + 8 * l ≤ s.obufBits) : Inv (copyMatch d l s) := by
  rw [copyMatch_writes]
  refine h.setOstr ?_
  rw [copyMatch_length]
  exact hl

/-- The tree that `HF.BUILD` stores (R215). -/
theorem setTree_treeOK (s : State) : TreeOK (setTree (buildTree s.freq) s) := by
  have hb := (buildTree_built s.freq).length
  have := leafList_length_le s.freq
  refine ⟨fun h => absurd h (by simp [setTree]), fun _ => ⟨s.freq, buildTree_isHuffTree _⟩, ?_, ?_⟩
  · show _ = (BitVec.ofNat 9 _).toNat
    rw [BitVec.toNat_ofNat, Nat.mod_eq_of_lt (by omega)]
    rfl
  · show (BitVec.ofNat 9 _).toNat = if buildTree s.freq = [] then 511 else (buildTree s.freq).length - 1
    by_cases h : buildTree s.freq = []
    · simp [h, Config.nil]
    · have : (buildTree s.freq).length ≠ 0 := by simpa using h
      rw [if_neg this, if_neg h, BitVec.toNat_ofNat, Nat.mod_eq_of_lt (by omega)]

theorem Inv.setTree (h : Inv s) : Inv (setTree (buildTree s.freq) s) :=
  ⟨h.memWf, h.memInside, h.caps, h.outFits, h.noFault, h.faultCode, h.token, setTree_treeOK s⟩

theorem Inv.discardTree (h : Inv s) : Inv (discardTree s) :=
  ⟨h.memWf, h.memInside, h.caps, h.outFits, h.noFault, h.faultCode, h.token,
    ⟨fun _ => ⟨rfl, rfl, rfl⟩, fun e => (by cases e), rfl, rfl⟩⟩

/-- `BUF.XFER` writes inside the input buffer (R272). -/
theorem Inv.moveOutput (h : Inv s) (hl : s.olen ≤ s.ibufCap) : Inv (moveOutput s) := by
  refine ⟨Memory.writeList_wf _ _ _ h.memWf, fun a b hab => ?_, h.caps, Nat.zero_le _, h.noFault, h.faultCode, h.token,
    ⟨h.tree.absent, h.tree.built, h.tree.count, h.tree.rootIs⟩⟩
  rcases Memory.mem_writeList _ _ _ _ hab with ⟨-, h2⟩ | h2
  · rw [outBytes_length] at h2
    show a < s.ibufCap
    simp only at h2
    omega
  · exact h.memInside a b h2

theorem resetWith_inv {a b : Nat} (h : 1 ≤ a ∧ a ≤ 2 ^ 28 ∧ 1 ≤ b ∧ b ≤ 2 ^ 28) (e : Nat) (q : List HostTxn) (v : Option Word) :
    Inv { State.resetWith a b with epoch := e, hostq := q, rdata := v } :=
  ⟨rfl, fun _ _ h => (by cases h), h, Nat.zero_le _, fun _ => ⟨rfl, rfl⟩, fun e => (by cases e),
    ⟨fun _ => rfl, fun _ => ⟨rfl, rfl⟩⟩, ⟨fun _ => ⟨rfl, rfl, rfl⟩, fun e => (by cases e), rfl, rfl⟩⟩

theorem Inv.resetEngine (h : Inv s) : Inv (resetEngine s) := resetWith_inv h.caps _ _ _

/-- A host write to a register other than `CMD` (R278). -/
theorem Inv.writeDataReg (h : Inv s) (n : BitVec 5) (v : Word) : Inv (writeDataReg n v s) := by
  unfold Machine.writeDataReg
  split <;> first
    | exact h
    | exact ⟨h.memWf, h.memInside, h.caps, h.outFits, h.noFault, h.faultCode, h.token,
        ⟨h.tree.absent, h.tree.built, h.tree.count, h.tree.rootIs⟩⟩

/-- A host write to a space, inside it (R279). -/
theorem Inv.hostWriteMem (h : Inv s) {sp : Space} {i : Nat} (hi : i < sp.size s) (v : Word) : Inv (hostWriteMem sp i v s) := by
  cases sp with
  | tree => exact h
  | obuf => exact h
  | ibuf =>
    refine ⟨Memory.write_wf _ _ _ h.memWf, fun a b hab => ?_, h.caps, h.outFits, h.noFault, h.faultCode, h.token,
      ⟨h.tree.absent, h.tree.built, h.tree.count, h.tree.rootIs⟩⟩
    rcases Memory.mem_write _ _ _ _ hab with e | h2
    · cases e
      exact hi
    · exact h.memInside a b h2
  | freq | cbl | cbc =>
    exact ⟨h.memWf, h.memInside, h.caps, h.outFits, h.noFault, h.faultCode, h.token,
      ⟨h.tree.absent, h.tree.built, h.tree.count, h.tree.rootIs⟩⟩

/-- What the host holds is no part of the invariant. -/
theorem Inv.setHost (h : Inv s) (q : List HostTxn) (v : Option Word) : Inv { s with hostq := q, rdata := v } :=
  ⟨h.memWf, h.memInside, h.caps, h.outFits, h.noFault, h.faultCode, h.token,
    ⟨h.tree.absent, h.tree.built, h.tree.count, h.tree.rootIs⟩⟩

/-! ### Units -/

theorem Inv.encodeToken (h : Inv s) {t : State} (hu : encodeToken s = .ok t) : Inv t := by
  rcases encodeToken_ok hu with ⟨d, l, -, hr, rfl⟩ | ⟨-, hr, rfl⟩
  · exact (((h.outAppend (by rw [matchToken_length]; exact hr)).setMatch _).setPos _).setEnd _
  · exact (((h.outAppend (by rw [literalToken_length]; exact hr)).setMatch _).setPos _).setEnd _

theorem Inv.setTerminal (h : Inv s) : Inv (setTerminal s) :=
  (h.setToken (fun _ => rfl) (fun _ => ⟨rfl, rfl⟩)).setEnd _

theorem Inv.decodeToken (h : Inv s) {t : State} (hu : decodeToken s = .ok t) : Inv t := by
  rcases decodeToken_cases hu with ⟨-, rfl⟩ | ⟨b, hr, -, rfl⟩ | ⟨d, l, hr, -, -, -, rfl⟩
  · exact h.setTerminal
  · exact (((h.outAppend (by rw [bits_length]; exact hr)).setToken (by simp) (fun _ => ⟨rfl, rfl⟩)).setBitpos _).setEnd _
  · exact (((h.copyMatch hr).setToken (fun _ => rfl) (fun e => absurd rfl e)).setBitpos _).setEnd _

theorem Inv.encodeSymbol (h : Inv s) {t : State} (hu : encodeSymbol s = .ok t) : Inv t := by
  obtain ⟨c, -, hr, rfl⟩ := encodeSymbol_ok hu
  exact (h.outAppend hr).setPos _

theorem Inv.decodeSymbol (h : Inv s) {cb : List (Byte × BitStr)} {t : State} (hu : decodeSymbol cb s = .ok t) : Inv t := by
  rcases decodeSymbol_cases hu with ⟨-, rfl⟩ | ⟨x, k, -, -, hr, rfl⟩
  · exact h.setTerminal
  · exact (((h.outAppend (by rw [bits_length]; exact hr)).setToken (by simp) (fun _ => ⟨rfl, rfl⟩)).setBitpos _).setEnd _

/-- A pipeline whose units and end keep the invariant keeps it, whether it ends or raises. -/
theorem Inv.finish {done : State → Bool} {unit : State → Except Raise State} {f : State → State} (h : Inv s)
    (hunit : ∀ a b, Inv a → unit a = .ok b → Inv b) (hf : ∀ a, Inv a → Inv (f a)) (fuel : Nat) :
    Inv (finish f (iterate done unit fuel s)) := by
  have hk := iterate_keeps (done := done) Inv (fun a b ha _ hu => hunit a b ha hu) fuel s h
  rcases finish_cases f (iterate done unit fuel s) with ⟨-, e⟩ | ⟨r, -, e⟩ <;> rw [e]
  · exact hf _ hk
  · exact hk.raise r

/-- A command keeps the invariant if its effect does. -/
theorem Inv.complete (h : Inv s) {r : Except Raise State} (hr : ∀ t, r = .ok t → Inv t) {t : State}
    (e : complete s r = .next t) : Inv t := by
  rcases complete_cases s r with ⟨u, hu, e'⟩ | ⟨x, -, e'⟩ <;> rw [e'] at e <;> cases e
  · exact hr _ hu
  · exact h.raise x

end Sys2Proof.Machine
end

