-- ==== Sys2Proof/Laws/PerInstr.lean ====
section
/-! SUPPORT. Per instruction: the word of a well-formed instruction is a legal command word (R121). -/

namespace Sys2Proof.Laws.LegalWord

/-- The word of the instruction passes the three checks of R121. -/
def Statement (i : Instr) : Prop := i.wellFormed = true → wordWellFormed (encode i) = true

theorem nop : Statement .nop := fun _ => by decide
theorem lzFind : Statement .lzFind := fun _ => by decide
theorem lzPutl (b : Byte) : Statement (.lzPutl b) := fun _ => by
  simp [wordWellFormed, opcAssigned, rsvZero, immAllowed, encode]
theorem lzPutm : Statement .lzPutm := fun _ => by decide
theorem lzStep : Statement .lzStep := fun _ => by decide
theorem lzEnc : Statement .lzEnc := fun _ => by decide
theorem lzDstep : Statement .lzDstep := fun _ => by decide
theorem lzDec : Statement .lzDec := fun _ => by decide
theorem hfCount : Statement .hfCount := fun _ => by decide
theorem hfBuild : Statement .hfBuild := fun _ => by decide
theorem hfDerive : Statement .hfDerive := fun _ => by decide
theorem hfPuts (b : Byte) : Statement (.hfPuts b) := fun _ => by
  simp [wordWellFormed, opcAssigned, rsvZero, immAllowed, encode]
theorem hfEnc : Statement .hfEnc := fun _ => by decide
theorem hfDsym : Statement .hfDsym := fun _ => by decide
theorem hfDec : Statement .hfDec := fun _ => by decide
theorem bsInit : Statement .bsInit := fun _ => by decide
theorem bsFlush : Statement .bsFlush := fun _ => by decide
theorem bufXfer : Statement .bufXfer := fun _ => by decide
theorem sysClrerr : Statement .sysClrerr := fun _ => by decide
theorem sysReset : Statement .sysReset := fun _ => by decide

end Sys2Proof.Laws.LegalWord
end

