-- ==== Sys2Proof/Tests/Slice0.lean ====
section
/-! SUPPORT. Checks of the model's own work against `spec/95_test_vectors.md` (the name of the vector stands before each test), and
for each statement with hypotheses a state and operands that meet them. -/

namespace Sys2Proof.Tests

open Sys2Proof Sys2Proof.Machine

-- One kernel evaluation at a time: each thread reserves its stack.
set_option Elab.async false

/-! ### Builders -/

def byteList (bs : List Nat) : List Byte := bs.map (BitVec.ofNat 8)

/-- Reset, with the bytes in `IBUF` and their number in `IN_LEN`. -/
def loaded (bs : List Nat) : State :=
  { State.reset with ibuf := Memory.writeList [] 0 (byteList bs), inLen := BitVec.ofNat 32 bs.length }

/-- With these bits as the output stream. -/
def withOut (c : BitStr) (s : State) : State := { s with ostr := c }

/-- With the codebook entries `(symbol, length, value)` that a host has written, others 0. -/
def withCodes (l : List (Nat × Nat × Nat)) (s : State) : State :=
  l.foldl (fun s e => { s with
    cbl := Table.put s.cbl (BitVec.ofNat 8 e.1) (BitVec.ofNat 8 e.2.1)
    cbc := Table.put s.cbc (BitVec.ofNat 8 e.1) (BitVec.ofNat 256 e.2.2) }) s

/-- With the frequencies `(symbol, frequency)` that a host has written, others 0. -/
def withFreq (l : List (Nat × Nat)) (s : State) : State :=
  l.foldl (fun s e => { s with freq := Table.put s.freq (BitVec.ofNat 8 e.1) (BitVec.ofNat 32 e.2) }) s

/-- One step that issues the command word `w`; what `f` sees after it. -/
def result {α : Type} (w : Nat) (s : State) (f : State → α) : Option α :=
  match step (s.withFetchWord 32 w) with
  | .next t => some (f t)
  | _ => none

/-- `STATUS`, `ERRINFO`. -/
def faultRegs (s : State) : Word × Word := (statusWord s, s.errInfo)

/-- `T_KIND`, `T_BYTE`, `T_DIST`, `T_LEN`. -/
def tokenView (s : State) : UnitKind × Byte × BitVec 12 × BitVec 9 := (s.tKind, s.tByte, s.tDist, s.tLen)

/-- The codebook V-HC1: a `0`, b `110`, c `100`, d `101`, r `111`. -/
def codesHC1 : List (Nat × Nat × Nat) := [(0x61, 1, 0), (0x62, 3, 6), (0x63, 3, 4), (0x64, 3, 5), (0x72, 3, 7)]

/-- "abracadabra". -/
def abracadabra : List Nat := [0x61, 0x62, 0x72, 0x61, 0x63, 0x61, 0x64, 0x61, 0x62, 0x72, 0x61]

/-- "abcabcabc". -/
def abcabcabc : List Nat := [0x61, 0x62, 0x63, 0x61, 0x62, 0x63, 0x61, 0x62, 0x63]

/-- "abcXabcYabc". -/
def abcXabcYabc : List Nat := [0x61, 0x62, 0x63, 0x58, 0x61, 0x62, 0x63, 0x59, 0x61, 0x62, 0x63]

/-! ### Well-formedness and decoding: the words of R112, written out from R110 -/

theorem test_refuses_unassigned_opc : wordWellFormed 0x08000000 = false ∧ decode 0x08000000 = .error .unassignedOpc := by decide
theorem test_refuses_reserved_bits : wordWellFormed 0x01000100 = false ∧ decode 0x01000100 = .error .reservedBits := by decide
theorem test_refuses_stray_immediate : wordWellFormed 0x05000001 = false ∧ decode 0x05000001 = .error .strayImmediate := by
  decide
theorem test_refuses_reserved_bits_beside_immediate :
    wordWellFormed 0x02010061 = false ∧ decode 0x02010061 = .error .reservedBits := by decide
theorem test_accepts_immediate : wordWellFormed 0x020000FF = true ∧ wordWellFormed 0x130000FF = true := by decide

theorem test_decode_nop : decode 0b00000000_0000000000000000_00000000 = .ok .nop := by decide
theorem test_decode_lzFind : decode 0b00000001_0000000000000000_00000000 = .ok .lzFind := by decide
theorem test_decode_lzPutl : decode 0b00000010_0000000000000000_01100001 = .ok (.lzPutl 0x61) := by decide
theorem test_decode_lzPutm : decode 0b00000011_0000000000000000_00000000 = .ok .lzPutm := by decide
theorem test_decode_lzStep : decode 0b00000100_0000000000000000_00000000 = .ok .lzStep := by decide
theorem test_decode_lzEnc : decode 0b00000101_0000000000000000_00000000 = .ok .lzEnc := by decide
theorem test_decode_lzDstep : decode 0b00000110_0000000000000000_00000000 = .ok .lzDstep := by decide
theorem test_decode_lzDec : decode 0b00000111_0000000000000000_00000000 = .ok .lzDec := by decide
theorem test_decode_hfCount : decode 0b00010000_0000000000000000_00000000 = .ok .hfCount := by decide
theorem test_decode_hfBuild : decode 0b00010001_0000000000000000_00000000 = .ok .hfBuild := by decide
theorem test_decode_hfDerive : decode 0b00010010_0000000000000000_00000000 = .ok .hfDerive := by decide
theorem test_decode_hfPuts : decode 0b00010011_0000000000000000_01111010 = .ok (.hfPuts 0x7A) := by decide
theorem test_decode_hfEnc : decode 0b00010100_0000000000000000_00000000 = .ok .hfEnc := by decide
theorem test_decode_hfDsym : decode 0b00010101_0000000000000000_00000000 = .ok .hfDsym := by decide
theorem test_decode_hfDec : decode 0b00010110_0000000000000000_00000000 = .ok .hfDec := by decide
theorem test_decode_bsInit : decode 0b00100000_0000000000000000_00000000 = .ok .bsInit := by decide
theorem test_decode_bsFlush : decode 0b00100001_0000000000000000_00000000 = .ok .bsFlush := by decide
theorem test_decode_bufXfer : decode 0b00100010_0000000000000000_00000000 = .ok .bufXfer := by decide
theorem test_decode_sysClrerr : decode 0b01111110_0000000000000000_00000000 = .ok .sysClrerr := by decide
theorem test_decode_sysReset : decode 0b01111111_0000000000000000_00000000 = .ok .sysReset := by decide

/-! ### Vectors -/

/-- V-SY13. -/
theorem test_nop : result 0x00000000 State.reset id = some State.reset := rfl

/-- V-MF7: a tie goes to the nearest. -/
theorem test_lzFind_tie : result 0x01000000 { loaded abcXabcYabc with pos := 8 } (fun t => (t.mvalid, t.mDist, t.mLen)) =
    some (true, 4, 3) := by decide +kernel

/-- V-MF10, "abcabxabcabc_abcab": the longest beats the nearest. -/
theorem test_lzFind_longest : result 0x01000000
    { loaded [0x61, 0x62, 0x63, 0x61, 0x62, 0x78, 0x61, 0x62, 0x63, 0x61, 0x62, 0x63, 0x5F, 0x61, 0x62, 0x63, 0x61, 0x62] with
      pos := 13 } (fun t => (t.mvalid, t.mDist, t.mLen)) = some (true, 7, 5) := by decide +kernel

/-- V-LP1. -/
theorem test_lzPutl : result 0x02000061 State.reset (fun t => (t.obits, t.olen, outBytes t)) =
    some (9, 2, byteList [0x30, 0x80]) := by decide +kernel

/-- V-LP9. -/
theorem test_lzPutl_full : result 0x02000062 { withOut (false :: bits 8 0x61) State.reset with obufCap := 2 }
    (fun t => (faultRegs t, outBytes t)) = some ((0x00000501, 9), byteList [0x30, 0x80]) := by decide +kernel

/-- V-LP3. -/
theorem test_lzPutm : result 0x03000000 { State.reset with mDist := 4095, mLen := 18 } (fun t => (t.obits, outBytes t)) =
    some (17, byteList [0xFF, 0xFF, 0x80]) := by decide +kernel

/-- V-LP7. -/
theorem test_lzPutm_range : result 0x03000000 { State.reset with mDist := 1, mLen := 19 }
    (fun t => (faultRegs t, t.obits)) = some ((0x00000401, 0), 0) := by decide +kernel

/-- V-LE20. -/
theorem test_lzStep : result 0x04000000
    { withOut (bits 27 0b001100001001100010001100011) (loaded abcabcabc) with pos := 3 }
    (fun t => (outBytes t, t.obits, t.pos, t.mvalid, t.endFlag)) =
    some (byteList [0x30, 0x98, 0x8C, 0x70, 0x03, 0x30], 44, 9, true, false) := by decide +kernel

/-- V-LE21. -/
theorem test_lzStep_end : result 0x04000000 { loaded abcabcabc with pos := 9 } (fun t => (t.endFlag, t.obits, t.pos)) =
    some (true, 0, 9) := by decide +kernel

/-- V-LE11, "abcdabcdabcabcd". -/
theorem test_lzEnc : result 0x05000000
    (loaded [0x61, 0x62, 0x63, 0x64, 0x61, 0x62, 0x63, 0x64, 0x61, 0x62, 0x63, 0x61, 0x62, 0x63, 0x64])
    (fun t => (outBytes t, t.pbits, t.pos, statusWord t)) =
    some (byteList [0x30, 0x98, 0x8C, 0x66, 0x48, 0x02, 0x24, 0x01, 0xC4], 70, 15, 0x00000006) := by decide +kernel

/-- V-LE19. -/
theorem test_lzEnc_full : result 0x05000000 { loaded abcabcabc with obufCap := 4 }
    (fun t => (faultRegs t, outBytes t, t.pbits, t.pos, t.mDist)) =
    some ((0x00000501, 27), byteList [0x30, 0x98, 0x8C, 0x60], 0, 3, 0) := by decide +kernel

/-- P1, the fourth `lz.dstep`. -/
theorem test_lzDstep : result 0x06000000
    { withOut (bits 24 0x616263) (loaded [0x30, 0x98, 0x8C, 0x70, 0x03, 0x30]) with bitpos := 27 }
    (fun t => (tokenView t, t.bitpos, outBytes t)) =
    some ((.matched, 0, 3, 6), 44, byteList abcabcabc) := by decide +kernel

/-- V-LD17. -/
theorem test_lzDstep_unaligned : result 0x06000000 (withOut (false :: bits 8 0x61) (loaded [0xFF])) faultRegs =
    some (0x00000601, 9) := by decide +kernel

/-- V-LE8's stream: 25 times "a". -/
theorem test_lzDec : result 0x07000000 (loaded [0x30, 0xC0, 0x07, 0xE0, 0x02, 0x60])
    (fun t => (outBytes t, t.bitpos, statusWord t, t.tKind)) =
    some (List.replicate 25 0x61, 43, 0x00000002, .none) := by decide +kernel

/-- V-LD7. -/
theorem test_lzDec_range : result 0x07000000 (loaded [0x30, 0xC0, 0x10, 0x00])
    (fun t => (faultRegs t, outBytes t, t.bitpos, t.tByte)) =
    some ((0x00001201, 9), [0x61], 9, 0x61) := by decide +kernel

/-- V-HT1's frequencies. -/
theorem test_hfCount : result 0x10000000 (loaded abracadabra) (fun t => (t.freq.toList.filter (· ≠ 0), Table.get t.freq 0x61, Table.get t.freq 0x72)) =
    some ([5, 2, 1, 1, 2], 5, 2) := by decide +kernel

/-- V-HT9. -/
theorem test_hfCount_len : result 0x10000000 { State.reset with inLen := 65 } faultRegs = some (0x00000301, 0x41) := by
  decide +kernel

/-- V-HT7: a leaf comes before an internal node of the same frequency. -/
theorem test_hfBuild_order :
    result 0x11000000 (withFreq [(0x30, 1), (0x31, 1), (0x32, 2), (0x33, 3), (0x34, 5), (0x35, 8)] State.reset)
      (fun t => (t.nodes.drop 6, t.nnodes, t.root, statusWord t)) =
    some ([.internal 2 0 1, .internal 4 2 6, .internal 7 3 7, .internal 12 4 8, .internal 20 5 9], 11, 10, 0x00000008) := by
  decide +kernel

/-- V-HT8: a frequency of 33 bits in the `TREE` space. -/
theorem test_hfBuild_wide : result 0x11000000 (withFreq [(0, 0xFFFFFFFF), (255, 0xFFFFFFFF)] State.reset)
    (fun t => (hostReadMem t .tree 8, hostReadMem t .tree 9, hostReadMem t .tree 10, hostReadMem t .tree 11)) =
    some (0xFFFFFFFE, 0x00000001, 0x00000100, 0x00010000) := by decide +kernel

/-- The tree V-HT1. -/
def treeHT1 : State := setTree
  [.leaf 0x61 5, .leaf 0x62 2, .leaf 0x63 1, .leaf 0x64 1, .leaf 0x72 2,
   .internal 2 2 3, .internal 4 1 4, .internal 6 5 6, .internal 11 0 7] State.reset

/-- V-HC1. -/
theorem test_hfDerive : result 0x12000000 treeHT1 (fun t => (codebook t, t.nnodes, t.root)) =
    some ([(0x61, [false]), (0x62, [true, true, false]), (0x63, [true, false, false]), (0x64, [true, false, true]),
      (0x72, [true, true, true])], 0, 511) := by decide +kernel

/-- V-HC9. -/
theorem test_hfDerive_notree : result 0x12000000 (withCodes codesHC1 State.reset) (fun t => (faultRegs t, code t 0x62)) =
    some ((0x00002001, 0), some [true, true, false]) := by decide +kernel

/-- V-HB8. -/
theorem test_hfPuts : result 0x13000062 (withCodes codesHC1 State.reset) (fun t => (t.obits, outBytes t)) = some (3, [0xC0]) := by
  decide +kernel

/-- V-HB11. -/
theorem test_hfPuts_dup : result 0x13000061 (withCodes [(0x61, 2, 1), (0x7A, 2, 0xFFFFFD01)] State.reset) faultRegs =
    some (0x00002101, 0x7A61) := by decide +kernel

/-- V-HB1. -/
theorem test_hfEnc : result 0x14000000 (withCodes codesHC1 (loaded abracadabra))
    (fun t => (outBytes t, t.pbits, t.obits, t.pos, statusWord t)) =
    some (byteList [0x6E, 0x8A, 0xDC], 23, 24, 11, 0x00000002) := by decide +kernel

/-- V-HB10, "abxa". -/
theorem test_hfEnc_missing : result 0x14000000 (withCodes codesHC1 (loaded [0x61, 0x62, 0x78, 0x61]))
    (fun t => (faultRegs t, outBytes t, t.pbits, t.obits, t.pos)) =
    some ((0x00002201, 0x78), [0x60], 0, 4, 2) := by decide +kernel

/-- V-HD9, the second `hf.dsym`. -/
theorem test_hfDsym : result 0x15000000
    { withOut (bits 8 0x61) (withCodes codesHC1 (loaded [0x6E, 0x8A, 0xDC])) with pbits := 23, bitpos := 1 }
    (fun t => (outBytes t, t.bitpos, tokenView t)) =
    some (byteList [0x61, 0x62], 4, (.symbol, 0x62, 0, 0)) := by decide +kernel

/-- V-HD15: the payload length is checked before alignment. -/
theorem test_hfDsym_order : result 0x15000000
    { withOut (false :: bits 8 0x61) (loaded [0x00]) with pbits := 9 } faultRegs = some (0x00002501, 9) := by decide +kernel

/-- V-HD1. -/
theorem test_hfDec : result 0x16000000 { withCodes codesHC1 (loaded [0x6E, 0x8A, 0xDC]) with pbits := 23 }
    (fun t => (outBytes t, t.bitpos, statusWord t, t.tKind)) =
    some (byteList abracadabra, 23, 0x00000002, .none) := by decide +kernel

/-- V-HD4. -/
theorem test_hfDec_trunc : result 0x16000000 { withCodes codesHC1 (loaded [0x6E, 0x8A, 0xDC]) with pbits := 21 }
    (fun t => (faultRegs t, t.olen, t.bitpos, t.tKind, t.tByte)) =
    some ((0x00002401, 19), 9, 19, .symbol, 0x62) := by decide +kernel

/-- V-LP13. -/
theorem test_bsInit : result 0x20000000 { withOut (bits 16 0x3080) State.reset with pbits := 16, endFlag := true }
    (fun t => (t.obits, hostReadMem t .obuf 0, t.endFlag, t.pbits)) = some (0, 0, false, 16) := by decide +kernel

/-- V-LP11. -/
theorem test_bsFlush : result 0x21000000 (withOut (false :: bits 8 0x61) State.reset) (fun t => (t.pbits, t.obits, outBytes t)) =
    some (9, 16, byteList [0x30, 0x80]) := by decide +kernel

/-- V-SY8. -/
theorem test_bufXfer : result 0x22000000 (withOut (false :: bits 8 0x61) (loaded [0, 0, 7]))
    (fun t => (hostReadMem t .ibuf 0, hostReadMem t .ibuf 1, hostReadMem t .ibuf 2, t.inLen, t.obits)) =
    some (0x30, 0x80, 7, 2, 0) := by decide +kernel

/-- V-SY9. -/
theorem test_bufXfer_len : result 0x22000000
    { withOut (bits 40 0x30988C6640) State.reset with ibufCap := 4, endFlag := true } (fun t => (faultRegs t, t.obits, t.ibuf)) =
    some ((0x00000303, 5), 40, []) := by decide +kernel

/-- V-SY5. -/
theorem test_sysClrerr : result 0x7E000000 (faulted 0x01 0x05000001 State.reset) faultRegs = some (0, 0) := by
  decide +kernel

/-- V-SY10. -/
theorem test_sysReset : result 0x7F000000 { withCodes codesHC1 (loaded abcabcabc) with wsize := 0, minm := 9, err := true }
    (fun t => (t.wsize, t.minm, code t 0x62, statusWord t)) = some (4096, 3, none, 0) := by decide +kernel

/-- V-SY3, V-SY6. -/
theorem test_illegal : result 0x05000001 State.reset faultRegs = some (0x00000101, 0x05000001) ∧
    result 0x7E000001 State.reset faultRegs = some (0x00000101, 0x7E000001) := by decide +kernel

/-- V-SY4, V-SY7. -/
theorem test_gate :
    result 0x02000061 (faulted 0x01 0x05000001 State.reset) (fun t => (faultRegs t, t.obits)) = some ((0x00000101, 0x05000001), 0) ∧
    result 0x7F000100 (faulted 0x01 0x05000001 State.reset) faultRegs = some (0x00000101, 0x05000001) := by decide +kernel

/-- V-SY12. -/
theorem test_register_truncation :
    hostReadReg (writeDataReg 3 0xFFFFFFFF (writeDataReg 4 0x1FF (writeDataReg 5 0xFFF State.reset))) 3 = 0x1FFF ∧
    hostReadReg (writeDataReg 4 0x1FF State.reset) 4 = 0xFF ∧ hostReadReg (writeDataReg 5 0xFFF State.reset) 5 = 0x1FF := by
  decide +kernel

/-- R85: word `w` of `CBC[s]` is bits `[32w+31:32w]`; the bits a write does not name are kept. -/
theorem test_codebook_words :
    Table.get (hostWriteMem .cbc 2047 0x80000001 (hostWriteMem .cbc 2040 5 State.reset)).cbc 0xFF =
      (0x80000001 : CodeWord) <<< 224 ||| 5 := by decide +kernel

/-! ### States and operands that meet the hypotheses of the statements

`witness_<statement>`: a conjunction with one member for each clause, at a boundary where the clause has one. -/

theorem cfg_ok {s : State} (h : cfgOK s = true) : CfgOK s := (CfgOK.iff s).mpr h
theorem cfg_bad {s : State} (h : cfgOK s = false) : ¬ CfgOK s := fun c => by rw [CfgOK.iff, h] at c; cases c
theorem len_ok {s : State} (h : lenOK s = true) : LenOK s := (LenOK.iff s).mpr h
theorem len_bad {s : State} (h : lenOK s = false) : ¬ LenOK s := fun c => by rw [LenOK.iff, h] at c; cases c
theorem reset_caps : CapsOK State.reset := by unfold CapsOK; decide

/-- `IN_LEN` at the capacity, and one above it. -/
def lenAtCap : State := { State.reset with inLen := 64 }
def lenAboveCap : State := { State.reset with inLen := 65 }

/-- `WSIZE` 4096 and `MAXM - MINM` 15, the largest that are legal; `MAXM - MINM` 16. -/
def cfgWidest : State := { State.reset with minm := 255, maxm := 270 }
def cfgTooWide : State := { State.reset with minm := 2, maxm := 18 }

theorem witness_DecodeInvertsEncode : decode 0x020000FF = .ok (.lzPutl 0xFF) ∧ decode 0x7F000000 = .ok .sysReset := by decide

theorem witness_FirstAndOnlyRow :
    (∃ r ∈ opcodeRows, (0x130000FF : Word) &&& r.mask = r.pattern) ∧
    (∃ r ∈ opcodeRows, (0x7F000000 : Word) &&& r.mask = r.pattern) ∧
    ∀ r ∈ opcodeRows, (0x7F000001 : Word) &&& r.mask ≠ r.pattern := by decide

theorem witness_IllegalWords : State.reset.err = false ∧ (∃ e, decode 0x08000000 = .error e) ∧ (∃ e, decode 0x17000000 = .error e) ∧
    (∃ e, decode 0x00000100 = .error e) ∧ ∃ e, decode 0x7E000001 = .error e :=
  ⟨rfl, ⟨.unassignedOpc, by decide⟩, ⟨.unassignedOpc, by decide⟩, ⟨.reservedBits, by decide⟩, .strayImmediate, by decide⟩

/-- One transaction of each kind at the head; a command's word. -/
theorem witness_StepRunsDecodedCommand :
    (∀ t ∈ [HostTxn.readReg 31, .writeReg 3 1, .readMem .ibuf 63, .writeMem .freq 255 1, .hardReset],
      ∃ s : State, s.hostq = t :: []) ∧
    (∃ s : State, s.hostq = [.writeReg 0 0x05000000] ∧ s.err = false ∧ decode 0x05000000 = .ok .lzEnc) ∧
    decodeTableWord 32 0x130000FF = some (.hfPuts 0xFF) :=
  ⟨fun t _ => ⟨{ State.reset with hostq := [t] }, rfl⟩,
    ⟨{ State.reset with hostq := [.writeReg 0 0x05000000] }, rfl, rfl, by decide⟩, by decide⟩

theorem witness_CommandWriteOrder : ∃ s t u : State,
    (s.hostq = [.writeReg 0 0x7E000001] ∧ s.err = true ∧ (0x7E000001 : Word) ≠ 0x7E000000 ∧ (0x7E000001 : Word) ≠ 0x7F000000) ∧
    (t.hostq = [.writeReg 0 0x7E000001] ∧ t.err = false ∧ decode 0x7E000001 = .error .strayImmediate) ∧
    (u.hostq = [.writeReg 0 0x7E000000] ∧ u.err = true ∧ decode 0x7E000000 = .ok .sysClrerr) :=
  ⟨{ State.reset with hostq := [.writeReg 0 0x7E000001], err := true }, { State.reset with hostq := [.writeReg 0 0x7E000001] },
    { State.reset with hostq := [.writeReg 0 0x7E000000], err := true },
    ⟨rfl, rfl, by decide, by decide⟩, ⟨rfl, rfl, by decide⟩, rfl, rfl, by decide⟩

/-- The fault is kept, and it is cleared. -/
theorem witness_FirstFaultIsKept :
    ((faulted 0x03 65 State.reset).err = true ∧ step (faulted 0x03 65 State.reset) = .next (faulted 0x03 65 State.reset)) ∧
    ∃ s t : State, s.err = true ∧ step s = .next t ∧ t.err = false :=
  ⟨⟨rfl, rfl⟩, { State.reset with err := true, hostq := [.writeReg 0 0x7E000000] }, State.reset, rfl, rfl, rfl⟩

theorem witness_IdleStepChangesNothing : State.reset.hostq = [] := rfl

theorem witness_ReadsHaveNoSideEffect :
    (∃ s : State, s.hostq = [.readReg 31]) ∧ ∃ s : State, s.hostq = [.readMem .cbc 2047] ∧ 2047 < Space.cbc.size s :=
  ⟨⟨{ State.reset with hostq := [.readReg 31] }, rfl⟩, { State.reset with hostq := [.readMem .cbc 2047] }, rfl, by decide⟩

/-- The last unit of each space. -/
theorem witness_MemoryWritesReadBack : 255 < Space.freq.size State.reset ∧ 255 < Space.cbl.size State.reset ∧
    2047 < Space.cbc.size State.reset ∧ 2043 < Space.tree.size State.reset ∧ 63 < Space.ibuf.size State.reset ∧
    63 < Space.obuf.size State.reset := by decide

/-- The first index outside each space. -/
theorem witness_IndexOutsideSpaceStops : Space.freq.size State.reset ≤ 256 ∧ Space.cbl.size State.reset ≤ 256 ∧
    Space.cbc.size State.reset ≤ 2048 ∧ Space.tree.size State.reset ≤ 2044 ∧ Space.ibuf.size State.reset ≤ 64 ∧
    Space.obuf.size State.reset ≤ 64 := by decide

/-- The last entry of each table and the last word of its code. -/
theorem witness_MemoryReads : 255 < 256 ∧ 7 < 8 ∧ 31 < 32 := by decide

theorem witness_OutputBytes : (withOut (bits 9 0x1FF) State.reset).olen ≤ 2 ∧ 63 < State.reset.obufCap := by decide

/-- No tree; the last leaf and the root of V-HT1; the first number above its nodes. -/
theorem witness_TreeWords : State.reset.tvalid = false ∧
    (treeHT1.tvalid = true ∧ 4 < treeHT1.nnodes.toNat ∧ treeHT1.nodes[4]? = some (Node.leaf 0x72 2)) ∧
    (8 < treeHT1.nnodes.toNat ∧ treeHT1.nodes[8]? = some (Node.internal 11 0 7)) ∧ treeHT1.nnodes.toNat ≤ 9 := by decide

/-- The output as long as the input buffer, and one byte longer. -/
theorem witness_TransferMovesOutput :
    (withOut (List.replicate 512 true) State.reset).olen ≤ State.reset.ibufCap ∧
    State.reset.ibufCap < (withOut (List.replicate 513 true) State.reset).olen := by decide +kernel

theorem witness_SingleUnitFaultsArePrecise :
    exec .hfDerive State.reset = .next (faulted 0x20 0 State.reset) ∧ State.reset.err = false ∧
    (faulted 0x20 0 State.reset).err = true ∧ Instr.hfDerive ≠ .lzEnc ∧ Instr.hfDerive ≠ .lzDec ∧ Instr.hfDerive ≠ .hfEnc ∧
    Instr.hfDerive ≠ .hfDec := ⟨rfl, rfl, rfl, by decide, by decide, by decide, by decide⟩

/-- A command that raises; a pipeline that raises in its loop (V-LD8). -/
theorem witness_FaultCodesPerCommand :
    (State.reset.err = false ∧ exec .hfCount lenAboveCap = .next (faulted 0x03 65 lenAboveCap)) ∧
    ∃ t, exec .lzDec (loaded [0x80, 0x28, 0x00]) = .next t ∧ t.err = true := by
  refine ⟨⟨rfl, rfl⟩, _, rfl, by decide +kernel⟩

theorem witness_OnlyListedCommandsWrite : Instr.nop ≠ .sysReset ∧ Instr.nop ∉ [Instr.bufXfer, .sysReset] ∧
    Instr.nop ∈ [Instr.nop, .lzFind, .hfCount, .hfBuild, .hfDerive, .sysClrerr] ∧
    ∃ b, Instr.hfPuts 0xFF = .lzPutl b ∨ Instr.hfPuts 0xFF = .hfPuts b :=
  ⟨by decide, by decide, by decide, 0xFF, .inr rfl⟩

theorem witness_OutputOnlyGrows : Instr.lzPutl 0 ∉ [Instr.bsInit, .bufXfer, .lzEnc, .lzDec, .hfEnc, .hfDec, .sysReset] ∧
    ∃ t, exec (.lzPutl 0) (withOut [true] State.reset) = .next t := ⟨by decide, _, rfl⟩

theorem witness_PipelinesEnd : Instr.hfDec ∈ [Instr.lzEnc, .lzDec, .hfEnc, .hfDec] ∧ CapsOK State.reset ∧ State.reset.err = false :=
  ⟨by decide, reset_caps, rfl⟩

/-! #### The match finder -/

/-- "abcXabcYabc" at `POS = 8`, and "abcabcabc" at its end. -/
def mf7 : State := { loaded abcXabcYabc with pos := 8 }
def mf4 : State := { loaded abcabcabc with pos := 9 }

theorem mf7_best : IsBestMatch mf7 4 3 := (findAtPos_eq_some mf7 4 3 (by decide)).mp (by decide +kernel)
theorem mf4_none : NoMatch mf4 := (findAtPos_eq_none mf4 (by decide)).mp (by decide +kernel)

theorem witness_FindsLongestNearest : ¬ CfgOK cfgTooWide ∧ (CfgOK lenAboveCap ∧ ¬ LenOK lenAboveCap) ∧
    (CfgOK cfgWidest ∧ LenOK cfgWidest) ∧ (CfgOK lenAtCap ∧ LenOK lenAtCap) ∧ (CfgOK mf7 ∧ LenOK mf7 ∧ IsBestMatch mf7 4 3) ∧
    CfgOK mf4 ∧ LenOK mf4 ∧ NoMatch mf4 :=
  ⟨cfg_bad (by decide), ⟨cfg_ok (by decide), len_bad (by decide)⟩, ⟨cfg_ok (by decide), len_ok (by decide)⟩,
    ⟨cfg_ok (by decide), len_ok (by decide)⟩, ⟨cfg_ok (by decide), len_ok (by decide), mf7_best⟩, cfg_ok (by decide),
    len_ok (by decide), mf4_none⟩

/-- A match; position 0; position `IN_LEN`; one byte fewer than `MINM` left. -/
theorem witness_MatchFitsToken : (CfgOK mf7 ∧ LenOK mf7 ∧ findAtPos mf7 = some (4, 3)) ∧
    (CfgOK State.reset ∧ LenOK State.reset ∧ State.reset.pos = 0) ∧ (CfgOK mf4 ∧ mf4.inLen.toNat ≤ mf4.pos.toNat) ∧
    ∃ s : State, CfgOK s ∧ s.inLen.toNat < s.pos.toNat + s.minm.toNat ∧ s.pos.toNat < s.inLen.toNat :=
  ⟨⟨cfg_ok (by decide), len_ok (by decide), by decide +kernel⟩, ⟨cfg_ok (by decide), len_ok (by decide), rfl⟩,
    ⟨cfg_ok (by decide), by decide⟩, { loaded abcabcabc with pos := 7 }, cfg_ok (by decide), by decide, by decide⟩

/-- Two buffers that differ before the window and behind the lookahead. -/
theorem witness_FindReadsOnlyTheWindow : ∃ s t : State, CfgOK s ∧ LenOK s ∧ t.wsize = s.wsize ∧ t.minm = s.minm ∧ t.maxm = s.maxm ∧
    t.inLen = s.inLen ∧ t.pos = s.pos ∧ t.ibufCap = s.ibufCap ∧ (ibufAt t 0 ≠ ibufAt s 0 ∧ ibufAt t 8 ≠ ibufAt s 8) ∧
    ∀ i, s.pos.toNat - min s.wsize.toNat 4095 ≤ i → i < min (s.pos.toNat + s.maxm.toNat) s.inLen.toNat →
      ibufAt t i = ibufAt s i :=
  ⟨{ loaded [9, 1, 1, 1, 1, 1, 1, 1, 9] with pos := 4, wsize := 3, maxm := 4 },
    { loaded [8, 1, 1, 1, 1, 1, 1, 1, 8] with pos := 4, wsize := 3, maxm := 4 },
    cfg_ok (by decide), len_ok (by decide), rfl, rfl, rfl, rfl, rfl, rfl, by decide,
    fun i h1 h2 => by
      have h : ∀ i < 8, 1 ≤ i → ibufAt { loaded [8, 1, 1, 1, 1, 1, 1, 1, 8] with pos := 4, wsize := 3, maxm := 4 } i =
          ibufAt { loaded [9, 1, 1, 1, 1, 1, 1, 1, 9] with pos := 4, wsize := 3, maxm := 4 } i := by decide
      refine h i ?_ ?_
      · exact lt_of_lt_of_le h2 (by decide)
      · exact le_trans (by decide) h1⟩

theorem witness_ScansComputeFind : CfgOK mf7 ∧
    ∀ d, IsCandidate mf7 d → IsMatchLen mf7 d (mlen (ibufAt mf7) mf7.pos.toNat (lookahead mf7) d) :=
  ⟨cfg_ok (by decide), fun d _ => mlen_isMatchLen mf7 d⟩

/-! #### The LZSS encoder -/

/-- An output stream that leaves room for exactly `n` bits. -/
def roomFor (n : Nat) (s : State) : State := withOut (List.replicate (512 - n) false) s

theorem room_of {s : State} {n : Nat} (h : s.fits n = true) : Room s n := (fits_iff s n).mp h
theorem no_room {s : State} {n : Nat} (h : s.fits n = false) : ¬ Room s n := fun c => by
  rw [(fits_iff s n).mpr c] at h; cases h

theorem witness_PutsLiteral : Room (roomFor 9 State.reset) 9 ∧ ¬ Room (roomFor 8 State.reset) 9 :=
  ⟨room_of (by decide +kernel), no_room (by decide +kernel)⟩

/-- The range check of `LZ.PUTM` (R163), and a state with these operands. -/
abbrev TokenFits (s : State) : Prop :=
  1 ≤ s.mDist.toNat ∧ s.mDist.toNat ≤ 4095 ∧ s.minm.toNat ≤ s.mLen.toNat ∧ s.mLen.toNat ≤ s.minm.toNat + 15
def putm (d l : Nat) (s : State) : State := { s with mDist := BitVec.ofNat 32 d, mLen := BitVec.ofNat 32 l }

/-- The largest distance and length that fit, with just enough room and one bit less; a distance of 0 and one above the field, a
length below `MINM` and one above the field. -/
theorem witness_PutsMatch : ¬ CfgOK cfgTooWide ∧ CfgOK (putm 4095 18 State.reset) ∧ TokenFits (putm 4095 18 State.reset) ∧
    TokenFits (putm 1 3 State.reset) ∧ ¬ TokenFits (putm 0 3 State.reset) ∧ ¬ TokenFits (putm 4096 3 State.reset) ∧
    ¬ TokenFits (putm 1 2 State.reset) ∧ ¬ TokenFits (putm 1 19 State.reset) ∧
    Room (roomFor 17 (putm 4095 18 State.reset)) 17 ∧ ¬ Room (roomFor 16 (putm 4095 18 State.reset)) 17 :=
  ⟨cfg_bad (by decide), cfg_ok (by decide), by decide, by decide, by decide, by decide, by decide, by decide,
    room_of (by decide +kernel), no_room (by decide +kernel)⟩

/-- The last input position with a match and without one; the end; no room for either token. -/
theorem witness_EncodesOneToken : (¬ CfgOK cfgTooWide ∧ CfgOK lenAboveCap ∧ ¬ LenOK lenAboveCap) ∧
    (mf4.inLen.toNat ≤ mf4.pos.toNat ∧ CfgOK mf4 ∧ LenOK mf4) ∧
    (CfgOK mf7 ∧ LenOK mf7 ∧ ∃ t, EncodeStep (roomFor 17 mf7) t) ∧ (∃ t, EncodeStep (roomFor 9 { mf4 with pos := 8 }) t) ∧
    EncodeFull (roomFor 16 mf7) ∧ EncodeFull (roomFor 8 { mf4 with pos := 8 }) :=
  ⟨⟨cfg_bad (by decide), cfg_ok (by decide), len_bad (by decide)⟩, ⟨by decide, cfg_ok (by decide), len_ok (by decide)⟩,
    ⟨cfg_ok (by decide), len_ok (by decide), _, .matched 4 3 (by decide)
      ((findAtPos_eq_some _ 4 3 (by decide)).mp (by decide +kernel)) (room_of (by decide +kernel))⟩,
    ⟨_, .literal (by decide) ((findAtPos_eq_none _ (by decide)).mp (by decide +kernel)) (room_of (by decide +kernel))⟩,
    ⟨by decide, .inl ⟨4, 3, (findAtPos_eq_some _ 4 3 (by decide)).mp (by decide +kernel), no_room (by decide +kernel)⟩⟩,
    ⟨by decide, .inr ⟨(findAtPos_eq_none _ (by decide)).mp (by decide +kernel), no_room (by decide +kernel)⟩⟩⟩

/-- One byte to encode, with room for its literal and without. -/
def oneByte : State := { loaded [0x61] with obufCap := 2 }

theorem witness_EncodesByRepeatedSteps : (¬ CfgOK cfgTooWide ∧ CfgOK lenAboveCap ∧ ¬ LenOK lenAboveCap) ∧
    (CfgOK oneByte ∧ LenOK oneByte ∧ ∃ t, Relation.ReflTransGen EncodeStep oneByte t ∧ oneByte.inLen.toNat ≤ t.pos.toNat) ∧
    ∃ s t : State, CfgOK s ∧ LenOK s ∧ Relation.ReflTransGen EncodeStep s t ∧ EncodeFull t :=
  ⟨⟨cfg_bad (by decide), cfg_ok (by decide), len_bad (by decide)⟩,
    ⟨cfg_ok (by decide), len_ok (by decide), _, .single (.literal (by decide)
      ((findAtPos_eq_none _ (by decide)).mp (by decide +kernel)) (room_of (by decide +kernel))), by decide⟩,
    { oneByte with obufCap := 1 }, { oneByte with obufCap := 1 }, cfg_ok (by decide), len_ok (by decide), .refl,
    by decide, .inr ⟨(findAtPos_eq_none _ (by decide)).mp (by decide +kernel), no_room (by decide +kernel)⟩⟩

/-- The room of each alternative met with equality. -/
theorem witness_EncoderCompletes : ∃ s t : State,
    (CfgOK s ∧ LenOK s ∧ 17 * s.inLen.toNat = 8 * s.obufCap) ∧
    (CfgOK t ∧ LenOK t ∧ 2 = t.minm.toNat ∧ 9 * t.inLen.toNat = 8 * t.obufCap) :=
  ⟨{ State.reset with inLen := 8, obufCap := 17 }, { State.reset with inLen := 8, obufCap := 9, minm := 2, maxm := 17 },
    ⟨cfg_ok (by decide), len_ok (by decide), by decide⟩, cfg_ok (by decide), len_ok (by decide), by decide, by decide⟩

theorem witness_EmitEqualsStep : CfgOK mf7 ∧ LenOK mf7 ∧ mf7.endFlag = false ∧ ∃ t, EncodeStep mf7 t :=
  ⟨cfg_ok (by decide), len_ok (by decide), rfl, _, .matched 4 3 (by decide) mf7_best (room_of (by decide +kernel))⟩

/-! #### The LZSS decoder -/

/-- `lz.dstep` at bit 0: eight bits only; a literal; a match over one byte before it, at bit 9 of `L a`, `M(1,3)`. -/
def fewBits : State := loaded [0xFF]
def literalA : State := loaded [0x30, 0x80]
def matchA (bs : List Nat) : State := { withOut (bits 8 0x61) (loaded bs) with bitpos := 9 }

theorem witness_DecodesOneToken :
    (¬ CfgOK cfgTooWide ∧ CfgOK lenAboveCap ∧ ¬ LenOK lenAboveCap ∧ CfgOK State.reset ∧ LenOK State.reset ∧
      (withOut [true] State.reset).obits % 8 ≠ 0) ∧
    (CfgOK literalA ∧ LenOK literalA ∧ literalA.obits % 8 = 0) ∧
    (∃ t, DecodeStep fewBits t) ∧ (∃ t, DecodeStep literalA t) ∧ (∃ t, DecodeStep (matchA [0x30, 0xC0, 0x04, 0x00]) t) ∧
    DecodeFault (roomFor 0 literalA) 0x05 (BitVec.ofNat 32 (roomFor 0 literalA).obits) ∧ DecodeFault (matchA [0x30, 0xC0, 0x00]) 0x10 9 ∧
    DecodeFault (matchA [0x30, 0xC0, 0x00, 0x00]) 0x11 9 ∧ DecodeFault (matchA [0x30, 0xC0, 0x08, 0x00]) 0x12 9 ∧
    DecodeFault { matchA [0x30, 0xC0, 0x04, 0x00] with obufCap := 3 } 0x05 8 :=
  ⟨⟨cfg_bad (by decide), cfg_ok (by decide), len_bad (by decide), cfg_ok (by decide), len_ok (by decide), by decide⟩,
    ⟨cfg_ok (by decide), len_ok (by decide), by decide⟩,
    ⟨_, .terminal (by decide)⟩,
    ⟨_, .literal 0x61 (by decide) (by decide) (by decide) (room_of (by decide +kernel))⟩,
    ⟨_, .matched 1 0 (by decide) (by decide) (by decide) (by decide) (by decide) (by decide) (by decide) (by decide)
      (room_of (by decide +kernel))⟩,
    .literalFull (by decide) (by decide) (no_room (by decide +kernel)),
    .truncated (by decide) (by decide) (by decide),
    .distZero (by decide) (by decide) (by decide),
    .distRange 2 (by decide) (by decide) (by decide) (by decide) (by decide),
    .matchFull 1 0 (by decide) (by decide) (by decide) (by decide) (by decide) (by decide) (by decide) (by decide)
      (no_room (by decide +kernel))⟩

theorem witness_DecodesByRepeatedSteps : CapsOK State.reset ∧ (¬ CfgOK cfgTooWide ∧ CfgOK lenAboveCap ∧ ¬ LenOK lenAboveCap) ∧
    (CfgOK fewBits ∧ LenOK fewBits ∧ ∃ t, Relation.ReflTransGen DecodeStep fewBits t ∧ t.endFlag = true) ∧
    ∃ t, Relation.ReflTransGen DecodeStep (loaded [0xFF, 0xFF]) t ∧ DecodeFault t 0x10 0 :=
  ⟨reset_caps, ⟨cfg_bad (by decide), cfg_ok (by decide), len_bad (by decide)⟩,
    ⟨cfg_ok (by decide), len_ok (by decide), _, .single (.terminal (by decide)), rfl⟩,
    _, .refl, .truncated (by decide) (by decide) (by decide)⟩

/-- V-LE5, with an output buffer of exactly the decoded length. -/
theorem witness_DecoderInvertsEncoding : ∃ (s : State) (ts : List Token), CapsOK s ∧ CfgOK s ∧ LenOK s ∧
    validTokens s.minm.toNat [] ts ∧ inputStream s = padded (encTokens s.minm.toNat ts) ∧
    (expandTokens [] ts).length ≤ s.obufCap :=
  ⟨{ loaded [0x30, 0xC0, 0x04, 0x00] with obufCap := 4 }, [.literal 0x61, .matched 1 3], by unfold CapsOK; decide,
    cfg_ok (by decide), len_ok (by decide),
    by simp only [validTokens, Token.valid, Token.expand]; decide, by decide +kernel, by decide⟩

theorem witness_LzssRoundTrip : CapsOK (loaded abcabcabc) ∧ (loaded abcabcabc).err = false ∧
    (∃ t, afterAll [.lzEnc] (loaded abcabcabc) = some t ∧ t.olen ≤ (loaded abcabcabc).ibufCap) ∧
    (loaded abcabcabc).inLen.toNat ≤ (loaded abcabcabc).obufCap := by
  refine ⟨by unfold CapsOK; decide, rfl, ?_, by decide⟩
  have h : (match afterAll [.lzEnc] (loaded abcabcabc) with | some t => decide (t.olen ≤ 64) | none => false) = true := by
    decide +kernel
  split at h
  · exact ⟨_, by assumption, of_decide_eq_true h⟩
  · cases h

/-! #### Huffman -/

theorem witness_CountsSymbols : LenOK lenAtCap ∧ ¬ LenOK lenAboveCap := ⟨len_ok (by decide), len_bad (by decide)⟩

/-- A table of one frequency, and one of two. -/
def freqOne : Table Word := (withFreq [(0x61, 4)] State.reset).freq
def freqTwo : Table Word := (withFreq [(0, 0xFFFFFFFF), (255, 0xFFFFFFFF)] State.reset).freq

/-- The states after `HF.BUILD` of the two tables, and of an empty one. -/
def builtOne : State := setTree (buildTree freqOne) { State.reset with freq := freqOne }
def builtTwo : State := setTree (buildTree freqTwo) { State.reset with freq := freqTwo }
def builtNone : State := setTree (buildTree State.reset.freq) State.reset

/-- A tree of one node and one of three, as left by `HF.BUILD` and as held. -/
theorem witness_TreeShape :
    (exec .hfBuild { State.reset with freq := freqOne } = .next builtOne ∧ builtOne.nodes ≠ []) ∧
    exec .hfBuild { State.reset with freq := freqTwo } = .next builtTwo ∧ builtTwo.nodes ≠ [] ∧ TreeOK builtTwo ∧
    builtTwo.tvalid = true ∧ builtTwo.nodes[2]? = some (Node.internal 0x1FFFFFFFE 0 1) :=
  ⟨⟨rfl, by decide +kernel⟩, rfl, by decide +kernel, setTree_treeOK { State.reset with freq := freqTwo }, rfl, by decide +kernel⟩

theorem witness_DerivesCodebook : (TreeOK State.reset ∧ State.reset.tvalid = false) ∧
    (TreeOK builtOne ∧ builtOne.tvalid = true ∧ TreeCode builtOne 0x61 [false]) ∧
    (TreeOK builtTwo ∧ builtTwo.tvalid = true ∧ TreeCode builtTwo 0 [false] ∧ TreeCode builtTwo 255 [true]) ∧
    TreeOK builtNone ∧ builtNone.tvalid = true ∧ ∀ c, ¬ TreeCode builtNone 0x61 c := by
  refine ⟨⟨(resetWith_inv (by decide) 0 [] none).tree, rfl⟩,
    ⟨setTree_treeOK { State.reset with freq := freqOne }, rfl, .inl ⟨by decide +kernel, rfl, 4, by decide +kernel⟩⟩,
    ⟨setTree_treeOK { State.reset with freq := freqTwo }, rfl, .inr ⟨by decide +kernel, 0, 0xFFFFFFFF, ?_, by decide +kernel⟩,
      .inr ⟨by decide +kernel, 1, 0xFFFFFFFF, ?_, by decide +kernel⟩⟩,
    setTree_treeOK State.reset, rfl, ?_⟩
  · have h := PathTo.left (s := builtTwo) (f := 0x1FFFFFFFE) (l := 0) (r := 1) PathTo.root (by decide +kernel)
    exact h
  · have h := PathTo.right (s := builtTwo) (f := 0x1FFFFFFFE) (l := 0) (r := 1) PathTo.root (by decide +kernel)
    exact h
  · have hn : builtNone.nodes.length = 0 := by decide +kernel
    rintro c (⟨h, -⟩ | ⟨h, -⟩) <;> omega

theorem witness_DerivedCodebookIsPrefixFree : ∃ t u : State, exec .hfBuild { State.reset with freq := freqTwo } = .next t ∧
    exec .hfDerive t = .next u ∧ Table.get freqTwo 255 ≠ 0 ∧ 2 ≤ t.nnodes.toNat :=
  ⟨builtTwo, _, rfl, rfl, by decide +kernel, by decide +kernel⟩

/-- The codebook V-HC1; one with the duplicate pairs (a, b), (a, c), (b, c) (V-HB12). -/
def codedHC1 (bs : List Nat) : State := withCodes codesHC1 (loaded bs)
def codedDup (bs : List Nat) : State := withCodes [(0x61, 1, 1), (0x62, 1, 1), (0x63, 1, 1)] (loaded bs)

theorem hc1_ok (bs : List Nat) (h : firstDup (codebook (codedHC1 bs)) = none) : CbOK (codedHC1 bs) :=
  (firstDup_codebook_none _).mp h

theorem witness_CodebookEntry : code (codedHC1 []) 0x62 = some [true, true, false] ∧ Table.get (codedHC1 []).cbl 0x63 ≠ 0 ∧
    code (codedHC1 []) 0xFF = none := by decide +kernel

theorem witness_CodebookValidation : IsFirstDup (codedDup []) 0x61 0x62 ∧ TreeOK builtTwo ∧ builtTwo.tvalid = true ∧
    ∃ t, exec .hfDerive builtTwo = .next t :=
  ⟨firstDup_codebook_some (by decide +kernel), setTree_treeOK { State.reset with freq := freqTwo }, rfl, _, rfl⟩

theorem witness_PutsSymbol : IsFirstDup (codedDup []) 0x61 0x62 ∧ CbOK (codedHC1 []) ∧ code (codedHC1 []) 0x7A = none ∧
    code (codedHC1 []) 0x62 = some [true, true, false] ∧ Room (roomFor 3 (codedHC1 [])) 3 ∧ ¬ Room (roomFor 2 (codedHC1 [])) 3 :=
  ⟨firstDup_codebook_some (by decide +kernel), hc1_ok _ (by decide +kernel), by decide +kernel, by decide +kernel,
    room_of (by decide +kernel), no_room (by decide +kernel)⟩

/-- The whole input (a buffer of exactly its length); a byte without a code at position 2 (V-HB10); a code that does not fit at
the last position. -/
theorem witness_HuffmanEncodes : (¬ LenOK lenAboveCap ∧ LenOK (codedDup []) ∧ IsFirstDup (codedDup []) 0x61 0x62) ∧
    (∃ s : State, LenOK s ∧ CbOK s ∧ ∃ c, encSymbols (code s) (inputBytes s) = some c ∧ c.length = 8 * s.obufCap) ∧
    (∃ s : State, LenOK s ∧ CbOK s ∧ 2 < s.inLen.toNat ∧
      encSymbols (code s) ((inputBytes s).take 2) = some [false, true, true, false] ∧ 4 ≤ 8 * s.obufCap ∧
      code s (ibufAt s 2) = none) ∧
    ∃ s : State, LenOK s ∧ CbOK s ∧ 2 < s.inLen.toNat ∧
      encSymbols (code s) ((inputBytes s).take 2) = some [true, true, false, true, true, false] ∧ 6 ≤ 8 * s.obufCap ∧
      code s (ibufAt s 2) = some [true, true, false] ∧ 8 * s.obufCap < 6 + 3 :=
  ⟨⟨len_bad (by decide), len_ok (by decide), firstDup_codebook_some (by decide +kernel)⟩,
    ⟨{ codedHC1 [0x61, 0x61, 0x62, 0x63] with obufCap := 1 }, len_ok (by decide),
      (firstDup_codebook_none _).mp (by decide +kernel), bits 8 0b00110100, by decide +kernel, by decide⟩,
    ⟨codedHC1 [0x61, 0x62, 0x78, 0x61], len_ok (by decide), hc1_ok _ (by decide +kernel), by decide, by decide +kernel, by decide,
      by decide +kernel⟩,
    { codedHC1 [0x62, 0x62, 0x62] with obufCap := 1 }, len_ok (by decide), (firstDup_codebook_none _).mp (by decide +kernel),
    by decide, by decide +kernel, by decide, by decide +kernel, by decide⟩

/-- `hmatch` answers as it is computed to. -/
theorem hmatch_answers {s : State} {a : CodeMatch} (hi : s.bitpos.toNat < s.pbits.toNat)
    (h : hmatch s (codebook s) s.bitpos.toNat s.pbits.toNat = a) : Answers s s.bitpos.toNat s.pbits.toNat a := by
  rw [← h]; exact hmatch_spec s hi

/-- V-HD1's stream at a bit, with a payload length. -/
def payload (at_ n : Nat) (s : State) : State := { s with bitpos := BitVec.ofNat 32 at_, pbits := BitVec.ofNat 32 n }
def hd (at_ n : Nat) : State := payload at_ n (codedHC1 [0x6E, 0x8A, 0xDC])

theorem hd_step : ∃ t, SymbolStep (hd 19 22) t :=
  ⟨_, .symbol 0x72 3 (by decide) (hmatch_answers (s := hd 19 22) (a := .hit 0x72 3) (by decide) (by decide +kernel))
    (room_of (by decide +kernel))⟩

theorem hd_noCode : ∃ s : State, CbOK s ∧ LenOK s ∧ s.pbits.toNat ≤ 8 * s.inLen.toNat ∧ SymbolFault s 0x23 0 :=
  ⟨payload 0 8 (loaded [0x80]), (firstDup_codebook_none _).mp (by decide +kernel), len_ok (by decide), by decide,
    .noCode (by decide) (hmatch_answers (s := payload 0 8 (loaded [0x80])) (a := .noCode) (by decide) (by decide +kernel))⟩

theorem hd_trunc : SymbolFault (hd 19 21) 0x24 19 := .trunc (by decide) (hmatch_answers (s := hd 19 21) (a := .trunc) (by decide) (by decide +kernel))

theorem hd_full : SymbolFault (roomFor 0 (hd 0 24)) 0x05 (BitVec.ofNat 32 (roomFor 0 (hd 0 24)).obits) :=
  .full 0x61 1 (by decide) (hmatch_answers (s := roomFor 0 (hd 0 24)) (a := .hit 0x61 1) (by decide) (by decide +kernel)) (no_room (by decide +kernel))

theorem witness_DecodesOneSymbol :
    (¬ LenOK lenAboveCap ∧ LenOK (hd 0 25) ∧ 8 * (hd 0 25).inLen.toNat < (hd 0 25).pbits.toNat ∧
      (hd 0 24).pbits.toNat ≤ 8 * (hd 0 24).inLen.toNat ∧ (withOut [true] (hd 0 24)).obits % 8 ≠ 0) ∧
    (LenOK (codedDup []) ∧ (codedDup []).pbits.toNat ≤ 8 * (codedDup []).inLen.toNat ∧ (codedDup []).obits % 8 = 0 ∧
      IsFirstDup (codedDup []) 0x61 0x62) ∧
    (LenOK (hd 0 24) ∧ (hd 0 24).obits % 8 = 0 ∧ CbOK (hd 0 24)) ∧ (∃ t, SymbolStep (hd 23 23) t) ∧
    (∃ t, SymbolStep (hd 19 22) t) ∧ (∃ s : State, SymbolFault s 0x23 0) ∧ SymbolFault (hd 19 21) 0x24 19 ∧
    SymbolFault (roomFor 0 (hd 0 24)) 0x05 (BitVec.ofNat 32 (roomFor 0 (hd 0 24)).obits) :=
  ⟨⟨len_bad (by decide), len_ok (by decide), by decide, by decide, by decide⟩,
    ⟨len_ok (by decide), by decide, by decide, firstDup_codebook_some (by decide +kernel)⟩,
    ⟨len_ok (by decide), by decide, (firstDup_codebook_none _).mp (by decide +kernel)⟩,
    ⟨_, .terminal (by decide)⟩, hd_step, hd_noCode.imp fun _ h => h.2.2.2, hd_trunc, hd_full⟩

theorem witness_HuffmanDecodes :
    (¬ LenOK lenAboveCap ∧ LenOK (hd 0 25) ∧ 8 * (hd 0 25).inLen.toNat < (hd 0 25).pbits.toNat ∧
      (hd 0 24).pbits.toNat ≤ 8 * (hd 0 24).inLen.toNat ∧ CbOK (hd 0 24)) ∧
    (LenOK (codedDup []) ∧ (codedDup []).pbits.toNat ≤ 8 * (codedDup []).inLen.toNat ∧ IsFirstDup (codedDup []) 0x61 0x62) ∧
    (∃ t, Relation.ReflTransGen SymbolStep (hd 0 0) t ∧ t.endFlag = true) ∧
    ∃ s t : State, s.bitpos = 0 ∧ CbOK s ∧ LenOK s ∧ s.pbits.toNat ≤ 8 * s.inLen.toNat ∧
      Relation.ReflTransGen SymbolStep s t ∧ SymbolFault t 0x23 0 :=
  ⟨⟨len_bad (by decide), len_ok (by decide), by decide, by decide, (firstDup_codebook_none _).mp (by decide +kernel)⟩,
    ⟨len_ok (by decide), by decide, firstDup_codebook_some (by decide +kernel)⟩,
    ⟨_, .single (.terminal (by decide)), rfl⟩,
    payload 0 8 (loaded [0x80]), _, rfl, (firstDup_codebook_none _).mp (by decide +kernel), len_ok (by decide), by decide, .refl,
    .noCode (by decide) (hmatch_answers (s := payload 0 8 (loaded [0x80])) (a := .noCode) (by decide) (by decide +kernel))⟩

/-- A run that ends, as `afterAll` computes it. -/
theorem afterAll_olen {is : List Instr} {s : State} {n : Nat}
    (h : (match afterAll is s with | some t => decide (t.olen ≤ n) | none => false) = true) :
    ∃ t, afterAll is s = some t ∧ t.olen ≤ n := by
  split at h
  · exact ⟨_, by assumption, of_decide_eq_true h⟩
  · cases h

theorem witness_HuffmanRoundTrip : CapsOK (loaded abracadabra) ∧ (loaded abracadabra).err = false ∧
    (∃ t, afterAll [.hfCount, .hfBuild, .hfDerive, .hfEnc] (loaded abracadabra) = some t ∧ t.olen ≤ (loaded abracadabra).ibufCap) ∧
    (loaded abracadabra).inLen.toNat ≤ (loaded abracadabra).obufCap :=
  ⟨by unfold CapsOK; decide, rfl, afterAll_olen (by decide +kernel), by decide⟩

theorem witness_ChainedRoundTrip : CapsOK (loaded abcabcabc) ∧ (loaded abcabcabc).err = false ∧
    (∃ t, afterAll [.lzEnc, .bufXfer, .hfCount, .hfBuild, .hfDerive, .hfEnc] (loaded abcabcabc) = some t ∧
      t.olen ≤ (loaded abcabcabc).ibufCap) ∧ (loaded abcabcabc).inLen.toNat ≤ (loaded abcabcabc).obufCap :=
  ⟨by unfold CapsOK; decide, rfl, afterAll_olen (by decide +kernel), by decide⟩

/-! #### The invariant -/

theorem witness_InvariantKept : ∃ s t : State, Inv s ∧ step s = .next t ∧ t.obits = 9 :=
  ⟨{ State.reset with hostq := [.writeReg 0 0x02000061] }, _, resetWith_inv (by decide) 0 _ none, rfl, by decide +kernel⟩

theorem witness_ResetMeetsInvariant : (1 ≤ 1 ∧ 1 ≤ 2 ^ 28) ∧ (1 ≤ 2 ^ 28 ∧ 2 ^ 28 ≤ 2 ^ 28) := by decide

end Sys2Proof.Tests
end

section
/-! PROOF. The invariant along a step (R9, R24, R25, R34, R40 to R44, R48, R84, R215): the effect of every command keeps it, hence
`exec`, hence each of the host's transactions. With it the input stream as bytes (R12) and the reset state. -/

namespace Sys2Proof.Machine

/-! ### Commands keep the invariant -/

section

variable {s : State}

theorem encodeStart_inv (h : Inv s) : Inv (encodeStart s) := (h.emptyOut.setPos 0).setEnd false

theorem encodeEnd_inv (h : Inv s) : Inv (encodeEnd s) := h.flushOut.setEnd true

theorem decodeStart_inv (h : Inv s) : Inv (decodeStart s) := (h.emptyOut.setBitpos 0).setEnd false

/-- Appending a unit, if it fits, keeps the output within the buffer (R34, R90). -/
theorem putUnit_inv {c : BitStr} {t : State} (h : Inv s) (hu : putUnit c s = .ok t) : Inv t := by
  obtain ⟨hroom, rfl⟩ := putUnit_eq_ok hu
  exact h.outAppend hroom

/-- A command that is no pipeline keeps the invariant (R294: it takes its one effect or only records a fault). -/
theorem exec_single_inv {i : Instr} {t : State} (hi : isPipeline i = false) (h : Inv s) (e : exec i s = .next t) : Inv t := by
  cases i with
  | lzEnc | lzDec | hfEnc | hfDec => cases hi
  | nop => exact h.complete (fun _ hu => Except.ok.inj hu ▸ h) e
  | lzFind =>
    refine h.complete (fun u hu => ?_) e
    obtain ⟨-, hu⟩ := checkCfg_eq_ok hu
    obtain ⟨-, hu⟩ := checkLen_eq_ok hu
    exact Except.ok.inj hu ▸ h.setMatch _
  | lzPutl b => exact h.complete (fun _ hu => putUnit_inv h hu) e
  | lzPutm =>
    refine h.complete (fun u hu => ?_) e
    obtain ⟨-, hu⟩ := checkCfg_eq_ok hu
    split at hu
    · exact putUnit_inv h hu
    · cases hu
  | lzStep =>
    refine h.complete (fun u hu => ?_) e
    obtain ⟨-, hu⟩ := checkCfg_eq_ok hu
    obtain ⟨-, hu⟩ := checkLen_eq_ok hu
    split at hu
    · exact Except.ok.inj hu ▸ h.setEnd true
    · exact h.encodeToken hu
  | lzDstep =>
    refine h.complete (fun u hu => ?_) e
    obtain ⟨-, hu⟩ := checkCfg_eq_ok hu
    obtain ⟨-, hu⟩ := checkLen_eq_ok hu
    obtain ⟨-, hu⟩ := checkAligned_eq_ok hu
    exact h.decodeToken hu
  | hfCount =>
    refine h.complete (fun u hu => ?_) e
    obtain ⟨-, hu⟩ := checkLen_eq_ok hu
    exact Except.ok.inj hu ▸ h.setFreq _
  | hfBuild => exact h.complete (fun _ hu => Except.ok.inj hu ▸ h.setTree) e
  | hfDerive =>
    refine h.complete (fun u hu => ?_) e
    split at hu
    · exact Except.ok.inj hu ▸ (h.setCodebook _).discardTree
    · cases hu
  | hfPuts x =>
    refine h.complete (fun u hu => ?_) e
    obtain ⟨-, hu⟩ := checkCodebook_eq_ok hu
    obtain ⟨c, -, hroom, rfl⟩ := putSymbol_ok hu
    exact h.outAppend hroom
  | hfDsym =>
    refine h.complete (fun u hu => ?_) e
    obtain ⟨-, hu⟩ := checkLen_eq_ok hu
    obtain ⟨-, hu⟩ := checkPbits_eq_ok hu
    obtain ⟨-, hu⟩ := checkAligned_eq_ok hu
    obtain ⟨-, hu⟩ := checkCodebook_eq_ok hu
    exact h.decodeSymbol hu
  | bsInit => exact h.complete (fun _ hu => Except.ok.inj hu ▸ h.emptyOut.setEnd false) e
  | bsFlush => exact h.complete (fun _ hu => Except.ok.inj hu ▸ h.flushOut) e
  | bufXfer =>
    refine h.complete (fun u hu => ?_) e
    split at hu
    · rename_i hlen
      exact Except.ok.inj hu ▸ h.moveOutput hlen
    · cases hu
  | sysClrerr => exact h.complete (fun _ hu => Except.ok.inj hu ▸ h.clearFault) e
  | sysReset => exact h.complete (fun _ hu => Except.ok.inj hu ▸ h.resetEngine) e

/-- A pipeline command keeps the invariant, whether its loop ends or raises (R293, R294). -/
theorem exec_pipeline_inv {i : Instr} {t : State} (hi : isPipeline i = true) (h : Inv s) (e : exec i s = .next t) : Inv t := by
  cases i with
  | lzEnc =>
    refine h.complete (fun u hu => ?_) e
    obtain ⟨-, hu⟩ := checkCfg_eq_ok hu
    obtain ⟨-, hu⟩ := checkLen_eq_ok hu
    exact Except.ok.inj hu ▸ (encodeStart_inv h).finish (fun _ _ ha => ha.encodeToken) (fun _ => encodeEnd_inv) _
  | lzDec =>
    refine h.complete (fun u hu => ?_) e
    obtain ⟨-, hu⟩ := checkCfg_eq_ok hu
    obtain ⟨-, hu⟩ := checkLen_eq_ok hu
    exact Except.ok.inj hu ▸ (decodeStart_inv h).finish (fun _ _ ha => ha.decodeToken) (fun _ => id) _
  | hfEnc =>
    refine h.complete (fun u hu => ?_) e
    obtain ⟨-, hu⟩ := checkLen_eq_ok hu
    obtain ⟨-, hu⟩ := checkCodebook_eq_ok hu
    exact Except.ok.inj hu ▸ (encodeStart_inv h).finish (fun _ _ ha => ha.encodeSymbol) (fun _ => encodeEnd_inv) _
  | hfDec =>
    refine h.complete (fun u hu => ?_) e
    obtain ⟨-, hu⟩ := checkLen_eq_ok hu
    obtain ⟨-, hu⟩ := checkPbits_eq_ok hu
    obtain ⟨-, hu⟩ := checkCodebook_eq_ok hu
    exact Except.ok.inj hu ▸ (decodeStart_inv h).finish (fun _ _ ha => ha.decodeSymbol) (fun _ => id) _
  | _ => cases hi

theorem exec_inv {i : Instr} {t : State} (h : Inv s) (e : exec i s = .next t) : Inv t := by
  cases hi : isPipeline i with
  | false => exact exec_single_inv hi h e
  | true => exact exec_pipeline_inv hi h e

/-! ### Host transactions keep the invariant -/

/-- A write to `CMD` is ignored, raises `ILLEGAL_CMD`, or runs a command (R275). -/
theorem hostWriteCmd_inv {w : Word} {t : State} (h : Inv s) (e : hostWriteCmd w s = .next t) : Inv t := by
  unfold hostWriteCmd at e
  split at e
  · cases e
    exact h
  · split at e
    · exact exec_inv h e
    · cases e
      exact h.raise _

theorem hostWriteReg_inv {n : BitVec 5} {v : Word} {t : State} (h : Inv s) (e : hostWriteReg n v s = .next t) : Inv t := by
  unfold hostWriteReg at e
  split at e
  · exact hostWriteCmd_inv h e
  · cases e
    exact h.writeDataReg n v

/-- Each of the host's five transactions keeps the invariant (R276). -/
theorem hostTxn_inv {x : HostTxn} {t : State} (h : Inv s) (e : hostTxn x s = .next t) : Inv t := by
  cases x with
  | readReg n =>
    cases e
    exact h.setHost _ _
  | writeReg n v => exact hostWriteReg_inv h e
  | readMem sp i =>
    simp only [hostTxn] at e
    split at e <;> cases e
    exact h.setHost _ _
  | writeMem sp i v =>
    simp only [hostTxn] at e
    split at e <;> cases e
    rename_i hi
    exact h.hostWriteMem hi v
  | hardReset =>
    cases e
    exact h.resetEngine

theorem step_inv {t : State} (h : Inv s) (e : step s = .next t) : Inv t := by
  unfold step nextTxn at e
  split at e
  · cases e
    exact h
  · exact hostTxn_inv (h.setHost _ _) e

end

/-! ### The input stream -/

theorem inBits_append (s : State) (i m n : Nat) : inBits s i (m + n) = inBits s i m ++ inBits s (i + m) n := by
  simp [inBits, List.range_add, Nat.add_assoc]

/-- The eight input bits from a byte boundary on spell that byte, most significant bit first (R12). -/
theorem inBits_byte (s : State) (k : Nat) : inBits s (8 * k) 8 = bits 8 (ibufAt s k).toNat := by
  refine inBits_eq (bits_length ..) fun j hj => ?_
  rw [bits_length] at hj
  have hbyte : (8 * k + j) / 8 = k := by omega
  have hbit : (8 * k + j) % 8 = j := by omega
  rw [bits_getElem, inBit, hbyte, hbit, BitVec.testBit_toNat]

/-- The first `8n` input bits are the first `n` bytes of `IBUF`, by induction on `n`. -/
theorem inBits_byteStream (s : State) (n : Nat) : inBits s 0 (8 * n) = byteStream ((List.range n).map (ibufAt s)) := by
  induction n with
  | zero => rfl
  | succ n ih =>
    rw [Nat.mul_succ, inBits_append, ih, Nat.zero_add, inBits_byte, List.range_succ, List.map_append, byteStream_append]
    simp

/-! ### The obligations -/

/-- Settles O56: a step is nothing, or one host transaction, and every transaction keeps the invariant. -/
theorem invariantKept : Obligations.InvariantKept := fun _ _ h e => step_inv h e

/-- Settles O16: the stream of `IN_LEN` bytes, byte by byte. -/
theorem inputStreamIsBytes : Obligations.InputStreamIsBytes := fun s => inBits_byteStream s s.inLen.toNat

/-- Settles O57: at the capacities of `State.reset` and at any in range. -/
theorem resetMeetsInvariant : Obligations.ResetMeetsInvariant :=
  ⟨resetWith_inv (by decide) 0 [] none, fun _ _ ha ha' hb hb' => resetWith_inv ⟨ha, ha', hb, hb'⟩ 0 [] none⟩

end Sys2Proof.Machine
end

section
/-! PROOF. The state family: registers and output bytes as the host reads them (R22, R24, R57), what a reset leaves (R60), the
entries and the validation of the codebook (R52, R119, R241), what a command may change (R22, R56, R100), how a pipeline ends
(R47, R329), and that a recorded fault is kept (R49, R295). -/

namespace Sys2Proof.Machine

/-! ### Registers -/

/-- The bits of `STATUS` by position (R24): the four flags, then `ERRCODE` at 8. -/
theorem statusWord_getLsbD (s : State) (k : Nat) : (statusWord s).getLsbD k =
    if k = 0 then s.err else if k = 1 then s.endFlag else if k = 2 then s.mvalid else if k = 3 then s.tvalid
    else if 8 ≤ k ∧ k < 16 then s.errCode.getLsbD (k - 8) else false := by
  simp only [statusWord, BitVec.getLsbD_append, BitVec.getLsbD_ofBool]
  match k with
  | 0 | 1 | 2 | 3 => simp
  | k + 4 =>
    by_cases hlow : k < 4
    · simp [hlow, show ¬ 4 ≤ k by omega]
    · by_cases hcode : k < 12
      · simp [show 4 ≤ k by omega, show k - 4 < 8 by omega, show k + 4 < 16 by omega]
      · simp [hlow, show ¬ k - 4 < 8 by omega, show ¬ k + 4 < 16 by omega]

/-- The numbers from 22 on are reserved and read 0 (R46, R277). -/
theorem hostReadReg_reserved (s : State) {n : BitVec 5} (hn : 22 ≤ n.toNat) : hostReadReg s n = 0 := by
  unfold hostReadReg
  split
  case h_22 => rfl
  all_goals omega

/-! ### Output bytes -/

/-- Eight bits from position `n` on, zero past the end of the stream, are what is there and its padding (R57). -/
theorem drop_take_append_padding (c : BitStr) (n : Nat) :
    (c.drop n).take 8 ++ List.replicate (8 - ((c.drop n).take 8).length) false =
      (List.range 8).map fun j => c.getD (n + j) false := by
  apply List.ext_getElem
  · simp
  · intro j hj hj'
    simp only [List.length_map, List.length_range] at hj'
    simp only [List.getElem_map, List.getElem_range, List.getD_eq_getElem?_getD]
    rw [List.getElem_append]
    split <;> rename_i h <;> simp only [List.length_take, List.length_drop] at h
    · rw [List.getElem_take, List.getElem_drop, List.getElem?_eq_getElem (by omega), Option.getD_some]
    · rw [List.getElem_replicate, List.getElem?_eq_none (by omega), Option.getD_none]

theorem outByte_toNat (s : State) (k : Nat) :
    (outByte s k).toNat = val ((List.range 8).map fun j => s.ostr.getD (8 * k + j) false) := by
  have hlt := val_lt ((List.range 8).map fun j => s.ostr.getD (8 * k + j) false)
  rw [List.length_map, List.length_range] at hlt
  rw [outByte, byteOf, drop_take_append_padding, BitVec.toNat_ofNat, Nat.mod_eq_of_lt hlt]

theorem outByte_of_olen_le {s : State} {k : Nat} (h : s.olen ≤ k) : outByte s k = 0 := by
  have hbits := le_ceil8 s.obits
  have hend : s.ostr.drop (8 * k) = [] := List.drop_of_length_le (by simp only [State.olen, State.obits] at *; omega)
  rw [outByte, hend]
  rfl

theorem outByte_of_empty {s : State} (h : s.ostr = []) (k : Nat) : outByte s k = 0 := by
  rw [outByte, h, List.drop_nil]
  rfl

/-- Space OBUF is read-only (R82). -/
theorem hostTxn_writeMem_obuf {s : State} {k : Nat} (hk : k < s.obufCap) (v : Word) :
    hostTxn (.writeMem .obuf k v) s = .next s := if_pos hk

/-! ### Reset -/

/-- A legal word that the gate lets pass runs its command (R275). -/
theorem hostWriteCmd_of_decode {w : Word} {i : Instr} {s : State} (hgate : gated w s = false) (hdec : decode w = .ok i) :
    hostWriteCmd w s = exec i s := by
  simp only [hostWriteCmd, hgate, hdec, Bool.false_eq_true, if_false]

/-- The word of `SYS.RESET` passes the gate, whether a fault is recorded or not (R295). -/
theorem hostWriteCmd_reset (s : State) : hostWriteCmd 0x7F000000 s = .next (resetEngine s) :=
  hostWriteCmd_of_decode (i := .sysReset) (by simp [gated]) (by decide)

/-- The word of `SYS.CLRERR` passes the gate, whether a fault is recorded or not (R295). -/
theorem hostWriteCmd_clrerr (s : State) : hostWriteCmd 0x7E000000 s = .next (clearFault s) :=
  hostWriteCmd_of_decode (i := .sysClrerr) (by simp [gated]) (by decide)

/-- With no tree held, space TREE reads 0 (R54, R120). -/
theorem treeWord_of_no_tree {s : State} (h : s.tvalid = false) (i : Nat) : treeWord s i = 0 := by
  simp [treeWord, h]

/-! ### The codebook -/

theorem CbOK.of_no_firstDup {s : State} (h : ¬ ∃ x y, IsFirstDup s x y) : CbOK s := by
  rw [← firstDup_codebook_none]
  cases hdup : firstDup (codebook s) with
  | none => rfl
  | some p => exact absurd ⟨p.1, p.2, firstDup_codebook_some hdup⟩ h

theorem IsFirstDup.not_cbOK {s : State} {x y : Byte} (h : IsFirstDup s x y) : ¬ CbOK s := by
  obtain ⟨hlt, ⟨c, hx, hy⟩, -⟩ := h
  intro hcb
  rw [hcb x y c hx hy] at hlt
  exact lt_irrefl _ hlt

/-- No code of a held tree begins another, so no two of them are equal (R234, R52). -/
theorem cbOK_setCodebook_treeCodes {s : State} (hT : TreeOK s) (hv : s.tvalid = true) (u : State) :
    CbOK (setCodebook (treeCodes s) u) := by
  obtain ⟨freq, hF⟩ := hT.built hv
  refine cbOK_of_prefixFree fun x y c d hne hx hy => ?_
  rw [code_treeCodes hT hF] at hx hy
  exact prefixFree_of_pairwise (treeCodes_codesOf hT hF).free hx hy hne

theorem exec_hfDerive {s : State} (hv : s.tvalid = true) :
    exec .hfDerive s = .next (discardTree (setCodebook (treeCodes s) s)) := by
  show execHfDerive s = _
  rw [execHfDerive, if_pos hv]
  rfl

/-! ### What a command may change -/

@[simp] theorem resetEngine_ibufCap (s : State) : (resetEngine s).ibufCap = s.ibufCap := rfl
@[simp] theorem resetEngine_obufCap (s : State) : (resetEngine s).obufCap = s.obufCap := rfl
@[simp] theorem resetEngine_hostq (s : State) : (resetEngine s).hostq = s.hostq := rfl
@[simp] theorem resetEngine_rdata (s : State) : (resetEngine s).rdata = s.rdata := rfl

/-- The frame of a command (R22, R100): each piece of state outside the fault registers with the commands that may change it. -/
structure CommandFrame (i : Instr) (s t : State) : Prop where
  config : i ≠ .sysReset → t.wsize = s.wsize ∧ t.minm = s.minm ∧ t.maxm = s.maxm ∧ t.epoch = s.epoch
  input : i ∉ [.bufXfer, .sysReset] → t.inLen = s.inLen ∧ t.ibuf = s.ibuf
  pos : i ∉ [.lzStep, .lzEnc, .hfEnc, .bufXfer, .sysReset] → t.pos = s.pos
  bitpos : i ∉ [.lzDstep, .lzDec, .hfDsym, .hfDec, .bufXfer, .sysReset] → t.bitpos = s.bitpos
  out : i ∈ [.nop, .lzFind, .hfCount, .hfBuild, .hfDerive, .sysClrerr] → t.ostr = s.ostr
  pbits : i ∉ [.bsFlush, .lzEnc, .hfEnc, .sysReset] → t.pbits = s.pbits
  found : i ∉ [.lzFind, .lzStep, .lzEnc, .sysReset] → t.mvalid = s.mvalid ∧ t.mDist = s.mDist ∧ t.mLen = s.mLen
  token : i ∉ [.lzDstep, .lzDec, .hfDsym, .hfDec, .sysReset] →
    t.tKind = s.tKind ∧ t.tByte = s.tByte ∧ t.tDist = s.tDist ∧ t.tLen = s.tLen
  tree : i ∉ [.hfBuild, .hfDerive, .sysReset] →
    t.nnodes = s.nnodes ∧ t.root = s.root ∧ t.nodes = s.nodes ∧ t.tvalid = s.tvalid
  freq : i ∉ [.hfCount, .sysReset] → t.freq = s.freq
  codes : i ∉ [.hfDerive, .sysReset] → t.cbl = s.cbl ∧ t.cbc = s.cbc
  ended : i ∈ [.nop, .lzFind, .lzPutm, .hfCount, .hfBuild, .hfDerive, .bsFlush, .sysClrerr] ∨
    (∃ b, i = .lzPutl b ∨ i = .hfPuts b) → t.endFlag = s.endFlag
  host : t.ibufCap = s.ibufCap ∧ t.obufCap = s.obufCap ∧ t.hostq = s.hostq ∧ t.rdata = s.rdata

/-- What `mayWrite` lists for a command is inside its frame: for each command, field by field. -/
theorem CommandFrame.of_mayWrite {i : Instr} {s t : State} (h : mayWrite i s t) : CommandFrame i s t := by
  cases i <;> (rw [show t = _ from h]; constructor <;> simp)

/-- Recording a fault stays inside every frame (R293). -/
theorem CommandFrame.raise {i : Instr} {s t : State} (h : CommandFrame i s t) (r : Raise) : CommandFrame i s (raise r t) :=
  ⟨h.config, h.input, h.pos, h.bitpos, h.out, h.pbits, h.found, h.token, h.tree, h.freq, h.codes, h.ended, h.host⟩

theorem exec_frame (i : Instr) (s : State) : ∃ t, exec i s = .next t ∧ CommandFrame i s t := by
  obtain ⟨t, he, h | ⟨u, r, h, rfl⟩⟩ := exec_writes i s
  · exact ⟨t, he, .of_mayWrite h⟩
  · exact ⟨_, he, (CommandFrame.of_mayWrite h).raise r⟩

/-! ### The output stream grows -/

theorem putUnit_prefix {c : BitStr} {s t : State} (h : putUnit c s = .ok t) : s.ostr <+: t.ostr := by
  obtain ⟨-, rfl⟩ := putUnit_eq_ok h
  exact List.prefix_append _ _

theorem putSymbol_prefix {x : Byte} {s t : State} (h : putSymbol x s = .ok t) : s.ostr <+: t.ostr := by
  obtain ⟨c, -, -, rfl⟩ := putSymbol_ok h
  exact List.prefix_append _ _

theorem encodeToken_prefix {s t : State} (h : encodeToken s = .ok t) : s.ostr <+: t.ostr := by
  rcases encodeToken_ok h with ⟨d, l, -, -, rfl⟩ | ⟨-, -, rfl⟩ <;> exact List.prefix_append _ _

theorem decodeToken_prefix {s t : State} (h : decodeToken s = .ok t) : s.ostr <+: t.ostr := by
  rcases decodeToken_cases h with ⟨-, rfl⟩ | ⟨b, -, -, rfl⟩ | ⟨d, l, -, -, -, -, rfl⟩
  · exact List.prefix_refl _
  · exact List.prefix_append _ _
  · exact copyMatch_prefix d l s

theorem decodeSymbol_prefix {cb : List (Byte × BitStr)} {s t : State} (h : decodeSymbol cb s = .ok t) :
    s.ostr <+: t.ostr := by
  rcases decodeSymbol_cases h with ⟨-, rfl⟩ | ⟨x, k, -, -, -, rfl⟩
  · exact List.prefix_refl _
  · exact List.prefix_append _ _

/-- A command whose effect extends the stream extends it or, with a fault, leaves it (R294). -/
theorem complete_prefix {s t : State} {r : Except Raise State} (hr : ∀ u, r = .ok u → s.ostr <+: u.ostr)
    (e : complete s r = .next t) : s.ostr <+: t.ostr := by
  rcases complete_cases s r with ⟨u, hu, e'⟩ | ⟨x, -, e'⟩ <;> rw [e'] at e <;> cases e
  · exact hr _ hu
  · exact List.prefix_refl _

/-- The commands that append to the stream without emptying it first (R56): each appends what its unit appends. -/
theorem exec_append_prefix {i : Instr} {s t : State}
    (hi : i ∈ [.lzPutm, .lzStep, .lzDstep, .hfDsym, .bsFlush] ∨ ∃ b, i = .lzPutl b ∨ i = .hfPuts b)
    (e : exec i s = .next t) : s.ostr <+: t.ostr := by
  cases i with
  | lzPutl b => exact complete_prefix (fun _ hu => putUnit_prefix hu) e
  | lzPutm =>
    refine complete_prefix (fun u hu => ?_) e
    obtain ⟨-, hu⟩ := checkCfg_eq_ok hu
    split at hu
    · exact putUnit_prefix hu
    · cases hu
  | lzStep =>
    refine complete_prefix (fun u hu => ?_) e
    obtain ⟨-, hu⟩ := checkCfg_eq_ok hu
    obtain ⟨-, hu⟩ := checkLen_eq_ok hu
    split at hu
    · exact Except.ok.inj hu ▸ List.prefix_refl _
    · exact encodeToken_prefix hu
  | lzDstep =>
    refine complete_prefix (fun u hu => ?_) e
    obtain ⟨-, hu⟩ := checkCfg_eq_ok hu
    obtain ⟨-, hu⟩ := checkLen_eq_ok hu
    obtain ⟨-, hu⟩ := checkAligned_eq_ok hu
    exact decodeToken_prefix hu
  | hfPuts x =>
    refine complete_prefix (fun u hu => ?_) e
    obtain ⟨-, hu⟩ := checkCodebook_eq_ok hu
    exact putSymbol_prefix hu
  | hfDsym =>
    refine complete_prefix (fun u hu => ?_) e
    obtain ⟨-, hu⟩ := checkLen_eq_ok hu
    obtain ⟨-, hu⟩ := checkPbits_eq_ok hu
    obtain ⟨-, hu⟩ := checkAligned_eq_ok hu
    obtain ⟨-, hu⟩ := checkCodebook_eq_ok hu
    exact decodeSymbol_prefix hu
  | bsFlush => exact complete_prefix (fun _ hu => Except.ok.inj hu ▸ List.prefix_append _ _) e
  | _ => simp at hi

/-! ### Pipelines end -/

/-- How a pipeline ends: with a fault recorded or with `END = 1` (R47). -/
def Ended (s : State) : Prop := s.err = true ∨ s.endFlag = true

theorem Ended.raise (r : Raise) (s : State) : Ended (raise r s) := .inl rfl

/-- A pipeline ends if its loop, having run through, leads to such an end. -/
theorem finish_ended {f : State → State} {p : State × Option Raise} (h : p.2 = none → Ended (f p.1)) :
    Ended (finish f p) := by
  rcases finish_cases f p with ⟨hn, e⟩ | ⟨r, -, e⟩ <;> rw [e]
  · exact h hn
  · exact .raise r _

theorem complete_ended {s : State} {r : Except Raise State} (h : ∀ t, r = .ok t → Ended t) :
    ∃ t, complete s r = .next t ∧ Ended t := by
  rcases complete_cases s r with ⟨t, ht, e⟩ | ⟨x, -, e⟩
  · exact ⟨t, e, h t ht⟩
  · exact ⟨_, e, .raise x s⟩

/-- The encoder pipelines set `END` after their loop (R166, R243). -/
theorem finish_encodeEnd_ended (p : State × Option Raise) : Ended (finish encodeEnd p) :=
  finish_ended fun _ => .inr rfl

/-- The loop of `LZ.DEC` ends at its terminal step: its bound is enough (R197, R200). -/
theorem lzDec_loop_ended {s : State} (hcaps : CapsOK s) (hlen : LenOK s) :
    Ended (finish id (iterate (·.endFlag) decodeToken (8 * s.inLen.toNat / 9 + 1) (decodeStart s))) :=
  finish_ended fun hn => .inr <|
    iterate_done decodeFuel (fun a => a.inLen = s.inLen ∧ a.obits % 8 = 0) (decode_measure (inLen_le hcaps hlen)) decode_zero
      _ (decodeStart s) _ ⟨rfl, rfl⟩ (decodeFuel_start s).le (Prod.ext rfl hn)

/-- The loop of `HF.DEC` ends at its terminal step: its bound is enough (R246, R250). -/
theorem hfDec_loop_ended {s : State} (hcb : CbOK s) :
    Ended (finish id (iterate (·.endFlag) (decodeSymbol (codebook s)) (s.pbits.toNat + 1) (decodeStart s))) :=
  finish_ended fun hn => .inr <|
    iterate_done symbolFuel (SamePayload s) (symbol_measure hcb) symbol_zero _ (decodeStart s) _ ⟨rfl, rfl, rfl⟩
      (Nat.le_refl _) (Prod.ext rfl hn)

theorem exec_pipeline_ended {i : Instr} {s : State} (hi : i ∈ [.lzEnc, .lzDec, .hfEnc, .hfDec]) (hcaps : CapsOK s) :
    ∃ t, exec i s = .next t ∧ Ended t := by
  cases i with
  | lzEnc =>
    refine complete_ended fun t ht => ?_
    obtain ⟨-, ht⟩ := checkCfg_eq_ok ht
    obtain ⟨-, ht⟩ := checkLen_eq_ok ht
    exact Except.ok.inj ht ▸ finish_encodeEnd_ended _
  | lzDec =>
    refine complete_ended fun t ht => ?_
    obtain ⟨-, ht⟩ := checkCfg_eq_ok ht
    obtain ⟨hlen, ht⟩ := checkLen_eq_ok ht
    exact Except.ok.inj ht ▸ lzDec_loop_ended hcaps hlen
  | hfEnc =>
    refine complete_ended fun t ht => ?_
    obtain ⟨-, ht⟩ := checkLen_eq_ok ht
    obtain ⟨-, ht⟩ := checkCodebook_eq_ok ht
    exact Except.ok.inj ht ▸ finish_encodeEnd_ended _
  | hfDec =>
    refine complete_ended fun t ht => ?_
    obtain ⟨-, ht⟩ := checkLen_eq_ok ht
    obtain ⟨-, ht⟩ := checkPbits_eq_ok ht
    obtain ⟨hcb, ht⟩ := checkCodebook_eq_ok ht
    exact Except.ok.inj ht ▸ hfDec_loop_ended hcb
  | _ => simp at hi

/-! ### The first fault is kept -/

/-- `t` has the fault registers of `s` (R24, R25). -/
def SameFault (s t : State) : Prop := t.err = s.err ∧ t.errCode = s.errCode ∧ t.errInfo = s.errInfo

/-- `t` records no fault, its code and information word being 0 (R49). -/
def NoFault (t : State) : Prop := t.err = false ∧ t.errCode = 0 ∧ t.errInfo = 0

theorem SameFault.refl (s : State) : SameFault s s := ⟨rfl, rfl, rfl⟩

theorem writeDataReg_sameFault (n : BitVec 5) (v : Word) (s : State) : SameFault s (writeDataReg n v s) := by
  unfold writeDataReg
  split <;> exact ⟨rfl, rfl, rfl⟩

theorem hostWriteMem_sameFault (sp : Space) (i : Nat) (v : Word) (s : State) : SameFault s (hostWriteMem sp i v s) := by
  cases sp <;> exact ⟨rfl, rfl, rfl⟩

/-- While a fault is recorded the gate lets two words pass (R295, R275). -/
theorem gated_eq_false {w : Word} {s : State} (hs : s.err = true) (h : gated w s = false) :
    w = 0x7E000000 ∨ w = 0x7F000000 := by
  simpa [gated, hs, or_iff_not_imp_left] using h

/-- A write to `CMD` while a fault is recorded: ignored, or one of the two commands that clear it (R295, R298). -/
theorem hostWriteCmd_faulted {w : Word} {s t : State} (hs : s.err = true) (e : hostWriteCmd w s = .next t) :
    SameFault s t ∨ (NoFault t ∧ (w = 0x7E000000 ∨ w = 0x7F000000)) := by
  cases hg : gated w s with
  | true =>
    rw [hostWriteCmd, if_pos hg] at e
    cases e
    exact .inl (.refl s)
  | false =>
    have hw := gated_eq_false hs hg
    refine .inr ⟨?_, hw⟩
    rcases hw with rfl | rfl
    · rw [hostWriteCmd_clrerr] at e
      cases e
      exact ⟨rfl, rfl, rfl⟩
    · rw [hostWriteCmd_reset] at e
      cases e
      exact ⟨rfl, rfl, rfl⟩

/-- The transactions that end a recorded fault (R297, R298). -/
def ClearsFault (x : HostTxn) : Prop := x = .writeReg 0 0x7E000000 ∨ x = .writeReg 0 0x7F000000 ∨ x = .hardReset

/-- What each of the host's five transactions does to a recorded fault (R276, R295). -/
theorem hostTxn_faulted {x : HostTxn} {s t : State} (hs : s.err = true) (e : hostTxn x s = .next t) :
    SameFault s t ∨ (NoFault t ∧ ClearsFault x) := by
  cases x with
  | readReg n =>
    cases e
    exact .inl (.refl s)
  | writeReg n v =>
    by_cases hn : n = 0
    · subst hn
      rw [hostTxn, hostWriteReg, if_pos rfl] at e
      rcases hostWriteCmd_faulted hs e with h | ⟨h, rfl | rfl⟩
      · exact .inl h
      · exact .inr ⟨h, .inl rfl⟩
      · exact .inr ⟨h, .inr (.inl rfl)⟩
    · rw [hostTxn, hostWriteReg, if_neg hn] at e
      cases e
      exact .inl (writeDataReg_sameFault n v s)
  | readMem sp i =>
    rw [hostTxn] at e
    split at e <;> cases e
    exact .inl (.refl s)
  | writeMem sp i v =>
    rw [hostTxn] at e
    split at e <;> cases e
    exact .inl (hostWriteMem_sameFault sp i v s)
  | hardReset =>
    cases e
    exact .inr ⟨⟨rfl, rfl, rfl⟩, .inr (.inr rfl)⟩

theorem step_faulted {s t : State} (hs : s.err = true) (e : step s = .next t) :
    SameFault s t ∨ (NoFault t ∧ ∃ x q, s.hostq = x :: q ∧ ClearsFault x) := by
  unfold step nextTxn at e
  split at e
  case h_1 =>
    cases e
    exact .inl (.refl s)
  case h_2 x q hq =>
    rcases hostTxn_faulted (s := { s with hostq := q }) hs e with h | ⟨h, hx⟩
    · exact .inl h
    · exact .inr ⟨h, x, q, hq, hx⟩

/-! ### The obligations -/

/-- Settles O7: only three transactions clear the fault registers, and the gate stops every other command. -/
theorem firstFaultIsKept : Obligations.FirstFaultIsKept := by
  intro s t hs e
  rcases step_faulted hs e with ⟨herr, hcode, hinfo⟩ | ⟨⟨herr, hcode, hinfo⟩, x, q, hq, hx⟩
  · exact .inl ⟨herr.trans hs, hcode, hinfo⟩
  · refine .inr ⟨herr, hcode, hinfo, q, ?_⟩
    rw [hq]
    exact hx.imp (by rintro rfl; rfl) (.imp (by rintro rfl; rfl) (by rintro rfl; rfl))

/-- Settles O10: the word of R24 bit by bit. -/
theorem statusRegisterBits : Obligations.StatusRegisterBits := statusWord_getLsbD

/-- Settles O11: a register of 32 bits reads as it stands, a narrower one zero-extended. -/
theorem registerReads : Obligations.RegisterReads := by
  intro s
  have narrow {w : Nat} (hw : w ≤ 32) (v : BitVec w) : (v.setWidth 32).toNat = v.toNat := BitVec.toNat_setWidth_of_le hw
  refine ⟨rfl, rfl, narrow (by decide) s.wsize, narrow (by decide) s.minm, narrow (by decide) s.maxm, rfl, rfl, rfl, rfl, rfl,
    rfl, rfl, rfl, ?kind, narrow (by decide) s.tByte, narrow (by decide) s.tDist, narrow (by decide) s.tLen,
    narrow (by decide) s.nnodes, narrow (by decide) s.root, rfl, rfl, fun _ => hostReadReg_reserved s⟩
  show s.tKind.code.setWidth 32 = _
  cases s.tKind <;> rfl

/-- Settles O15: the eight bits of a byte, zero past the end of the stream. -/
theorem outputBytes : Obligations.OutputBytes := fun s k =>
  ⟨outByte_toNat s k, outByte_of_olen_le, BitVec.toNat_setWidth_of_le (by decide), fun v hk => hostTxn_writeMem_obuf hk v⟩

/-- Settles O18: the three resets are one transition, which leaves the state of R60. -/
theorem resetLeaves : Obligations.ResetLeaves := fun s =>
  ⟨resetEngine s, rfl, hostWriteCmd_reset s, rfl, rfl,
    fun x => ⟨Table.get_replicate _ x, Table.get_replicate _ x, Table.get_replicate _ x⟩,
    fun i => ⟨treeWord_of_no_tree rfl i, by
      show (outByte (resetEngine s) i).setWidth 32 = 0
      rw [outByte_of_empty rfl]
      rfl⟩,
    fun _ => rfl⟩

/-- Settles O24: what a command may write (R22, R100) is inside its frame, and so is recording a fault. -/
theorem onlyListedCommandsWrite : Obligations.OnlyListedCommandsWrite := fun i s =>
  have ⟨t, e, h⟩ := exec_frame i s
  ⟨t, e, h.config, h.input, h.pos, h.bitpos, h.out, h.pbits, h.found, h.token, h.tree, h.freq, h.codes, h.ended, h.host⟩

/-- Settles O25: a command leaves the stream, appends to it, or starts by emptying it. -/
theorem outputOnlyGrows : Obligations.OutputOnlyGrows := by
  intro i s t hi e
  by_cases hkeep : i ∈ [.nop, .lzFind, .hfCount, .hfBuild, .hfDerive, .sysClrerr]
  · obtain ⟨u, hu, hframe⟩ := exec_frame i s
    obtain rfl : u = t := by rw [hu] at e; cases e; rfl
    rw [hframe.out hkeep]
  · refine exec_append_prefix ?_ e
    cases i <;> simp at hi hkeep ⊢

/-- Settles O26: an encoder sets `END` after its loop, and a decoder's loop has fuel enough to reach the terminal step. -/
theorem pipelinesEnd : Obligations.PipelinesEnd := by
  intro i s hi hcaps _
  obtain ⟨t, e, h⟩ := exec_pipeline_ended hi hcaps
  refine ⟨t, e, ?_⟩
  cases herr : t.err with
  | true => exact .inr rfl
  | false => exact .inl ⟨rfl, h.resolve_left (by rw [herr]; decide)⟩

/-- Settles O48: an entry read by R52 and R119. -/
theorem codebookEntry : Obligations.CodebookEntry := by
  intro s x
  refine ⟨code_eq_none s x, fun w hw => ?_⟩
  obtain ⟨hlen, -, hbits⟩ := codeOfEntry_eq_some hw
  exact ⟨hlen, fun i hi => by rw [hbits i hi, hlen]⟩

/-- Settles O49: the first duplicate pair is what the check of R241 finds, and no code of a tree begins another. -/
theorem codebookValidation : Obligations.CodebookValidation := by
  refine ⟨fun s => ⟨fun h => ?_, fun ⟨_, _, hdup⟩ => hdup.not_cbOK⟩, fun _ _ _ _ _ h h' => h.unique h', ?_⟩
  · by_contra hno
    exact h (.of_no_firstDup hno)
  · intro s t hT hv e
    rw [exec_hfDerive hv] at e
    cases e
    exact cbOK_setCodebook_treeCodes hT hv s

end Sys2Proof.Machine
end

section
/-! PROOF. The memory family: a step as the host's next transaction (R94, R275, R276), what a read leaves and returns (R80, R93,
R279), what a write leaves and a later read of the spaces returns (R82, R85), and the index outside a space (R84). -/

namespace Sys2Proof.Machine

/-! ### A step -/

section

variable {s : State} {q : List HostTxn}

/-- The transaction at the head of the queue is performed and taken off it (R94, R276). -/
theorem step_of_hostq {x : HostTxn} (hq : s.hostq = x :: q) : step s = hostTxn x { s with hostq := q } := by
  unfold step nextTxn
  rw [hq]

/-- While no fault is recorded, the word of a command written to `CMD` runs it (R275). -/
theorem step_of_command {w : Word} {i : Instr} (hq : s.hostq = .writeReg 0 w :: q) (herr : s.err = false)
    (hdec : decode w = .ok i) : step s = exec i { s with hostq := q } :=
  (step_of_hostq hq).trans (hostWriteCmd_of_decode (by simp [gated, herr]) hdec)

theorem decode_of_decodeTableWord {nbits w : Nat} {i : Instr} (h : decodeTableWord nbits w = some i) :
    decode (tableWord nbits w) = .ok i := by
  unfold decodeTableWord at h
  split at h
  · cases hd : decode (tableWord nbits w) with
    | ok j => simpa [hd, Except.toOption] using h
    | error e => simp [hd, Except.toOption] at h
  · cases h

end

/-! ### A read after a write -/

/-- The entries of a table by index: the one written holds the value, every other one is kept (R85). -/
theorem Table.get_put_ofNat {α : Type} (t : Table α) (v : α) {i j : Nat} (hi : i < 256) (hj : j < 256) :
    Table.get (Table.put t (BitVec.ofNat 8 i) v) (BitVec.ofNat 8 j) = if j = i then v else Table.get t (BitVec.ofNat 8 j) := by
  by_cases hji : j = i
  · rw [if_pos hji, hji, Table.get_put_same]
  · rw [if_neg hji, Table.get_put_other]
    intro he
    have := congrArg BitVec.toNat he
    simp only [BitVec.toNat_ofNat] at this
    omega

/-- The low byte of a word, zero-extended, as a byte space returns it (R82, log 8). -/
theorem setWidth_lowByte (v : Word) : (v.setWidth 8).setWidth 32 = v &&& 0xFF := by
  apply BitVec.eq_of_toNat_eq
  have hmask : v.toNat &&& 255 = v.toNat % 2 ^ 8 := Nat.and_two_pow_sub_one_eq_mod v.toNat 8
  simp only [BitVec.toNat_setWidth, BitVec.toNat_and, BitVec.reduceToNat]
  omega

section

variable (s : State) (v : Word) {i j : Nat}

theorem hostReadMem_write_freq (hi : i < 256) (hj : j < 256) :
    hostReadMem (hostWriteMem .freq i v s) .freq j = if j = i then v else hostReadMem s .freq j :=
  Table.get_put_ofNat s.freq v hi hj

theorem hostReadMem_write_cbl (hi : i < 256) (hj : j < 256) :
    hostReadMem (hostWriteMem .cbl i v s) .cbl j = if j = i then v &&& 0xFF else hostReadMem s .cbl j := by
  simp only [hostReadMem, hostWriteMem, Table.get_put_ofNat s.cbl _ hi hj]
  rw [apply_ite (BitVec.setWidth 32), setWidth_lowByte]

/-- A write to CBC replaces one of the eight words of one code: two indices are equal when code and word are (R80, R85). -/
theorem hostReadMem_write_cbc (hi : i < 2048) (hj : j < 2048) :
    hostReadMem (hostWriteMem .cbc i v s) .cbc j = if j = i then v else hostReadMem s .cbc j := by
  have hword := setCodeWord_extract (Table.get s.cbc (BitVec.ofNat 8 (i / 8))) (i % 8) (j % 8) v (by omega) (by omega)
  simp only [hostReadMem, hostWriteMem, Table.get_put_ofNat s.cbc _ (show i / 8 < 256 by omega) (show j / 8 < 256 by omega)]
  by_cases hcode : j / 8 = i / 8
  · rw [if_pos hcode, hword, hcode]
    exact if_congr (by omega) rfl rfl
  · rw [if_neg hcode, if_neg (show j ≠ i by rintro rfl; exact hcode rfl)]

theorem hostReadMem_write_ibuf (i j : Nat) :
    hostReadMem (hostWriteMem .ibuf i v s) .ibuf j = if j = i then v &&& 0xFF else hostReadMem s .ibuf j := by
  simp only [hostReadMem, hostWriteMem, ibufAt, Memory.read?_write]
  split
  · rw [Option.getD_some, setWidth_lowByte]
  · rfl

/-- A write to one space is not seen in another (R82). -/
theorem hostReadMem_write_other {sp sp' : Space} (h : sp' ≠ sp) (i j : Nat) :
    hostReadMem (hostWriteMem sp i v s) sp' j = hostReadMem s sp' j := by
  cases sp <;> cases sp'
  case freq.freq | cbl.cbl | cbc.cbc | ibuf.ibuf => exact absurd rfl h
  all_goals rfl

theorem hostReadReg_hostWriteMem (sp : Space) (i : Nat) (n : BitVec 5) :
    hostReadReg (hostWriteMem sp i v s) n = hostReadReg s n := by
  cases sp <;> rfl

/-- Whatever the space, a read of it after a write to it (R82, R85). -/
theorem hostReadMem_write_same (sp : Space) (hi : i < sp.size s) (hj : j < sp.size s) :
    hostReadMem (hostWriteMem sp i v s) sp j =
      if j = i ∧ sp ≠ .tree ∧ sp ≠ .obuf then (if sp = .cbl ∨ sp = .ibuf then v &&& 0xFF else v) else hostReadMem s sp j := by
  cases sp with
  | freq => simpa using hostReadMem_write_freq s v hi hj
  | cbl => simpa using hostReadMem_write_cbl s v hi hj
  | cbc => simpa using hostReadMem_write_cbc s v hi hj
  | tree => simp [hostWriteMem]
  | ibuf => simpa using hostReadMem_write_ibuf s v i j
  | obuf => simp [hostWriteMem]

end

/-! ### The obligations -/

/-- Settles O13: the registers and the other spaces are kept, and in its own space a write is read back. -/
theorem memoryWritesReadBack : Obligations.MemoryWritesReadBack := by
  intro s sp i v hi
  refine ⟨hostWriteMem sp i v s, if_pos hi, hostReadReg_hostWriteMem s v sp i, fun sp' j hj => ?_⟩
  by_cases hsp : sp' = sp
  · subst hsp
    simpa using hostReadMem_write_same s v sp' hi hj
  · rw [if_neg fun h => hsp h.1, hostReadMem_write_other s v hsp]

/-- Settles O5: by the head of the queue; `withFetchWord` puts there the word that `decodeTableWord` decodes. -/
theorem stepRunsDecodedCommand : Obligations.StepRunsDecodedCommand :=
  ⟨fun _ _ _ hq => step_of_hostq hq, fun _ _ _ _ hq => step_of_hostq hq, fun _ _ _ _ hq => step_of_command hq,
    fun s nbits w _ herr hdec =>
      step_of_command (s := s.withFetchWord nbits w) (q := s.hostq) rfl herr (decode_of_decodeTableWord hdec)⟩

/-- Settles O9: a read delivers its value and does nothing else. -/
theorem readsHaveNoSideEffect : Obligations.ReadsHaveNoSideEffect := fun _ _ =>
  ⟨fun _ hq => step_of_hostq hq, fun _ _ hq hi => (step_of_hostq hq).trans (if_pos hi)⟩

/-- Settles O14: neither the read nor the write is inside the space. -/
theorem indexOutsideSpaceStops : Obligations.IndexOutsideSpaceStops := fun _ _ _ _ h =>
  ⟨if_neg h.not_gt, if_neg h.not_gt⟩

/-- Settles O58: an entry of a table by its index, word `w` of a code at index `8x + w`, a byte zero-extended. -/
theorem memoryReads : Obligations.MemoryReads := by
  intro s
  refine ⟨fun x hx => s.freq.toList_getElem? hx, fun x hx => ?cbl, fun x w hx hw => ?cbc, fun i => ?ibuf⟩
  case cbl => exact ⟨_, Table.toList_getElem? s.cbl hx, BitVec.toNat_setWidth_of_le (by decide)⟩
  case cbc =>
    refine ⟨_, Table.toList_getElem? s.cbc hx, fun k hk => ?_⟩
    have hcode : (8 * x + w) / 8 = x := by omega
    have hword : (8 * x + w) % 8 = w := by omega
    simp only [hostReadMem, hcode, hword, BitVec.getLsbD_extractLsb', hk, decide_true, Bool.true_and]
  case ibuf => exact BitVec.toNat_setWidth_of_le (by decide)

end Sys2Proof.Machine
end

section
/-! PROOF. The encoding family: the command map row by row and word by word (R110 to R112), illegal words (R121). -/

namespace Sys2Proof

/-! ### The fields of a word, and matching a row -/

theorem opcField_toNat (w : Word) : (opcField w).toNat = w.toNat / 2 ^ 24 := by
  have := w.isLt
  rw [opcField, BitVec.extractLsb'_toNat, Nat.shiftRight_eq_div_pow]
  omega

theorem rsvField_toNat (w : Word) : (rsvField w).toNat = w.toNat / 2 ^ 8 % 2 ^ 16 := by
  rw [rsvField, BitVec.extractLsb'_toNat, Nat.shiftRight_eq_div_pow]

theorem immField_toNat (w : Word) : (immField w).toNat = w.toNat % 2 ^ 8 := by
  rw [immField, BitVec.extractLsb'_toNat, Nat.shiftRight_zero]

/-- A word has the fields it was made of, and no other word has them (R110). -/
theorem eq_commandWord_iff {w : Word} {o b : Byte} :
    w = commandWord o b ↔ opcField w = o ∧ rsvField w = 0 ∧ immField w = b := by
  constructor
  · rintro rfl
    simp
  · rintro ⟨rfl, hrsv, rfl⟩
    exact word_of_fields hrsv

/-- Every row's match is the word of its `OPC` with `IMM8 = 0` (R112). -/
theorem opcodeRows_pattern : ∀ r ∈ opcodeRows, r.pattern = commandWord (opcField r.pattern) 0 := by decide

/-- A row has the mask of the immediate commands or the one of the others (R111). -/
theorem opcodeRows_mask : ∀ r ∈ opcodeRows,
    (r.mask = maskImm ∧ (opcField r.pattern = 0x02 ∨ opcField r.pattern = 0x13)) ∨
      (r.mask = maskFull ∧ opcField r.pattern ≠ 0x02 ∧ opcField r.pattern ≠ 0x13) := by decide

/-- What a row matches, by the fields of the word: its `OPC`, `RSV = 0`, and any `IMM8` in the two immediate rows only. -/
theorem row_matches_iff {r : OpcodeRow} (hr : r ∈ opcodeRows) (w : Word) : w &&& r.mask = r.pattern ↔
    opcField w = opcField r.pattern ∧ rsvField w = 0 ∧ (immField w = 0 ∨ opcField w = 0x02 ∨ opcField w = 0x13) := by
  rw [opcodeRows_pattern r hr]
  rcases opcodeRows_mask r hr with ⟨hmask, hopc⟩ | ⟨hmask, hopc⟩ <;> rw [hmask]
  · rw [and_maskImm, eq_commandWord_iff, opcField_commandWord]
    constructor
    · rintro ⟨ho, hrsv, -⟩
      exact ⟨ho, hrsv, .inr (ho ▸ hopc)⟩
    · rintro ⟨ho, hrsv, -⟩
      exact ⟨ho, hrsv, rfl⟩
  · rw [and_maskFull, eq_commandWord_iff, opcField_commandWord]
    refine and_congr_right fun ho => and_congr_right fun _ => ?_
    rw [ho]
    exact (or_iff_left (not_or.mpr hopc)).symm

/-- The rows differ in their `OPC`, so a word matches one row at most (R111). -/
theorem row_unique {w : Word} {r₁ r₂ : OpcodeRow} (h₁ : r₁ ∈ opcodeRows) (h₂ : r₂ ∈ opcodeRows)
    (hw₁ : w &&& r₁.mask = r₁.pattern) (hw₂ : w &&& r₂.mask = r₂.pattern) : r₁ = r₂ := by
  have hnodup : (opcodeRows.map fun r => opcField r.pattern).Nodup := by decide
  have ho₁ := ((row_matches_iff h₁ w).mp hw₁).1
  have ho₂ := ((row_matches_iff h₂ w).mp hw₂).1
  exact List.inj_on_of_nodup_map hnodup h₁ h₂ (ho₁.symm.trans ho₂)

/-! ### The decoder -/

/-- A word decodes to the command of the row it matches (R111). -/
theorem decode_of_row {w : Word} {r : OpcodeRow} (hr : r ∈ opcodeRows) (hw : w &&& r.mask = r.pattern) :
    decode w = .ok (r.make (immField w)) := by
  unfold decode
  cases hfind : opcodeRows.find? fun r => w &&& r.mask == r.pattern with
  | none => exact absurd (beq_iff_eq.mpr hw) (List.find?_eq_none.mp hfind r hr)
  | some r' =>
    have hw' : (w &&& r'.mask == r'.pattern) = true :=
      List.find?_some (p := fun r : OpcodeRow => w &&& r.mask == r.pattern) hfind
    rw [row_unique (List.mem_of_find?_eq_some hfind) hr (beq_iff_eq.mp hw') hw]

/-- A word that matches no row does not decode (R111, R121). -/
theorem decode_of_no_row {w : Word} (h : ∀ r ∈ opcodeRows, w &&& r.mask ≠ r.pattern) :
    decode w = .error (illegalReason w) := by
  have hfind : (opcodeRows.find? fun r => w &&& r.mask == r.pattern) = none :=
    List.find?_eq_none.mpr fun r hr hb => h r hr (beq_iff_eq.mp hb)
  rw [decode, hfind]

/-- Decoding succeeds by a row only. -/
theorem decode_eq_ok {w : Word} {i : Instr} (h : decode w = .ok i) :
    ∃ r ∈ opcodeRows, w &&& r.mask = r.pattern ∧ i = r.make (immField w) := by
  by_contra hnone
  push Not at hnone
  by_cases hrow : ∃ r ∈ opcodeRows, w &&& r.mask = r.pattern
  · obtain ⟨r, hr, hw⟩ := hrow
    rw [decode_of_row hr hw] at h
    exact hnone r hr hw (Except.ok.inj h).symm
  · push Not at hrow
    rw [decode_of_no_row hrow] at h
    cases h

theorem decode_error_iff {w : Word} : (∃ e, decode w = .error e) ↔ ∀ r ∈ opcodeRows, w &&& r.mask ≠ r.pattern := by
  refine ⟨?_, fun h => ⟨_, decode_of_no_row h⟩⟩
  rintro ⟨e, he⟩ r hr hw
  rw [decode_of_row hr hw] at he
  cases he

/-- An immediate row decodes to its command with the byte of the word (R111). -/
theorem decode_commandWord_imm {o : Byte} {mk : Byte → Instr} (hr : ⟨commandWord o 0, maskImm, mk⟩ ∈ opcodeRows)
    (b : Byte) : decode (commandWord o b) = .ok (mk b) := by
  have hw : commandWord o b &&& maskImm = commandWord o 0 := (and_maskImm o _).mpr (by rw [immField_commandWord])
  rw [decode_of_row hr hw, immField_commandWord]

theorem decode_lzPutl (b : Byte) : decode (commandWord 0x02 b) = .ok (.lzPutl b) :=
  decode_commandWord_imm (List.getElem_mem (l := opcodeRows) (n := 2) (by decide)) b

theorem decode_hfPuts (b : Byte) : decode (commandWord 0x13 b) = .ok (.hfPuts b) :=
  decode_commandWord_imm (List.getElem_mem (l := opcodeRows) (n := 11) (by decide)) b

/-- Each row makes the command whose word it matches: the command map read from left to right (R112). -/
theorem encode_make (w : Word) : ∀ r ∈ opcodeRows, w &&& r.mask = r.pattern → encode (r.make (immField w)) = w := by
  have full : ∀ o : Byte, w &&& maskFull = commandWord o 0 → commandWord o 0 = w := fun o h => by rw [← h, and_maskFull]
  have imm : ∀ o : Byte, w &&& maskImm = commandWord o 0 → commandWord o (immField w) = w :=
    fun o h => ((and_maskImm o w).mp h).symm
  simp only [opcodeRows, List.forall_mem_cons]
  exact ⟨full 0x00, full 0x01, imm 0x02, full 0x03, full 0x04, full 0x05, full 0x06, full 0x07, full 0x10, full 0x11,
    full 0x12, imm 0x13, full 0x14, full 0x15, full 0x16, full 0x20, full 0x21, full 0x22, full 0x7E, full 0x7F,
    List.forall_mem_nil _⟩

theorem decode_encode (i : Instr) : decode (encode i) = .ok i := by
  cases i with
  | lzPutl b => exact decode_lzPutl b
  | hfPuts b => exact decode_hfPuts b
  | _ => decide

theorem encode_of_decode {w : Word} {i : Instr} (h : decode w = .ok i) : encode i = w := by
  obtain ⟨r, hr, hw, rfl⟩ := decode_eq_ok h
  exact encode_make w r hr hw

/-- The word of an immediate command as the map writes it, the byte in the low bits (R112). -/
theorem commandWord_eq_or (o b : Byte) : commandWord o b = commandWord o 0 ||| b.setWidth 32 := by
  apply BitVec.eq_of_getLsbD_eq
  intro k hk
  simp only [commandWord_getLsbD, BitVec.getLsbD_or, BitVec.getLsbD_setWidth, hk, decide_true, Bool.true_and]
  by_cases hlow : k < 8
  · simp [hlow]
  · simp [hlow, BitVec.getLsbD_of_ge b k (by omega)]

/-! ### Illegal words -/

/-- The twenty values of `OPC` as the rows have them (R112). -/
theorem exists_row_iff (w : Word) : (∃ r ∈ opcodeRows, opcField w = opcField r.pattern) ↔
    w.toNat / 2 ^ 24 ∈ [0x00, 0x01, 0x02, 0x03, 0x04, 0x05, 0x06, 0x07, 0x10, 0x11, 0x12, 0x13, 0x14, 0x15, 0x16,
      0x20, 0x21, 0x22, 0x7E, 0x7F] := by
  have hopcs : opcodeRows.map (fun r => (opcField r.pattern).toNat) = [0x00, 0x01, 0x02, 0x03, 0x04, 0x05, 0x06, 0x07,
    0x10, 0x11, 0x12, 0x13, 0x14, 0x15, 0x16, 0x20, 0x21, 0x22, 0x7E, 0x7F] := by decide
  rw [← hopcs, List.mem_map, ← opcField_toNat]
  exact exists_congr fun r => and_congr_right fun _ => BitVec.toNat_inj.symm.trans eq_comm

/-- A word decodes when it passes the three checks of R121, in the words of its fields. -/
theorem exists_match_iff (w : Word) : (∃ r ∈ opcodeRows, w &&& r.mask = r.pattern) ↔
    (∃ r ∈ opcodeRows, opcField w = opcField r.pattern) ∧ rsvField w = 0 ∧
      (immField w = 0 ∨ opcField w = 0x02 ∨ opcField w = 0x13) := by
  constructor
  · rintro ⟨r, hr, hw⟩
    obtain ⟨hopc, hfields⟩ := (row_matches_iff hr w).mp hw
    exact ⟨⟨r, hr, hopc⟩, hfields⟩
  · rintro ⟨⟨r, hr, hopc⟩, hfields⟩
    exact ⟨r, hr, (row_matches_iff hr w).mpr ⟨hopc, hfields⟩⟩

theorem decode_error_iff_fields (w : Word) : (∃ e, decode w = .error e) ↔
    w.toNat / 2 ^ 24 ∉ [0x00, 0x01, 0x02, 0x03, 0x04, 0x05, 0x06, 0x07, 0x10, 0x11, 0x12, 0x13, 0x14, 0x15, 0x16,
      0x20, 0x21, 0x22, 0x7E, 0x7F] ∨
    w.toNat / 2 ^ 8 % 2 ^ 16 ≠ 0 ∨
    (w.toNat % 2 ^ 8 ≠ 0 ∧ w.toNat / 2 ^ 24 ≠ 0x02 ∧ w.toNat / 2 ^ 24 ≠ 0x13) := by
  have hno : (∃ e, decode w = .error e) ↔ ¬ ∃ r ∈ opcodeRows, w &&& r.mask = r.pattern := by
    rw [decode_error_iff]
    push Not
    rfl
  rw [hno, exists_match_iff, exists_row_iff, ← rsvField_toNat, ← immField_toNat]
  simp only [← BitVec.toNat_inj, opcField_toNat, not_and_or, not_or]
  rfl

/-- An illegal word written to `CMD` while no fault is recorded (R121, R275). -/
theorem Machine.hostWriteCmd_illegal {w : Word} {s : Machine.State} {e : Illegal} (herr : s.err = false)
    (h : decode w = .error e) : Machine.hostWriteCmd w s = .next (Machine.faulted 0x01 w s) := by
  have hgate : Machine.gated w s = false := by simp [Machine.gated, herr]
  simp only [Machine.hostWriteCmd, hgate, h, Bool.false_eq_true, if_false]
  rfl

/-! ### The obligations -/

/-- Settles O1: by the row a word matches, which makes the command with that word. -/
theorem decodeInvertsEncode : Obligations.DecodeInvertsEncode := ⟨decode_encode, fun _ _ => encode_of_decode⟩

/-- Settles O3: the rows differ in their `OPC`, and each has one of the two masks. -/
theorem firstAndOnlyRow : Obligations.FirstAndOnlyRow := by
  intro w
  have himm : BitVec.ofNat 8 (w.toNat % 256) = immField w := by
    rw [← BitVec.toNat_inj, BitVec.toNat_ofNat, immField_toNat]
    exact Nat.mod_mod _ _
  refine ⟨fun r hr hw => ?_, fun r₁ h₁ r₂ h₂ hw₁ hw₂ => ?_, decode_error_iff.mpr, by decide⟩
  · rw [himm]
    exact decode_of_row hr hw
  · rw [row_unique h₁ h₂ hw₁ hw₂]

/-- Settles O4: a word matches a row exactly when it passes the three checks. -/
theorem illegalWords : Obligations.IllegalWords := fun w =>
  ⟨decode_error_iff_fields w, fun _ herr ⟨_, he⟩ => Machine.hostWriteCmd_illegal herr he⟩

/-- Settles O2: row by row, the two immediate rows for every byte. -/
theorem commandMap : Obligations.CommandMap := by
  have putl (b : Byte) : decode (0x02000000 ||| b.setWidth 32) = .ok (.lzPutl b) :=
    commandWord_eq_or 0x02 b ▸ decode_lzPutl b
  have puts (b : Byte) : decode (0x13000000 ||| b.setWidth 32) = .ok (.hfPuts b) :=
    commandWord_eq_or 0x13 b ▸ decode_hfPuts b
  exact ⟨decode_encode .nop, decode_encode .lzFind, putl, decode_encode .lzPutm, decode_encode .lzStep,
    decode_encode .lzEnc, decode_encode .lzDstep, decode_encode .lzDec, decode_encode .hfCount, decode_encode .hfBuild,
    decode_encode .hfDerive, puts, decode_encode .hfEnc, decode_encode .hfDsym, decode_encode .hfDec,
    decode_encode .bsInit, decode_encode .bsFlush, decode_encode .bufXfer, decode_encode .sysClrerr,
    decode_encode .sysReset⟩

end Sys2Proof
end

section
/-! PROOF. The words of a node record (R120), and the LZSS encoder as a whole: that it completes when there is room (R113, R168),
and that its unit is the search, one append and a `POS` write (R125). -/

namespace Sys2Proof.Machine

/-! ### Node records -/

/-- A value in the low bits of a word, the bits above being 0. -/
theorem zero_append_toNat {m n : Nat} (b : BitVec n) : ((0 : BitVec m) ++ b).toNat = b.toNat := by
  rw [BitVec.toNat_append]
  simp

/-- Words 0 and 1 of a record: the low 32 and the high 8 bits of the frequency (R120). -/
theorem Node.word_freq (n : Node) :
    n.word 0 = BitVec.ofNat 32 n.nfreq.toNat ∧ n.word 1 = BitVec.ofNat 32 (n.nfreq.toNat / 2 ^ 32) := by
  have hlt := n.nfreq.isLt
  constructor <;> apply BitVec.eq_of_toNat_eq
  · simp [Node.word]
  · rw [Node.word, zero_append_toNat, BitVec.extractLsb'_toNat, BitVec.toNat_ofNat, Nat.shiftRight_eq_div_pow]
    omega

/-- Words 2 and 3 of a leaf's record: `KIND = 0` and `SYM`; no children (R120). -/
theorem Node.word_leaf (x : Byte) (f : Freq40) :
    (Node.leaf x f).word 2 = BitVec.ofNat 32 x.toNat ∧ (Node.leaf x f).word 3 = 0x01FF01FF := by
  simp only [Node.word, Node.kind, Node.sym, Node.right, Node.left]
  refine ⟨BitVec.eq_of_toNat_eq ?_, by decide⟩
  have hlt := x.isLt
  have hkind : (0 : BitVec 23) ++ (0 : BitVec 1) = (0 : BitVec 24) := by decide
  rw [BitVec.toNat_ofNat, Nat.mod_eq_of_lt (by omega), hkind, zero_append_toNat]

/-- Words 2 and 3 of an internal node's record: `KIND = 1`; `RIGHT` above `LEFT` (R120). -/
theorem Node.word_internal (f : Freq40) (l r : NodeNum) : (Node.internal f l r).word 2 = 0x00000100 ∧
    (Node.internal f l r).word 3 = BitVec.ofNat 32 (2 ^ 16 * r.toNat + l.toNat) := by
  simp only [Node.word, Node.kind, Node.sym, Node.right, Node.left]
  refine ⟨by decide, BitVec.eq_of_toNat_eq ?_⟩
  have hl := l.isLt
  have hr := r.isLt
  have hhigh : ((0 : BitVec 7) ++ r ++ (0 : BitVec 7)).toNat = 2 ^ 7 * r.toNat := by
    rw [BitVec.toNat_append, zero_append_toNat]
    simp [Nat.shiftLeft_eq, Nat.mul_comm]
  have hword : ((0 : BitVec 7) ++ r ++ (0 : BitVec 7) ++ l).toNat = 2 ^ 9 * (2 ^ 7 * r.toNat) + l.toNat := by
    rw [BitVec.toNat_append, hhigh, ← Nat.shiftLeft_add_eq_or_of_lt hl, Nat.shiftLeft_eq, Nat.mul_comm]
  rw [BitVec.toNat_ofNat, Nat.mod_eq_of_lt (by omega), hword]
  omega

/-- Index `4n + w` of space TREE is word `w` of node `n` (R120). -/
theorem treeWord_of_node {s : State} {n w : Nat} {x : Node} (hv : s.tvalid = true) (hn : n < s.nnodes.toNat)
    (hx : s.nodes[n]? = some x) (hw : w < 4) : treeWord s (4 * n + w) = x.word w := by
  have hnode : (4 * n + w) / 4 = n := by omega
  have hword : (4 * n + w) % 4 = w := by omega
  simp [treeWord, hnode, hword, hv, hn, hx]

theorem treeWord_of_nnodes_le {s : State} {n w : Nat} (hn : s.nnodes.toNat ≤ n) (hw : w < 4) : treeWord s (4 * n + w) = 0 := by
  have hnode : (4 * n + w) / 4 = n := by omega
  simp [treeWord, hnode, hn.not_gt]

/-- Settles O17: the words of a held node by its kind; without one they read 0. -/
theorem treeWords : Obligations.TreeWords := by
  intro s n
  refine ⟨fun hnone w hw => ?_, fun hv hn => ⟨fun x f hx => ?_, fun f l r hx => ?_⟩⟩
  · rcases hnone with hv | hn
    · exact treeWord_of_no_tree hv _
    · exact treeWord_of_nnodes_le hn hw
  · have hread (w : Nat) (hw : w < 4) : hostReadMem s .tree (4 * n + w) = _ := treeWord_of_node hv hn hx hw
    obtain ⟨hlow, hhigh⟩ := (Node.leaf x f).word_freq
    obtain ⟨hsym, hnil⟩ := Node.word_leaf x f
    exact ⟨(hread 0 (by decide)).trans hlow, (hread 1 (by decide)).trans hhigh, (hread 2 (by decide)).trans hsym,
      (hread 3 (by decide)).trans hnil⟩
  · have hread (w : Nat) (hw : w < 4) : hostReadMem s .tree (4 * n + w) = _ := treeWord_of_node hv hn hx hw
    obtain ⟨hlow, hhigh⟩ := (Node.internal f l r).word_freq
    obtain ⟨hkind, hchildren⟩ := Node.word_internal f l r
    exact ⟨(hread 0 (by decide)).trans hlow, (hread 1 (by decide)).trans hhigh, (hread 2 (by decide)).trans hkind,
      (hread 3 (by decide)).trans hchildren⟩

/-! ### `LZ.ENC` as a whole -/

/-- What `LZ.ENC` leaves when it completes: the padded encoding of acceptable tokens that stand for the input (R113, R166). -/
structure LzEncoded (s t : State) (ts : List Token) : Prop where
  state : t = { s with
    ostr := padded (encTokens s.minm.toNat ts), pbits := BitVec.ofNat 32 (encTokens s.minm.toNat ts).length
    pos := s.inLen, endFlag := true, mvalid := t.mvalid, mDist := t.mDist, mLen := t.mLen }
  valid : validTokens s.minm.toNat [] ts
  bytes : expandTokens [] ts = inputBytes s
  size : (encTokens s.minm.toNat ts).length ≤ 17 * s.inLen.toNat
  sizeShort : 2 ≤ s.minm.toNat → (encTokens s.minm.toNat ts).length ≤ 9 * s.inLen.toNat

/-- The end of `LZ.ENC` after a loop that stands at the end of the input (R166). -/
theorem Encoded.encodeEnd {s t : State} {ts : List Token} (h : Encoded (encodeStart s) t ts) (hpos : t.pos = s.inLen) :
    LzEncoded s (encodeEnd t) ts := by
  obtain ⟨hstream, hbytes, hvalid, -, -, ⟨hsize, hshort⟩, hsame⟩ := h
  have hobits : t.obits = (encTokens s.minm.toNat ts).length := congrArg List.length hstream
  rw [hpos, hobits] at hsize hshort
  rw [hpos] at hbytes
  refine ⟨?_, hvalid, hbytes.trans (List.take_of_length_le (inputBytes_length s).le), hsize, hshort⟩
  have hend : Machine.encodeEnd t = { t with
      ostr := padded (encTokens s.minm.toNat ts), pbits := BitVec.ofNat 32 (encTokens s.minm.toNat ts).length
      pos := s.inLen, endFlag := true } := by
    have hstream : t.ostr = encTokens s.minm.toNat ts := hstream
    rw [← hpos, ← hstream]
    rfl
  rw [hend]
  exact congrArg (fun x : State => { x with
    ostr := padded (encTokens s.minm.toNat ts), pbits := BitVec.ofNat 32 (encTokens s.minm.toNat ts).length
    pos := s.inLen, endFlag := true, mvalid := t.mvalid, mDist := t.mDist, mLen := t.mLen }) hsame

theorem Encoded.obufCap {s t : State} {ts : List Token} (h : Encoded s t ts) : t.obufCap = s.obufCap := by
  have := congrArg State.obufCap h.same
  exact this

theorem encodeToken_fits {s t : State} (h : encodeToken s = .ok t) : t.obits ≤ t.obufBits := by
  rcases encodeToken_ok h with ⟨d, l, -, hroom, rfl⟩ | ⟨-, hroom, rfl⟩ <;>
    simpa [State.obits, State.obufBits] using hroom

/-- The output fits the buffer, which is whole bytes, so its padding does (R34, R164). -/
theorem padded_length_le {c : BitStr} {n : Nat} (h : c.length ≤ 8 * n) : (padded c).length ≤ 8 * n := by
  rw [padded_length]
  unfold ceil8
  omega

/-- What `LZ.ENC` does once its checks pass: it completes within the output buffer, or stops at a token that raises (R166). -/
theorem lzEnc_outcome {s : State} (hcfg : CfgOK s) (hlen : LenOK s) :
    (∃ t ts, exec .lzEnc s = .next t ∧ LzEncoded s t ts ∧ t.ostr.length ≤ 8 * s.obufCap) ∨
    ∃ t ts r, exec .lzEnc s = .next (raise r t) ∧ Encoded (encodeStart s) t ts ∧ atInputEnd t = false ∧
      encodeToken t = .error r := by
  obtain ⟨ts, hts, hpos⟩ := iterate_encodeToken s ((CfgOK.iff s).mp hcfg)
  have hfits := iterate_keeps (done := atInputEnd) (unit := encodeToken) (fun t => t.obits ≤ t.obufBits)
    (fun _ _ _ _ => encodeToken_fits) s.inLen.toNat (encodeStart s) (Nat.zero_le _)
  have hexec := exec_lzEnc s hcfg hlen
  generalize hloop : iterate atInputEnd encodeToken s.inLen.toNat (encodeStart s) = loop at *
  obtain ⟨t, raised⟩ := loop
  cases raised with
  | none =>
    have henc := hts.encodeEnd (hpos rfl)
    have hcap : t.obufCap = s.obufCap := hts.obufCap
    exact .inl ⟨_, ts, hexec, henc, hcap ▸ padded_length_le hfits⟩
  | some r =>
    obtain ⟨hrun, hr⟩ := iterate_raised _ _ _ _ hloop
    exact .inr ⟨t, ts, r, hexec, hts, hrun, hr⟩

/-- With room for the worst case no token of the encoder is too long (R168): a literal takes 9 bits for its byte, a match 17
for two bytes or more if `MINM` is at least 2. -/
theorem Encoded.token_fits {s t : State} {ts : List Token} (h : Encoded s t ts) (hcfg : cfgOK s = true)
    (hcap : 17 * s.inLen.toNat ≤ s.obufBits ∨ (2 ≤ s.minm.toNat ∧ 9 * s.inLen.toNat ≤ s.obufBits))
    (hrun : atInputEnd t = false) {r : Raise} : encodeToken t ≠ .error r := by
  intro hr
  obtain ⟨-, hfull⟩ := encodeToken_error hr
  have hbuf : t.obufBits = s.obufBits := congrArg (8 * ·) h.obufCap
  have hmore := atInputEnd_false.mp hrun
  obtain ⟨hsize, hshort⟩ := h.size
  rw [h.inLen] at hmore
  rw [hbuf] at hfull
  cases hfind : findAtPos t with
  | none =>
    simp only [hfind, Option.isSome_none, Bool.false_eq_true, if_false] at hfull
    omega
  | some m =>
    obtain ⟨-, -, -, hmin, -, -, hinside, -⟩ := findAtPos_bounds (h.cfg.trans hcfg) hfind
    simp only [hfind, Option.isSome_some, if_true] at hfull
    rw [h.minm] at hmin
    rw [h.inLen] at hinside
    omega

/-- Settles O37: no token raises, so the loop ends at the end of the input. -/
theorem encoderCompletes : Obligations.EncoderCompletes := by
  intro s hcfg hlen hcap
  rcases lzEnc_outcome hcfg hlen with ⟨t, ts, hexec, henc, -⟩ | ⟨t, ts, r, -, henc, hrun, hr⟩
  · exact ⟨ts, t, hexec, henc.state, henc.valid, henc.bytes, henc.size, henc.sizeShort⟩
  · exact absurd hr (henc.token_fits ((CfgOK.iff s).mp hcfg) hcap hrun)

/-! ### `LZ.STEP` by single commands -/

theorem exec_lzFind {s : State} (hcfg : CfgOK s) (hlen : LenOK s) :
    exec .lzFind s = .next (setMatch (findAtPos s) s) := by
  show execLzFind s = _
  rw [execLzFind, checkCfg_pass hcfg, checkLen_pass hlen]
  rfl

theorem exec_lzPutl {s : State} (hroom : Room s 9) (b : Byte) :
    exec (.lzPutl b) s = .next (outAppend (literalToken b) s) := by
  show execLzPutl b s = _
  rw [execLzPutl, putUnit_ok (by rwa [literalToken_length])]
  rfl

/-- `LZ.PUTM` appends the token of `M_DIST` and `M_LEN` if the fields can hold them (R163). -/
theorem exec_lzPutm {s : State} (hcfg : CfgOK s) (hroom : Room s 17)
    (hrange : tokenInRange s.minm.toNat s.mDist.toNat s.mLen.toNat = true) :
    exec .lzPutm s = .next (outAppend (matchToken s.minm.toNat s.mDist.toNat s.mLen.toNat) s) := by
  show execLzPutm s = _
  rw [execLzPutm, checkCfg_pass hcfg, if_pos hrange, putUnit_ok (by rwa [matchToken_length])]
  rfl

/-- The host's write of `POS`, as `LZ.STEP` writes it in a state with `END = 0` (R165, R278). -/
theorem hostWriteReg_pos {s : State} (hend : s.endFlag = false) (v : Word) :
    hostWriteReg 7 v s = .next { s with pos := v, endFlag := false } := by
  rw [← hend]
  rfl

/-- `LZ.PUTM` after a search that found `(d, L)` appends the token of `(d, L)` (R147, R163). -/
theorem exec_lzPutm_setMatch {s : State} {d l : Nat} (hcfg : CfgOK s) (hroom : Room s 17) (hbest : IsBestMatch s d l) :
    (setMatch (some (d, l)) s).mLen.toNat = l ∧ exec .lzPutm (setMatch (some (d, l)) s) =
      .next (outAppend (matchToken s.minm.toNat d l) (setMatch (some (d, l)) s)) := by
  have hfind := (findAtPos_eq_some s d l hcfg.2.2.1).mpr hbest
  obtain ⟨hd, -, hdmax, hl, hlmax, -, hinside, -⟩ := findAtPos_bounds ((CfgOK.iff s).mp hcfg) hfind
  have hlen := s.inLen.isLt
  have hdist : (setMatch (some (d, l)) s).mDist.toNat = d :=
    toNat_ofNat32 (n := d) (by simp only [Config.maxDistField] at hdmax; omega)
  have hmlen : (setMatch (some (d, l)) s).mLen.toNat = l := toNat_ofNat32 (n := l) (by omega)
  have hput := exec_lzPutm (s := setMatch (some (d, l)) s) hcfg hroom
    (by rw [hdist, hmlen]; simp [tokenInRange, hd, hdmax, hl, hlmax])
  rw [hdist, hmlen] at hput
  exact ⟨hmlen, hput⟩

/-- Settles O38: by the token `LZ.STEP` encodes, which is the one the search finds or a literal if it finds none. -/
theorem emitEqualsStep : Obligations.EmitEqualsStep := by
  intro s t hcfg hlen hend hstep
  refine ⟨_, exec_lzFind hcfg hlen, ?_⟩
  cases hstep with
  | matched d l more hbest hroom =>
    rw [(findAtPos_eq_some s d l hcfg.2.2.1).mpr hbest]
    obtain ⟨hmlen, hput⟩ := exec_lzPutm_setMatch hcfg hroom hbest
    refine ⟨fun _ => ⟨_, hput, ?_⟩, fun hv => by cases hv⟩
    rw [hmlen]
    exact hostWriteReg_pos (by exact hend) _
  | literal more hnone hroom =>
    rw [(findAtPos_eq_none s hcfg.2.2.1).mpr hnone]
    have hput := exec_lzPutl (s := setMatch none s) hroom (ibufAt s s.pos.toNat)
    exact ⟨fun hv => (by cases hv), fun _ => ⟨_, hput, hostWriteReg_pos (by exact hend) _⟩⟩

end Sys2Proof.Machine
end

section
/-! PROOF. The pipelines chained (R125): what a run of commands without a fault has done, command by command, and that the
decoders undo the encoders on what `BUF.XFER` hands them (R167, R199, R248). -/

namespace Sys2Proof.Machine

/-! ### Runs of commands -/

/-- A run issues its first command, which records no fault, then the others (R125, R280). -/
theorem afterAll_cons {i : Instr} {is : List Instr} {s t : State} :
    afterAll (i :: is) s = some t ↔ ∃ u, exec i s = .next u ∧ u.err = false ∧ afterAll is u = some t := by
  obtain ⟨u, hexec, -⟩ := exec_writes i s
  rw [afterAll, after, hexec]
  cases herr : u.err <;> simp [herr]

theorem afterAll_append {is js : List Instr} {s t : State} :
    afterAll (is ++ js) s = some t ↔ ∃ u, afterAll is s = some u ∧ afterAll js u = some t := by
  induction is generalizing s with
  | nil => simp [afterAll]
  | cons i is ih =>
    simp only [List.cons_append, afterAll_cons, ih]
    constructor
    · rintro ⟨u, hexec, herr, v, his, hjs⟩
      exact ⟨v, ⟨u, hexec, herr, his⟩, hjs⟩
    · rintro ⟨v, ⟨u, hexec, herr, his⟩, hjs⟩
      exact ⟨u, hexec, herr, v, his, hjs⟩

/-- A run starts without a recorded fault and ends without one. -/
theorem afterAll_err {is : List Instr} {s t : State} (hs : s.err = false) (h : afterAll is s = some t) : t.err = false := by
  induction is generalizing s with
  | nil => exact Option.some.inj h ▸ hs
  | cons i is ih =>
    obtain ⟨u, -, herr, h⟩ := afterAll_cons.mp h
    exact ih herr h

/-- The configuration and the capacities of `t` are those of `s`. -/
structure SameSetup (s t : State) : Prop where
  wsize : t.wsize = s.wsize
  minm : t.minm = s.minm
  maxm : t.maxm = s.maxm
  ibufCap : t.ibufCap = s.ibufCap
  obufCap : t.obufCap = s.obufCap

theorem SameSetup.trans {s t u : State} (h : SameSetup s t) (h' : SameSetup t u) : SameSetup s u :=
  ⟨h'.wsize.trans h.wsize, h'.minm.trans h.minm, h'.maxm.trans h.maxm, h'.ibufCap.trans h.ibufCap, h'.obufCap.trans h.obufCap⟩

theorem SameSetup.cfgOK {s t : State} (h : SameSetup s t) (hs : CfgOK s) : CfgOK t := by
  unfold CfgOK
  rw [h.wsize, h.minm, h.maxm]
  exact hs

theorem SameSetup.capsOK {s t : State} (h : SameSetup s t) (hs : CapsOK s) : CapsOK t := by
  unfold CapsOK
  rw [h.ibufCap, h.obufCap]
  exact hs

/-- No command but `SYS.RESET` writes the configuration, and none the capacities (R22, R100). -/
theorem afterAll_sameSetup {is : List Instr} {s t : State} (hreset : .sysReset ∉ is) (h : afterAll is s = some t) :
    SameSetup s t := by
  induction is generalizing s with
  | nil => exact Option.some.inj h ▸ ⟨rfl, rfl, rfl, rfl, rfl⟩
  | cons i is ih =>
    obtain ⟨hi, his⟩ := not_or.mp (List.mem_cons.not.mp hreset)
    obtain ⟨u, hexec, -, h⟩ := afterAll_cons.mp h
    obtain ⟨u', hexec', hframe⟩ := exec_frame i s
    cases hexec.symm.trans hexec'
    obtain ⟨hwsize, hminm, hmaxm, -⟩ := hframe.config (Ne.symm hi)
    obtain ⟨hibuf, hobuf, -, -⟩ := hframe.host
    exact SameSetup.trans ⟨hwsize, hminm, hmaxm, hibuf, hobuf⟩ (ih his h)

/-- A command that leaves no fault recorded has taken its effect (R293). -/
theorem complete_eq_next {s t : State} {r : Except Raise State} (ht : t.err = false) (h : complete s r = .next t) :
    r = .ok t := by
  rcases complete_cases s r with ⟨u, hr, he⟩ | ⟨e, -, he⟩ <;> cases he.symm.trans h
  · exact hr
  · cases ht

/-! ### `BUF.XFER` -/

theorem exec_bufXfer {s : State} (h : s.olen ≤ s.ibufCap) : exec .bufXfer s = .next (moveOutput s) := by
  show execBufXfer s = _
  rw [execBufXfer, if_pos h]
  rfl

theorem bufXfer_ok {s t : State} (ht : t.err = false) (h : exec .bufXfer s = .next t) :
    s.olen ≤ s.ibufCap ∧ t = moveOutput s := by
  have h := complete_eq_next ht h
  split at h
  · exact ⟨‹_›, (Except.ok.inj h).symm⟩
  · cases h

theorem olen_lt {s : State} (hcaps : CapsOK s) (hfit : s.olen ≤ s.ibufCap) : s.olen < 2 ^ 32 := by
  have := hcaps.2.1
  omega

theorem moveOutput_inLen_toNat {s : State} (h : s.olen < 2 ^ 32) : (moveOutput s).inLen.toNat = s.olen := toNat_ofNat32 h

theorem moveOutput_lenOK {s : State} (hcaps : CapsOK s) (hfit : s.olen ≤ s.ibufCap) : LenOK (moveOutput s) :=
  (moveOutput_inLen_toNat (olen_lt hcaps hfit)).trans_le hfit

/-- After `BUF.XFER` the input bytes are the output bytes (R272). -/
theorem inputBytes_moveOutput {s : State} (h : s.olen < 2 ^ 32) : inputBytes (moveOutput s) = outBytes s := by
  rw [inputBytes, outBytes, moveOutput_inLen_toNat h]
  refine List.map_congr_left fun i hi => ?_
  have hi := List.mem_range.mp hi
  simp [ibufAt, moveOutput, Memory.read?_writeList, hi, outBytes]

/-! ### `LZ.ENC` and `LZ.DEC` -/

/-- `LZ.ENC` that leaves no fault recorded has encoded the input within the output buffer (R166). -/
theorem lzEnc_ok {s t : State} (ht : t.err = false) (h : exec .lzEnc s = .next t) :
    CfgOK s ∧ LenOK s ∧ ∃ ts, LzEncoded s t ts ∧ t.ostr.length ≤ 8 * s.obufCap := by
  obtain ⟨hcfg, hk⟩ := checkCfg_eq_ok (complete_eq_next ht h)
  obtain ⟨hlen, -⟩ := checkLen_eq_ok hk
  refine ⟨hcfg, hlen, ?_⟩
  rcases lzEnc_outcome hcfg hlen with ⟨u, ts, hexec, henc, hfits⟩ | ⟨u, ts, r, hexec, -⟩ <;> cases hexec.symm.trans h
  · exact ⟨ts, henc, hfits⟩
  · cases ht

theorem nine_mul_length_le_encTokens (m : Nat) (ts : List Token) : 9 * ts.length ≤ (encTokens m ts).length := by
  induction ts with
  | nil => simp
  | cons t ts ih =>
    have ht := (t.enc_length_le m).1
    simp only [encTokens, List.flatMap_cons, List.length_append, List.length_cons] at ih ⊢
    omega

/-- `LZ.DEC` on an input that is the padded encoding of acceptable tokens gives the bytes they stand for (R199). -/
theorem exec_lzDec_of_tokens {s : State} {ts : List Token} (hcaps : CapsOK s) (hcfg : CfgOK s) (hlen : LenOK s)
    (hvalid : validTokens s.minm.toNat [] ts) (hinput : Spells s 0 (padded (encTokens s.minm.toNat ts)))
    (hwhole : (padded (encTokens s.minm.toNat ts)).length = 8 * s.inLen.toNat)
    (hroom : (expandTokens [] ts).length ≤ s.obufCap) :
    exec .lzDec s = .next { s with
      ostr := byteStream (expandTokens [] ts), bitpos := BitVec.ofNat 32 (encTokens s.minm.toNat ts).length
      tKind := .none, tByte := 0, tDist := 0, tLen := 0, endFlag := true } := by
  have hin := inLen_le hcaps hlen
  have hcount := nine_mul_length_le_encTokens s.minm.toNat ts
  have hpadded : (encTokens s.minm.toNat ts).length ≤ (padded (encTokens s.minm.toNat ts)).length := by simp [padded]
  have hpad := padLen_lt (encTokens s.minm.toNat ts).length
  have hloop := iterate_decodeToken ts (decodeStart s) [] (List.replicate (padLen (encTokens s.minm.toNat ts).length) false)
    (8 * s.inLen.toNat / 9 + 1) rfl (Nat.lt_succ_of_le hin) rfl (hinput.congr rfl fun _ => rfl)
    ((Nat.zero_add _).trans hwhole) (by rw [List.length_replicate]; omega) hvalid (Nat.mul_le_mul_left 8 hroom) (by omega)
  rw [exec_lzDec s hcfg hlen, hloop, finish_none]
  simp [decodeStart, setEnd, setBitpos, emptyOut]

/-- What `LZ.ENC` left in the output stream is decoded to its input, by `BUF.XFER` and `LZ.DEC`, in any state with that output and
the same configuration and capacities (R167). -/
theorem lzDec_inverts {s t u : State} {ts : List Token} (hcaps : CapsOK s) (hcfg : CfgOK s) (henc : LzEncoded s t ts)
    (hsetup : SameSetup s u) (herr : u.err = false) (hout : u.ostr = t.ostr) (hfit : u.olen ≤ u.ibufCap)
    (hroom : s.inLen.toNat ≤ s.obufCap) :
    ∃ v, afterAll [.bufXfer, .lzDec] u = some v ∧ v.ostr = byteStream (inputBytes s) := by
  have hstream : u.ostr = padded (encTokens u.minm.toNat ts) := by
    rw [hout, henc.state, hsetup.minm]
  have haligned : u.obits % 8 = 0 := by rw [State.obits, hstream, padded_mod]
  have hcapsu := hsetup.capsOK hcaps
  obtain ⟨hspells, hlen⟩ := spells_moveOutput haligned (olen_lt hcapsu hfit)
  rw [hstream] at hspells hlen
  have hdec := exec_lzDec_of_tokens (s := moveOutput u) (ts := ts) hcapsu (hsetup.cfgOK hcfg) (moveOutput_lenOK hcapsu hfit)
    (by have := henc.valid; rwa [← hsetup.minm] at this) hspells hlen.symm
    (by rw [henc.bytes, inputBytes_length]; exact hroom.trans_eq hsetup.obufCap.symm)
  refine ⟨_, afterAll_cons.mpr ⟨_, exec_bufXfer hfit, herr, afterAll_cons.mpr ⟨_, hdec, herr, rfl⟩⟩, ?_⟩
  rw [henc.bytes]

/-! ### The codebook and `HF.ENC` -/

/-- No code of a held tree begins another (R234). -/
theorem prefixFree_setCodebook_treeCodes {s : State} (hT : TreeOK s) (hv : s.tvalid = true) (u : State) :
    PrefixFree (code (setCodebook (treeCodes s) u)) := by
  obtain ⟨freq, hF⟩ := hT.built hv
  intro x y c d hne hx hy
  rw [code_treeCodes hT hF] at hx hy
  exact prefixFree_of_pairwise (treeCodes_codesOf hT hF).free hx hy hne

theorem exec_hfBuild (s : State) : exec .hfBuild s = .next (setTree (buildTree s.freq) s) := rfl

/-- `HF.COUNT`, `HF.BUILD` and `HF.DERIVE` leave a codebook in which no code begins another, and the input as it
was (R211, R215, R233, R234). -/
theorem derive_ok {s t : State} (h : afterAll [.hfCount, .hfBuild, .hfDerive] s = some t) :
    PrefixFree (code t) ∧ t.inLen = s.inLen ∧ ibufAt t = ibufAt s := by
  obtain ⟨a, hcount, ha, h⟩ := afterAll_cons.mp h
  obtain ⟨b, hbuild, hb, h⟩ := afterAll_cons.mp h
  obtain ⟨c, hderive, -, h⟩ := afterAll_cons.mp h
  obtain ⟨-, hcount⟩ := checkLen_eq_ok (complete_eq_next ha hcount)
  cases (exec_hfBuild a).symm.trans hbuild
  cases (exec_hfDerive (s := setTree (buildTree a.freq) a) rfl).symm.trans hderive
  cases h
  have hfree := prefixFree_setCodebook_treeCodes (setTree_treeOK a) rfl (setTree (buildTree a.freq) a)
  cases hcount
  exact ⟨hfree, rfl, rfl⟩

/-- Where the loop of `HF.ENC` has come: some number of input bytes, each with a code, is encoded, and fits (R243). -/
def SymbolsEncoded (s a : State) : Prop :=
  ∃ k c, a = encodedTo s k c ∧ k ≤ s.inLen.toNat ∧ encSymbols (code s) ((inputBytes s).take k) = some c ∧
    c.length ≤ 8 * s.obufCap

theorem encodedTo_pos {s : State} {k : Nat} (hk : k ≤ s.inLen.toNat) (c : BitStr) : (encodedTo s k c).pos.toNat = k :=
  toNat_ofNat32 (n := k) (by have := s.inLen.isLt; omega)

theorem SymbolsEncoded.step {s a b : State} (h : SymbolsEncoded s a) (hrun : atInputEnd a = false)
    (hu : encodeSymbol a = .ok b) : SymbolsEncoded s b := by
  obtain ⟨k, c, rfl, hk, henc, -⟩ := h
  have hpos := encodedTo_pos hk c
  have hlt : k < s.inLen.toNat := hpos ▸ atInputEnd_false.mp hrun
  obtain ⟨d, hd, hroom, rfl⟩ := encodeSymbol_ok hu
  rw [hpos] at hd ⊢
  refine ⟨k + 1, c ++ d, rfl, hlt, ?_, by rw [List.length_append]; exact hroom⟩
  have hd : code s (ibufAt s k) = some d := hd
  rw [inputBytes_take_succ s k hlt, encSymbols_snoc, henc, hd]
  rfl

/-- `HF.ENC` that leaves no fault recorded has encoded every input byte within the output buffer (R243). -/
theorem hfEnc_ok {s t : State} (ht : t.err = false) (h : exec .hfEnc s = .next t) :
    ∃ c, encSymbols (code s) (inputBytes s) = some c ∧ c.length ≤ 8 * s.obufCap ∧ t = { s with
      ostr := padded c, pbits := BitVec.ofNat 32 c.length, pos := s.inLen, endFlag := true } := by
  obtain ⟨hlen, hk⟩ := checkLen_eq_ok (complete_eq_next ht h)
  obtain ⟨-, hk⟩ := checkCodebook_eq_ok hk
  have hkeep := iterate_keeps (done := atInputEnd) (unit := encodeSymbol) (SymbolsEncoded s)
    (fun _ _ ha hrun hu => ha.step hrun hu) s.inLen.toNat (encodeStart s) ⟨0, [], rfl, Nat.zero_le _, rfl, Nat.zero_le _⟩
  have hdone := iterate_done (done := atInputEnd) (unit := encodeSymbol) (fun a => s.inLen.toNat - a.pos.toNat)
    (fun a => a.inLen = s.inLen) (encodeSymbol_measure s) (encodeSymbol_zero s) s.inLen.toNat (encodeStart s)
  generalize iterate atInputEnd encodeSymbol s.inLen.toNat (encodeStart s) = loop at *
  obtain ⟨a, raised⟩ := loop
  have hk := Except.ok.inj hk
  cases raised with
  | some r =>
    rw [finish_some] at hk
    rw [← hk] at ht
    cases ht
  | none =>
    obtain ⟨k, c, rfl, hk', henc, hfits⟩ := hkeep
    have hend := hdone _ rfl (Nat.sub_le _ _) rfl
    have hkN : k = s.inLen.toNat := by
      simp only [atInputEnd, decide_eq_true_eq, encodedTo_pos hk' c] at hend
      exact le_antisymm hk' hend
    subst hkN
    rw [List.take_of_length_le (inputBytes_length s).le] at henc
    refine ⟨c, henc, hfits, ?_⟩
    rw [← hk, finish_none]
    simp [encodeEnd, encodedTo, flushOut, setEnd, padded, State.obits]

/-! ### `HF.DEC` -/

/-- Every code has a bit at least (R119). -/
theorem length_le_encSymbols {s : State} {w : List Byte} {c : BitStr} (h : encSymbols (code s) w = some c) :
    w.length ≤ c.length := by
  induction w generalizing c with
  | nil => simp
  | cons x w ih =>
    simp only [encSymbols, Option.bind_eq_some_iff, Option.map_eq_some_iff] at h
    obtain ⟨d, hd, e, he, rfl⟩ := h
    have := (code_length hd).2.1
    have := ih he
    simp only [List.length_cons, List.length_append]
    omega

/-- `HF.DEC` on a payload that is the codes of `w` gives `w`, if no code begins another (R246). -/
theorem exec_hfDec_of_codes {s : State} {w : List Byte} {c : BitStr} (hlen : LenOK s) (hfree : PrefixFree (code s))
    (henc : encSymbols (code s) w = some c) (hinput : Spells s 0 c) (hpayload : s.pbits.toNat = c.length)
    (hroom : w.length ≤ s.obufCap) :
    exec .hfDec s = .next { s with
      ostr := byteStream w, bitpos := s.pbits, tKind := .none, tByte := 0, tDist := 0, tLen := 0, endFlag := true } := by
  have hcount := length_le_encSymbols henc
  have hinside : 0 + c.length ≤ 8 * s.inLen.toNat := hinput.1
  have hloop := iterate_decodeSymbol (cb := codebook s) w (decodeStart s) [] c (s.pbits.toNat + 1) rfl hfree rfl rfl henc
    (hinput.congr rfl fun _ => rfl) ((Nat.zero_add _).trans hpayload.symm) ((Nat.zero_add _).trans_le hroom) (by omega)
  rw [exec_hfDec s hlen (by omega) (cbOK_of_prefixFree hfree), hloop, finish_none]
  simp [decodeStart, setEnd, setBitpos, emptyOut]

/-- The Huffman pipeline and its inverse (R248): what it encoded, `BUF.XFER` and `HF.DEC` decode to its input. -/
theorem hfDec_inverts {s t : State} (hcaps : CapsOK s) (herr : s.err = false)
    (h : afterAll [.hfCount, .hfBuild, .hfDerive, .hfEnc] s = some t) (hfit : t.olen ≤ t.ibufCap)
    (hroom : s.inLen.toNat ≤ s.obufCap) :
    ∃ u, afterAll [.bufXfer, .hfDec] t = some u ∧ u.ostr = byteStream (inputBytes s) := by
  have hsetup := afterAll_sameSetup (by decide) h
  have hterr := afterAll_err herr h
  have hcapst := hsetup.capsOK hcaps
  obtain ⟨a, hderive, h⟩ := (afterAll_append (is := [.hfCount, .hfBuild, .hfDerive])).mp h
  obtain ⟨b, hexec, hberr, h⟩ := afterAll_cons.mp h
  obtain ⟨hfree, hinLen, hread⟩ := derive_ok hderive
  obtain ⟨c, hcodes, hfits, ht⟩ := hfEnc_ok hberr hexec
  cases h
  have hinput : inputBytes a = inputBytes s := by rw [inputBytes, inputBytes, hinLen, hread]
  rw [hinput] at hcodes
  have hstream : t.ostr = padded c := by rw [ht]
  have haligned : t.obits % 8 = 0 := by rw [State.obits, hstream, padded_mod]
  obtain ⟨hspells, -⟩ := spells_moveOutput haligned (olen_lt hcapst hfit)
  have hcode : code (moveOutput t) = code a := by rw [ht]; rfl
  have hcap : t.obufCap = a.obufCap := by rw [ht]
  have hpayload : (moveOutput t).pbits.toNat = c.length := by
    have hp : (moveOutput t).pbits = BitVec.ofNat 32 c.length := by rw [ht]; rfl
    rw [hp]
    exact toNat_ofNat32 (by have := hcapst.2.2.2; omega)
  have hdec := exec_hfDec_of_codes (moveOutput_lenOK hcapst hfit) (hcode ▸ hfree) (hcode ▸ hcodes)
    (hspells.of_prefix (hstream ▸ List.prefix_append c _)) hpayload
    (by rw [inputBytes_length]; exact hroom.trans_eq hsetup.obufCap.symm)
  exact ⟨_, afterAll_cons.mpr ⟨_, exec_bufXfer hfit, hterr, afterAll_cons.mpr ⟨_, hdec, hterr, rfl⟩⟩, rfl⟩

/-! ### The obligation -/

/-- Settles O55: the Huffman decoder gives back what `LZ.ENC` left in the output stream, and from that the LZSS decoder its
input. -/
theorem chainedRoundTrip : Obligations.ChainedRoundTrip := by
  intro s t hcaps herr h hfit hroom
  obtain ⟨b, hlz, hhf⟩ := (afterAll_append (is := [.lzEnc, .bufXfer])).mp h
  have hsb := afterAll_sameSetup (by decide) hlz
  have hst := afterAll_sameSetup (by decide) h
  obtain ⟨a, hexec, haerr, hxfer⟩ := afterAll_cons.mp hlz
  have hsa := afterAll_sameSetup (is := [.lzEnc]) (by decide) (afterAll_cons.mpr ⟨a, hexec, haerr, rfl⟩)
  obtain ⟨hcfg, -, ts, henc, hout⟩ := lzEnc_ok haerr hexec
  obtain ⟨m, hxfer, hberr, hm⟩ := afterAll_cons.mp hxfer
  cases hm
  obtain ⟨hafit, rfl⟩ := bufXfer_ok hberr hxfer
  have haolen := olen_lt (hsa.capsOK hcaps) hafit
  have haligned : a.obits % 8 = 0 := by rw [State.obits, henc.state, padded_mod]
  have hmoved : byteStream (inputBytes (moveOutput a)) = a.ostr := by
    rw [inputBytes_moveOutput haolen, ← ostr_eq_byteStream haligned]
  have haroom : (moveOutput a).inLen.toNat ≤ (moveOutput a).obufCap := by
    rw [moveOutput_inLen_toNat haolen, hsb.obufCap, State.olen, State.obits, ceil8]
    omega
  obtain ⟨g, hg, hgout⟩ := hfDec_inverts (hsb.capsOK hcaps) hberr hhf (hfit.trans_eq hst.ibufCap.symm) haroom
  rw [hmoved] at hgout
  have hgerr := afterAll_err (afterAll_err herr h) hg
  have hsg := hst.trans (afterAll_sameSetup (by decide) hg)
  have hgfit : g.olen ≤ g.ibufCap := by
    rw [hsg.ibufCap, ← hsa.ibufCap, State.olen, State.obits, hgout]
    exact hafit
  obtain ⟨u, hu, huout⟩ := lzDec_inverts hcaps hcfg henc hsg hgerr hgout hgfit hroom
  exact ⟨u, (afterAll_append (is := [.bufXfer, .hfDec])).mpr ⟨g, hg, hu⟩, afterAll_err hgerr hu,
    (olen_byteStream huout).trans (inputBytes_length s), outBytes_byteStream huout⟩

end Sys2Proof.Machine
end

section
/-! PROOF. The match finder family: what `LZ.FIND` reports (R148), that it fits the token fields (R147), that the search reads the
window and the lookahead only (R150), and that the two scans of R149 compute it. -/

namespace Sys2Proof.Machine

/-! ### `LZ.FIND` -/

theorem exec_lzFind_of_not_cfgOK {s : State} (h : ¬ CfgOK s) : exec .lzFind s = .next (faulted 0x02 0 s) := by
  show execLzFind s = _
  rw [execLzFind, checkCfg_fail h]
  rfl

theorem exec_lzFind_of_not_lenOK {s : State} (hcfg : CfgOK s) (h : ¬ LenOK s) :
    exec .lzFind s = .next (faulted 0x03 s.inLen s) := by
  show execLzFind s = _
  rw [execLzFind, checkCfg_pass hcfg, checkLen_fail h]
  rfl

/-- Settles O27: by the checks in their order, then by the search, which answers the best match or none. -/
theorem findsLongestNearest : Obligations.FindsLongestNearest := by
  intro s
  refine ⟨exec_lzFind_of_not_cfgOK, exec_lzFind_of_not_lenOK, fun hcfg hlen => ?_⟩
  have hmin : 1 ≤ s.minm.toNat := hcfg.2.2.1
  rw [exec_lzFind hcfg hlen]
  refine ⟨fun d l hbest => ?_, fun hnone => ?_, best_or_none s hmin⟩
  · rw [(findAtPos_eq_some s d l hmin).mpr hbest]
    rfl
  · rw [(findAtPos_eq_none s hmin).mpr hnone]
    rfl

/-! ### The token fields (R147) -/

/-- The bounds R147 gives for a result `(d, L)` at `POS`. -/
def FitsToken (s : State) (d l : Nat) : Prop :=
  1 ≤ d ∧ d ≤ min s.pos.toNat (min s.wsize.toNat 4095) ∧ s.minm.toNat ≤ l ∧
    l ≤ min s.maxm.toNat (s.inLen.toNat - s.pos.toNat) ∧
    min s.maxm.toNat (s.inLen.toNat - s.pos.toNat) ≤ s.minm.toNat + 15

theorem IsBestMatch.fitsToken {s : State} {d l : Nat} (hcfg : CfgOK s) (h : IsBestMatch s d l) : FitsToken s d l := by
  obtain ⟨⟨hd, hpos, hwsize, hfield⟩, ⟨hcap, -⟩, hmin, -⟩ := h
  obtain ⟨-, -, -, -, hspread⟩ := hcfg
  simp only [Config.maxDistField, lookahead] at hfield hcap
  exact ⟨hd, by omega, hmin, hcap, by omega⟩

theorem findAtPos_fitsToken {s : State} {d l : Nat} (hcfg : CfgOK s) (h : findAtPos s = some (d, l)) : FitsToken s d l :=
  ((findAtPos_eq_some s d l hcfg.2.2.1).mp h).fitsToken hcfg

/-- At position 0 no distance fits; at the end, or with fewer than `MINM` bytes left, no length does. -/
theorem not_fitsToken {s : State} {d l : Nat} (hcfg : CfgOK s)
    (h : s.pos = 0 ∨ s.inLen.toNat ≤ s.pos.toNat ∨ s.inLen.toNat < s.pos.toNat + s.minm.toNat) : ¬ FitsToken s d l := by
  rintro ⟨hd, hdist, hmin, hcap, -⟩
  have hminm : 1 ≤ s.minm.toNat := hcfg.2.2.1
  rcases h with hpos | hend | hshort
  · rw [hpos, BitVec.ofNat_eq_ofNat, BitVec.toNat_zero] at hdist
    omega
  · omega
  · omega

/-- A result that fits the fields is what `M_DIST` and `M_LEN` hold as 32-bit registers. -/
theorem FitsToken.setMatch_toNat {s : State} {d l : Nat} (h : FitsToken s d l) :
    (setMatch (some (d, l)) s).mDist.toNat = d ∧ (setMatch (some (d, l)) s).mLen.toNat = l := by
  obtain ⟨-, hdist, -, hcap, -⟩ := h
  have hinLen := s.inLen.isLt
  exact ⟨toNat_ofNat32 (n := d) (by omega), toNat_ofNat32 (n := l) (by omega)⟩

/-- Settles O28: a best match fits, and where R147 says there is none nothing would fit. -/
theorem matchFitsToken : Obligations.MatchFitsToken := by
  intro s hcfg fits noneHere
  have hfits : ∀ d l, findAtPos s = some (d, l) → fits d l := fun d l => findAtPos_fitsToken hcfg
  have hnone : noneHere → findAtPos s = none := fun h =>
    Option.eq_none_iff_forall_ne_some.mpr fun (d, l) hfind => not_fitsToken hcfg h (hfits d l hfind)
  refine ⟨hfits, hnone, fun hlen => ⟨_, exec_lzFind hcfg hlen, ?_⟩⟩
  cases hfind : findAtPos s with
  | none => exact ⟨nofun, fun _ => ⟨rfl, rfl⟩, fun _ => rfl⟩
  | some r =>
    obtain ⟨d, l⟩ := r
    have hfit : FitsToken s d l := hfits d l hfind
    obtain ⟨hdist, hmlen⟩ := hfit.setMatch_toNat
    refine ⟨fun _ => ?_, nofun, fun h => absurd hfit (not_fitsToken hcfg h)⟩
    rw [hdist, hmlen]
    exact hfit

/-! ### The window (R150) -/

/-- The search is determined by `MINM`, the candidates and their match lengths (R146, R147). -/
theorem findAtPos_congr {s t : State} (hmin : 1 ≤ s.minm.toNat) (hminm : t.minm = s.minm)
    (hcand : ∀ d, IsCandidate t d ↔ IsCandidate s d)
    (hmatch : ∀ d l, IsCandidate s d → (IsMatchLen t d l ↔ IsMatchLen s d l)) : findAtPos t = findAtPos s := by
  refine Option.ext fun (d, l) => ?_
  rw [findAtPos_eq_some t d l (hminm ▸ hmin), findAtPos_eq_some s d l hmin, IsBestMatch, IsBestMatch, hminm, hcand]
  refine and_congr_right fun hd => and_congr (hmatch d l hd) (and_congr_right fun _ => ?_)
  refine forall₂_congr fun d' l' => ?_
  rw [hcand]
  exact forall_congr' fun hd' => by rw [hmatch d' l' hd']

/-- The match length of a candidate depends on the bytes from the candidate's position to the end of the lookahead only (R144). -/
theorem isMatchLen_congr {s t : State} {d : Nat} (hpos : t.pos = s.pos) (hcap : lookahead t = lookahead s)
    (hbytes : ∀ i, s.pos.toNat - d ≤ i → i < min (s.pos.toNat + s.maxm.toNat) s.inLen.toNat → ibufAt t i = ibufAt s i)
    (l : Nat) :
    IsMatchLen t d l ↔ IsMatchLen s d l := by
  have hagree : ∀ k ≤ lookahead s, (AgreesFor t d k ↔ AgreesFor s d k) := fun k hk => by
    rw [lookahead] at hk
    rw [AgreesFor, AgreesFor, hpos]
    exact forall₂_congr fun i hi => by rw [hbytes _ (by omega) (by omega), hbytes _ (by omega) (by omega)]
  rw [IsMatchLen, IsMatchLen, hcap]
  exact and_congr_right fun hl => and_congr (hagree l hl) (forall₂_congr fun j hj => by rw [hagree j hj])

/-- Settles O29: the candidates lie in the window, and their runs in the window and the lookahead. -/
theorem findReadsOnlyTheWindow : Obligations.FindReadsOnlyTheWindow := by
  intro s t hcfg hlen hwsize hminm hmaxm hinLen hpos hibufCap hbytes
  have hcfgt : CfgOK t := by rwa [CfgOK, hwsize, hminm, hmaxm]
  have hlent : LenOK t := by rwa [LenOK, hinLen, hibufCap]
  have hcand : ∀ d, IsCandidate t d ↔ IsCandidate s d := fun d => by rw [IsCandidate, IsCandidate, hpos, hwsize]
  have hcap : lookahead t = lookahead s := by rw [lookahead, lookahead, hmaxm, hinLen, hpos]
  have hfind : findAtPos t = findAtPos s := findAtPos_congr hcfg.2.2.1 hminm hcand fun d l hd =>
    isMatchLen_congr hpos hcap (fun i hlow => by
      obtain ⟨-, -, hdw, hdf⟩ := hd
      rw [Config.maxDistField] at hdf
      exact hbytes i (by omega)) l
  exact ⟨_, _, _, exec_lzFind hcfg hlen, hfind ▸ exec_lzFind hcfgt hlent⟩

/-! ### The scans (R149) -/

/-- R146 and R147 over any length function and list of distances: the first distance of the greatest length, if that reaches
`minM`. -/
def firstLongest (len : Nat → Nat) (ds : List Nat) (minM : Nat) : Option (Nat × Nat) :=
  if minM ≤ longest len ds then (ds.find? fun d => len d == longest len ds).map fun d => (d, longest len ds) else none

theorem firstLongest_of_lt {len : Nat → Nat} {ds : List Nat} {minM : Nat} (h : longest len ds < minM) :
    firstLongest len ds minM = none := if_neg (by omega)

theorem firstLongest_of_find? {len : Nat → Nat} {ds : List Nat} {minM d : Nat} (h : minM ≤ longest len ds)
    (hd : ds.find? (fun d => len d == longest len ds) = some d) : firstLongest len ds minM = some (d, longest len ds) := by
  rw [firstLongest, if_pos h, hd]
  rfl

theorem firstLongest_congr {len len' : Nat → Nat} {ds : List Nat} (h : ∀ d ∈ ds, len d = len' d) (minM : Nat) :
    firstLongest len ds minM = firstLongest len' ds minM := by
  have hlong : longest len ds = longest len' ds := List.foldl_ext _ _ _ fun m d hd => by rw [h d hd]
  have hfirst : (ds.find? fun d => len d == longest len' ds) = ds.find? fun d => len' d == longest len' ds :=
    List.find?_congr fun d hd => by rw [h d hd]
  rw [firstLongest, firstLongest, hlong, hfirst]

theorem candidates_eq_range' (p m : Nat) : candidates p m = List.range' 1 (min p m) := by
  rw [List.range'_eq_map_range, candidates]
  exact List.map_congr_left fun d _ => Nat.add_comm d 1

/-- The machine's search in these words, for every `len` that is `mlen` on the candidates. -/
theorem findAtPos_eq_firstLongest {s : State} {len : Nat → Nat} (hlen : ∀ d, IsCandidate s d → IsMatchLen s d (len d)) :
    findAtPos s = firstLongest len (List.range' 1 (min s.pos.toNat (min s.wsize.toNat 4095))) s.minm.toNat :=
  calc findAtPos s
      = firstLongest (mlen (ibufAt s) s.pos.toNat (lookahead s)) (candidates s.pos.toNat (maxd s)) s.minm.toNat := rfl
    _ = firstLongest len (candidates s.pos.toNat (maxd s)) s.minm.toNat :=
        firstLongest_congr (fun d hd => (isMatchLen_iff s d _).mp (hlen d ((isCandidate_iff s d).mpr hd))) _
    _ = _ := by rw [candidates_eq_range']; rfl

/-- The survivor of scan (a) has the greatest length, and it is the start value or the first distance of that length. -/
theorem scanByPosition_spec (len : Nat → Nat) (ds : List Nat) (best : Nat × Nat) :
    let r := scanByPosition len ds best
    r.2 = ds.foldl (fun m d => max m (len d)) best.2 ∧
      (r = best ∨ best.2 < r.2 ∧ ds.find? (fun d => len d == r.2) = some r.1) := by
  induction ds generalizing best with
  | nil => exact ⟨rfl, .inl rfl⟩
  | cons d ds ih =>
    rw [scanByPosition, List.foldl_cons]
    by_cases hlt : best.2 < len d
    · rw [if_pos hlt, max_eq_right hlt.le]
      obtain ⟨hlong, hkept | ⟨hmore, hfirst⟩⟩ := ih (d, len d)
      · exact ⟨hlong, .inr ⟨by rw [hkept]; exact hlt, by rw [hkept]; exact List.find?_cons_of_pos (beq_self_eq_true _)⟩⟩
      · refine ⟨hlong, .inr ⟨hlt.trans hmore, ?_⟩⟩
        rwa [List.find?_cons_of_neg (by simpa using hmore.ne)]
    · rw [if_neg hlt, max_eq_left (not_lt.mp hlt)]
      obtain ⟨hlong, hkept | ⟨hmore, hfirst⟩⟩ := ih best
      · exact ⟨hlong, .inl hkept⟩
      · refine ⟨hlong, .inr ⟨hmore, ?_⟩⟩
        rwa [List.find?_cons_of_neg (by simpa using ((not_lt.mp hlt).trans_lt hmore).ne)]

theorem scanByPosition_eq_firstLongest (len : Nat → Nat) (ds : List Nat) {minM : Nat} (hmin : 1 ≤ minM) :
    (if minM ≤ (scanByPosition len ds (0, 0)).2 then some (scanByPosition len ds (0, 0)) else none) =
      firstLongest len ds minM := by
  obtain ⟨hlong, hr⟩ := scanByPosition_spec len ds (0, 0)
  change _ = longest len ds at hlong
  set r := scanByPosition len ds (0, 0)
  split
  next hle =>
    rcases hr with hkept | ⟨-, hfirst⟩
    · rw [hkept] at hle
      exact absurd hle (by omega)
    · rw [hlong] at hle hfirst
      rw [firstLongest_of_find? hle hfirst, ← hlong]
  next hlt => rw [firstLongest_of_lt (by omega)]

theorem longest_le {len : Nat → Nat} {ds : List Nat} {n : Nat} (h : ∀ d ∈ ds, len d ≤ n) : longest len ds ≤ n := by
  obtain h0 | ⟨d, hd, hlong⟩ := (longest_spec len ds).2
  · omega
  · exact hlong ▸ h d hd

/-- Scan (b) from any bound on the lengths: the first length for which a distance qualifies is the greatest. -/
theorem scanByLength_eq_firstLongest {len : Nat → Nat} {ds : List Nat} {minM n : Nat} (hmin : 1 ≤ minM)
    (h : ∀ d ∈ ds, len d ≤ n) : scanByLength len ds minM n = firstLongest len ds minM := by
  induction n with
  | zero => exact (firstLongest_of_lt (by have := longest_le h; omega)).symm
  | succ l ih =>
    rw [scanByLength]
    split
    next hshort => exact (firstLongest_of_lt (by have := longest_le h; omega)).symm
    next hreach =>
      split
      next d hfirst =>
        have hd : l + 1 ≤ len d := by simpa using List.find?_some hfirst
        have hlong : longest len ds = l + 1 :=
          (longest_le h).antisymm (hd.trans ((longest_spec len ds).1 d (List.mem_of_find?_eq_some hfirst)))
        have hsame : (ds.find? fun d => len d == longest len ds) = ds.find? fun d => l + 1 ≤ len d :=
          List.find?_congr fun x hx => by
            have := h x hx
            rw [hlong, Bool.eq_iff_iff, beq_iff_eq, decide_eq_true_iff]
            omega
        rw [firstLongest_of_find? (by omega) (hsame.trans hfirst), hlong]
      next hnone =>
        refine ih fun d hd => ?_
        have := List.find?_eq_none.mp hnone d hd
        rw [decide_eq_true_iff] at this
        omega

/-- Settles O30: each scan answers the first distance of the greatest length, and so does the search. -/
theorem scansComputeFind : Obligations.ScansComputeFind := by
  intro s len hcfg hlen ds
  have hmin : 1 ≤ s.minm.toNat := hcfg.2.2.1
  have hbound : ∀ d ∈ ds, len d ≤ lookahead s := fun d hd =>
    (hlen d ((isCandidate_iff s d).mpr (by rw [candidates_eq_range']; exact hd))).1
  rw [findAtPos_eq_firstLongest hlen]
  exact ⟨scanByPosition_eq_firstLongest len ds hmin, scanByLength_eq_firstLongest hmin hbound⟩

end Sys2Proof.Machine
end

section
/-! PROOF. The LZSS encoder family: `BS.INIT` and `BS.FLUSH` (R161, R164), the single tokens (R162, R163), one step (R165), the
pipeline as repeated steps (R166), and the round trip (R167). -/

namespace Sys2Proof.Machine

/-! ### The round trip -/

/-- Settles O42: what `LZ.ENC` leaves is the padded encoding of tokens that stand for the input, and `LZ.DEC` inverts it. -/
theorem lzssRoundTrip : Obligations.LzssRoundTrip := by
  intro s t hcaps herr h hfit hroom
  have hsetup : SameSetup s t := afterAll_sameSetup (by decide) h
  have hterr : t.err = false := afterAll_err herr h
  obtain ⟨u, hexec, -, hu⟩ := afterAll_cons.mp h
  cases hu
  obtain ⟨hcfg, -, ts, henc, -⟩ := lzEnc_ok hterr hexec
  obtain ⟨v, hv, hout⟩ :=
    lzDec_inverts hcaps hcfg henc hsetup hterr rfl (hfit.trans_eq hsetup.ibufCap.symm) hroom
  exact ⟨v, hv, afterAll_err hterr hv, (olen_byteStream hout).trans (inputBytes_length s), outBytes_byteStream hout⟩

/-! ### Outcomes that the encoder's commands share -/

section

variable {s : State}

theorem complete_checkCfg_fail (h : ¬ CfgOK s) (k : Except Raise State) :
    complete s (checkCfg s k) = .next (faulted 0x02 0 s) := by
  rw [checkCfg_fail h]
  rfl

theorem complete_checkLen_fail (hcfg : CfgOK s) (h : ¬ LenOK s) (k : Except Raise State) :
    complete s (checkCfg s (checkLen s k)) = .next (faulted 0x03 s.inLen s) := by
  rw [checkCfg_pass hcfg, checkLen_fail h]
  rfl

/-- A token that does not fit is not appended (R90). -/
theorem complete_putUnit_full {c : BitStr} (h : ¬ Room s c.length) :
    complete s (putUnit c s) = .next (faulted 0x05 (BitVec.ofNat 32 s.obits) s) := by
  rw [putUnit_full (not_le.mp h)]
  rfl

end

/-! ### `BS.INIT` and `BS.FLUSH` -/

/-- Settles O31: an empty stream has no byte. -/
theorem initEmptiesOutput : Obligations.InitEmptiesOutput := fun s =>
  ⟨setEnd false (emptyOut s), rfl, rfl, by simp [State.olen, State.obits, ceil8], outByte_of_empty rfl⟩

theorem obits_flushOut (s : State) : (flushOut s).obits = 8 * s.olen := by
  simp [State.obits, State.olen, add_padLen]

/-- The padding bits are the zeros that the unwritten bits already read as (R57, R164). -/
theorem outByte_flushOut (s : State) (k : Nat) : outByte (flushOut s) k = outByte s k := by
  refine byte_ext fun j hj => ?_
  rw [outByte_getLsbD _ _ _ hj, outByte_getLsbD _ _ _ hj, flushOut_ostr]
  by_cases hin : 8 * k + j < s.ostr.length
  · exact List.getD_append _ _ _ _ hin
  · have hout : s.ostr.length ≤ 8 * k + j := not_lt.mp hin
    rw [List.getD_append_right _ _ _ _ hout, List.getD_eq_default _ _ hout, List.getD_eq_getElem?_getD,
      List.getElem?_getD_replicate_default_eq]

/-- Settles O34: the padding reaches the byte boundary and is read as before. -/
theorem flushPads : Obligations.FlushPads := fun s =>
  ⟨flushOut s, rfl, rfl, by rw [obits_flushOut]; exact Nat.mul_mod_right 8 _,
    by rw [State.olen, obits_flushOut, ceil8_mul8], outByte_flushOut s⟩

/-! ### Single tokens -/

/-- Settles O32: the nine bits of the token fit, or do not. -/
theorem putsLiteral : Obligations.PutsLiteral := fun b s =>
  ⟨fun hroom => exec_lzPutl hroom b, fun hfull => complete_putUnit_full (by rwa [literalToken_length]), by omega, by omega⟩

theorem tokenInRange_iff (m d l : Nat) : tokenInRange m d l = true ↔ 1 ≤ d ∧ d ≤ 4095 ∧ m ≤ l ∧ l ≤ m + 15 := by
  simp only [tokenInRange, Bool.and_eq_true, decide_eq_true_iff, and_assoc]
  rfl

theorem exec_lzPutm_of_cfgOK {s : State} (hcfg : CfgOK s) : exec .lzPutm s = complete s (
    if tokenInRange s.minm.toNat s.mDist.toNat s.mLen.toNat then
      putUnit (matchToken s.minm.toNat s.mDist.toNat s.mLen.toNat) s
    else .error (.tokenRange, 0)) := by
  show execLzPutm s = _
  rw [execLzPutm, checkCfg_pass hcfg]

/-- Settles O33: by the three checks in their order. -/
theorem putsMatch : Obligations.PutsMatch := by
  intro s d l fits
  have hfits : tokenInRange s.minm.toNat d l = true ↔ fits := tokenInRange_iff _ _ _
  refine ⟨fun h => complete_checkCfg_fail h _, fun hcfg h => ?_, fun hcfg h hfull => ?_,
    fun hcfg h hroom => exec_lzPutm hcfg hroom (hfits.mpr h)⟩
  · rw [exec_lzPutm_of_cfgOK hcfg, if_neg (hfits.not.mpr h)]
    rfl
  · rw [exec_lzPutm_of_cfgOK hcfg, if_pos (hfits.mpr h)]
    exact complete_putUnit_full (by rwa [matchToken_length])

/-! ### `LZ.STEP` -/

theorem exec_lzStep {s : State} (hcfg : CfgOK s) (hlen : LenOK s) :
    exec .lzStep s = complete s (if atInputEnd s then .ok (setEnd true s) else encodeToken s) := by
  show execLzStep s = _
  rw [execLzStep, checkCfg_pass hcfg, checkLen_pass hlen]

theorem exec_lzStep_of_more {s : State} (hcfg : CfgOK s) (hlen : LenOK s) (hmore : s.pos.toNat < s.inLen.toNat) :
    exec .lzStep s = complete s (encodeToken s) := by
  rw [exec_lzStep hcfg hlen, atInputEnd_false.mpr hmore]
  rfl

/-- Settles O35: by the checks in their order, the terminal condition, and the unit of the encoder. -/
theorem encodesOneToken : Obligations.EncodesOneToken := by
  intro s
  refine ⟨fun h => complete_checkCfg_fail h _, fun hcfg h => complete_checkLen_fail hcfg h _, fun hcfg hlen =>
    ⟨fun hend => ?_, fun t hstep => ⟨?_, hstep.pos_lt hcfg⟩, fun hfull => ?_, encode_total hcfg⟩⟩
  · have hend : atInputEnd s = true := decide_eq_true hend
    rw [exec_lzStep hcfg hlen, if_pos hend]
    rfl
  · rw [exec_lzStep_of_more hcfg hlen hstep.more, hstep.ok hcfg]
    rfl
  · rw [exec_lzStep_of_more hcfg hlen hfull.1, encodeToken_of_full hcfg hfull]
    rfl

/-! ### `LZ.ENC` by steps -/

section

variable {s t : State} (hcfg : CfgOK s) (hlen : LenOK s) (hpath : Relation.ReflTransGen EncodeStep (encodeStart s) t)
include hcfg hpath

/-- No step writes `IN_LEN`. -/
theorem encodeStart_path_inLen : t.inLen = s.inLen := by
  obtain ⟨-, -, hinLen⟩ := encode_path_keeps (s := encodeStart s) hcfg (Nat.zero_le _) hpath
  exact hinLen

include hlen

/-- Steps that reach the end of the input are all of `LZ.ENC` but its end. -/
theorem exec_lzEnc_of_done (hend : s.inLen.toNat ≤ t.pos.toNat) : exec .lzEnc s = .next (encodeEnd t) := by
  have hdone : atInputEnd t = true := by rwa [atInputEnd, decide_eq_true_iff, encodeStart_path_inLen hcfg hpath]
  have hloop := iterate_eq_done (fun a => s.inLen.toNat - a.pos.toNat) (fun a => CfgOK a ∧ a.inLen = s.inLen)
    (encode_measure s) (encode_zero s) (fuel := s.inLen.toNat) (s := encodeStart s) ⟨hcfg, rfl⟩ (Nat.sub_le _ _)
    ((encode_rounds (s := encodeStart s) hcfg).mpr hpath) hdone
  rw [exec_lzEnc s hcfg hlen, hloop, finish_none]

/-- Steps that reach a token without room for it end `LZ.ENC` with its fault there. -/
theorem exec_lzEnc_of_full (hfull : EncodeFull t) :
    exec .lzEnc s = .next (faulted 0x05 (BitVec.ofNat 32 t.obits) t) := by
  obtain ⟨hcfgt, -, -⟩ := encode_path_keeps (s := encodeStart s) hcfg (Nat.zero_le _) hpath
  have hloop := iterate_eq_raised (fun a => s.inLen.toNat - a.pos.toNat) (fun a => CfgOK a ∧ a.inLen = s.inLen)
    (encode_measure s) (encode_zero s) (fuel := s.inLen.toNat) (s := encodeStart s) ⟨hcfg, rfl⟩ (Nat.sub_le _ _)
    ((encode_rounds (s := encodeStart s) hcfg).mpr hpath) (atInputEnd_false.mpr hfull.1) (encodeToken_of_full hcfgt hfull)
  rw [exec_lzEnc s hcfg hlen, hloop]
  rfl

end

theorem EncodeStep.inLen {s t : State} (h : EncodeStep s t) : t.inLen = s.inLen := by
  rw [h.keeps]

/-- Each step moves `POS` on, so steps lead to the end of the input or to a token without room (R166, R169). -/
theorem encode_path_ends {s : State} (hcfg : CfgOK s) :
    ∃ t, Relation.ReflTransGen EncodeStep s t ∧ (t.inLen.toNat ≤ t.pos.toNat ∨ EncodeFull t) := by
  by_cases hmore : s.pos.toNat < s.inLen.toNat
  · rcases encode_total hcfg hmore with ⟨u, hstep⟩ | hfull
    · have hpos := hstep.pos_lt hcfg
      obtain ⟨t, hpath, hend⟩ := encode_path_ends (hstep.cfg hcfg)
      exact ⟨t, hpath.head hstep, hend⟩
    · exact ⟨s, .refl, .inr hfull⟩
  · exact ⟨s, .refl, .inl (not_lt.mp hmore)⟩
termination_by s.inLen.toNat - s.pos.toNat
decreasing_by rw [hstep.inLen]; omega

/-- Settles O36: the loop runs the steps to their one end, and its bound is enough. -/
theorem encodesByRepeatedSteps : Obligations.EncodesByRepeatedSteps := by
  intro s
  refine ⟨fun h => complete_checkCfg_fail h _, fun hcfg h => complete_checkLen_fail hcfg h _, fun hcfg hlen => ?_⟩
  intro start
  refine ⟨fun t => exec_lzEnc_of_done hcfg hlen, fun t hpath hfull =>
    ⟨exec_lzEnc_of_full hcfg hlen hpath hfull, encode_path_running (s := start) rfl hpath⟩, ?_⟩
  obtain ⟨t, hpath, hend⟩ := encode_path_ends (s := start) hcfg
  exact ⟨t, hpath, encodeStart_path_inLen hcfg hpath ▸ hend⟩

end Sys2Proof.Machine
end

section
/-! PROOF. The LZSS decoder family: one step by its checks and its unit (R191 to R196), the pipeline as repeated steps (R197), and
that it inverts the encoding of any acceptable tokens (R199). -/

namespace Sys2Proof.Machine

/-! ### Decoding inverts encoding -/

/-- An input stream known as a whole is spelled from its first bit on. -/
theorem spells_of_inputStream {s : State} {c : BitStr} (h : inputStream s = c) :
    Spells s 0 c ∧ c.length = 8 * s.inLen.toNat := by
  subst h
  have hlen : (inputStream s).length = 8 * s.inLen.toNat := inBits_length s 0 _
  refine ⟨⟨by rw [hlen, Nat.zero_add], fun j hj => ?_⟩, hlen⟩
  simp [inputStream, inBits]

/-- Settles O41: the input spells the padded tokens, which the loop of `LZ.DEC` decodes one by one. -/
theorem decoderInvertsEncoding : Obligations.DecoderInvertsEncoding := by
  intro s ts hcaps hcfg hlen hvalid hinput hroom
  obtain ⟨hspells, hwhole⟩ := spells_of_inputStream hinput
  exact exec_lzDec_of_tokens hcaps hcfg hlen hvalid hspells hwhole hroom

/-! ### `LZ.DSTEP` -/

theorem exec_lzDstep {s : State} (hcfg : CfgOK s) (hlen : LenOK s) :
    exec .lzDstep s = complete s (checkAligned s (decodeToken s)) := by
  show execLzDstep s = _
  rw [execLzDstep, checkCfg_pass hcfg, checkLen_pass hlen]

theorem exec_lzDstep_of_aligned {s : State} (hcfg : CfgOK s) (hlen : LenOK s) (h8 : s.obits % 8 = 0) :
    exec .lzDstep s = complete s (decodeToken s) := by
  rw [exec_lzDstep hcfg hlen, checkAligned_pass h8]

/-- Settles O39: by the three checks in their order, then by the unit of the decoder, which completes or raises. -/
theorem decodesOneToken : Obligations.DecodesOneToken := by
  intro s
  refine ⟨fun h => complete_checkCfg_fail h _, fun hcfg h => complete_checkLen_fail hcfg h _, fun hcfg hlen h8 => ?_,
    fun hcfg hlen h8 => ⟨fun t hstep => ?_, fun n w hfault => ?_, decode_total s⟩⟩
  · rw [exec_lzDstep hcfg hlen, checkAligned_fail h8]
    rfl
  · rw [exec_lzDstep_of_aligned hcfg hlen h8, hstep.ok h8]
    rfl
  · obtain ⟨c, rfl, hraise⟩ := hfault.error
    rw [exec_lzDstep_of_aligned hcfg hlen h8, hraise]
    rfl

/-! ### `LZ.DEC` by steps -/

/-- A token that faults is not the end: its flag and a byte are there (R191, R192). -/
theorem DecodeFault.nine {s : State} {n : BitVec 8} {w : Word} (h : DecodeFault s n w) :
    9 ≤ 8 * s.inLen.toNat - s.bitpos.toNat := by
  cases h <;> omega

/-- The terminal step clears the token registers (R191). -/
theorem AtEnd.tKind {s : State} (h : AtEnd s) (hend : s.endFlag = true) : s.tKind = .none :=
  congrArg State.tKind (h hend).1

/-- At the end no token is left to fault (R192). -/
theorem AtEnd.endFlag_of_fault {s : State} {n : BitVec 8} {w : Word} (h : AtEnd s) (hfault : DecodeFault s n w) :
    s.endFlag = false := by
  refine Bool.eq_false_iff.mpr fun hend => ?_
  obtain ⟨-, few⟩ := h hend
  exact absurd hfault.nine (not_le.mpr few)

/-- What holds all along the loop of `LZ.DEC` on the input of `s`: the input length, and that the output is whole bytes (R197). -/
def Decoding (s a : State) : Prop := a.inLen = s.inLen ∧ a.obits % 8 = 0

theorem decodeStart_path_atEnd {s t : State} (hpath : Relation.ReflTransGen DecodeStep (decodeStart s) t) : AtEnd t := by
  obtain ⟨-, -, hatEnd⟩ := decode_rounds (s := decodeStart s) rfl rfl hpath
  exact hatEnd

section

variable {s : State} (hcaps : CapsOK s) (hlen : LenOK s)

include hcaps hlen in
/-- The bound of the loop is enough for its steps to come to the end or to a fault (R200). -/
theorem decodeStart_path_ends :
    ∃ t, Relation.ReflTransGen DecodeStep (decodeStart s) t ∧ (t.endFlag = true ∨ ∃ n w, DecodeFault t n w) := by
  obtain ⟨hpath, h8⟩ := decode_steps rfl (iterate_path (8 * s.inLen.toNat / 9 + 1) (decodeStart s))
  refine ⟨_, hpath, ?_⟩
  rcases iterate_end decodeFuel (Decoding s) (decode_measure (inLen_le hcaps hlen))
    decode_zero (s := decodeStart s) ⟨rfl, rfl⟩ (decodeFuel_start s).le with ⟨-, hend⟩ | ⟨⟨c, w⟩, -, -, hraise⟩
  · exact .inl hend
  · exact .inr ⟨_, _, (decodeToken_error_iff h8).mp hraise⟩

variable {t : State} (hcfg : CfgOK s) (hpath : Relation.ReflTransGen DecodeStep (decodeStart s) t)
include hcaps hlen hcfg hpath

/-- Steps that reach `END = 1` are all of `LZ.DEC`. -/
theorem exec_lzDec_of_done (hend : t.endFlag = true) : exec .lzDec s = .next t := by
  obtain ⟨hrounds, -, -⟩ := decode_rounds (s := decodeStart s) rfl rfl hpath
  have hloop := iterate_eq_done decodeFuel (Decoding s)
    (decode_measure (inLen_le hcaps hlen)) decode_zero (s := decodeStart s) ⟨rfl, rfl⟩ (decodeFuel_start s).le hrounds hend
  rw [exec_lzDec s hcfg hlen, hloop]
  rfl

/-- Steps that reach a token that faults end `LZ.DEC` with its fault there. -/
theorem exec_lzDec_of_fault {n : BitVec 8} {w : Word} (hfault : DecodeFault t n w) :
    exec .lzDec s = .next (faulted n w t) := by
  obtain ⟨hrounds, -, hatEnd⟩ := decode_rounds (s := decodeStart s) rfl rfl hpath
  obtain ⟨c, rfl, hraise⟩ := hfault.error
  have hloop := iterate_eq_raised decodeFuel (Decoding s)
    (decode_measure (inLen_le hcaps hlen)) decode_zero (s := decodeStart s) ⟨rfl, rfl⟩ (decodeFuel_start s).le hrounds
    (hatEnd.endFlag_of_fault hfault) hraise
  rw [exec_lzDec s hcfg hlen, hloop]
  rfl

end

/-- Settles O40: the loop runs the steps to their one end, and its bound is enough. -/
theorem decodesByRepeatedSteps : Obligations.DecodesByRepeatedSteps := by
  intro s hcaps
  refine ⟨fun h => complete_checkCfg_fail h _, fun hcfg h => complete_checkLen_fail hcfg h _, fun hcfg hlen => ?_⟩
  intro start
  refine ⟨fun t hpath hend => ⟨exec_lzDec_of_done hcaps hlen hcfg hpath hend, ?_⟩,
    fun t n w hpath hfault => ⟨exec_lzDec_of_fault hcaps hlen hcfg hpath hfault, ?_⟩, decodeStart_path_ends hcaps hlen⟩
  · exact (decodeStart_path_atEnd hpath).tKind hend
  · exact (decodeStart_path_atEnd hpath).endFlag_of_fault hfault

end Sys2Proof.Machine
end

section
/-! PROOF. The Huffman tree family: the counts of `HF.COUNT` (R211), the tree that `HF.BUILD` builds (R212 to R216) and the shape
of every held tree (R218). -/

namespace Sys2Proof.Machine

/-! ### `HF.COUNT` -/

theorem countSymbol_eq_count (s : State) (x : Byte) : countSymbol s x = (inputBytes s).count x := by
  rw [countSymbol, inputBytes, List.count, List.countP_map]
  rfl

/-- A count is at most `IN_LEN`, so it fits in a frequency entry. -/
theorem countSymbol_lt (s : State) (x : Byte) : countSymbol s x < 2 ^ 32 := by
  have hle : (inputBytes s).count x ≤ s.inLen.toNat := List.count_le_length.trans_eq (inputBytes_length s)
  rw [countSymbol_eq_count]
  exact hle.trans_lt s.inLen.isLt

/-- The table that `HF.COUNT` writes (R211). -/
def countTable (s : State) : Table Word := Table.tabulate fun x => BitVec.ofNat 32 (countSymbol s x)

theorem countTable_toNat (s : State) (x : Byte) : (Table.get (countTable s) x).toNat = (inputBytes s).count x := by
  rw [countTable, Table.get_tabulate, BitVec.toNat_ofNat, Nat.mod_eq_of_lt (countSymbol_lt s x), countSymbol_eq_count]

theorem sum_count_range {l : List Nat} {n : Nat} (h : ∀ a ∈ l, a < n) :
    ((List.range n).map fun x => l.count x).sum = l.length := by
  have hmem : ∀ a ∈ (l : Multiset Nat), a ∈ (List.range n).toFinset := by simpa using h
  rw [← List.sum_toFinset _ List.nodup_range]
  simpa only [Multiset.coe_count, Multiset.coe_card] using Multiset.sum_count_eq_card hmem

/-- Every byte of a list is counted once among the 256 symbols. -/
theorem sum_count_symbols (l : List Byte) : ((List.range 256).map fun x => l.count (BitVec.ofNat 8 x)).sum = l.length := by
  have hcount : ∀ x ∈ List.range 256, l.count (BitVec.ofNat 8 x) = (l.map BitVec.toNat).count x := by
    intro x hx
    have hx : (BitVec.ofNat 8 x).toNat = x := Nat.mod_eq_of_lt (List.mem_range.mp hx)
    rw [← List.count_map_of_injective l BitVec.toNat (fun _ _ => BitVec.eq_of_toNat_eq), hx]
  have hbytes : ∀ a ∈ l.map BitVec.toNat, a < 256 := by simpa using fun b _ => BitVec.isLt b
  rw [List.map_congr_left hcount, sum_count_range hbytes, List.length_map]

theorem exec_hfCount {s : State} (hlen : LenOK s) : exec .hfCount s = .next (setFreq (countTable s) s) := by
  show execHfCount s = _
  rw [execHfCount, checkLen_pass hlen]
  rfl

theorem exec_hfCount_of_not_lenOK {s : State} (h : ¬ LenOK s) : exec .hfCount s = .next (faulted 0x03 s.inLen s) := by
  show execHfCount s = _
  rw [execHfCount, checkLen_fail h]
  rfl

/-- Settles O43: an entry is a count, which fits in its word, and each input byte is counted once. -/
theorem countsSymbols : Obligations.CountsSymbols := by
  refine fun s => ⟨fun hlen => ⟨_, exec_hfCount hlen, rfl, countTable_toNat s, ?_⟩, exec_hfCount_of_not_lenOK⟩
  simp only [setFreq_freq, countTable_toNat]
  rw [sum_count_symbols, inputBytes_length]

/-! ### `HF.BUILD` -/

theorem buildTree_length_le (freq : Table Word) : (buildTree freq).length ≤ 511 := by
  have hlength := (buildTree_built freq).length
  have hfew := leafList_length_le freq
  omega

theorem setTree_root_eq (ns : List Node) (s : State) :
    (setTree ns s).root = if ns = [] then 511 else BitVec.ofNat 9 (ns.length - 1) := by
  cases ns <;> rfl

/-- Settles O44: the tree built is the declared one, and it is stored with its registers. -/
theorem buildsHuffmanTree : Obligations.BuildsHuffmanTree := by
  refine fun s => ⟨buildTree s.freq, buildTree_isHuffTree s.freq, ?_, buildTree_length_le s.freq⟩
  rw [exec_hfBuild, ← setTree_root_eq _ s]
  rfl

/-! ### The shape of a tree (R218) -/

theorem ComesBefore.nfreqOf_le {ns : List Node} {a b : Nat} (h : ComesBefore ns a b) : nfreqOf ns a ≤ nfreqOf ns b :=
  h.elim le_of_lt fun ⟨heq, _⟩ => heq.le

/-- A member of the queue was one ever since its node was made. -/
theorem InQueue.of_le {ns : List Node} {j k n : Nat} (h : InQueue ns k n) (hn : n < j) (hj : j ≤ k) : InQueue ns j n :=
  ⟨hn, fun i hi => h.2 i (hi.trans_le hj)⟩

theorem nfreqOf_internal {ns : List Node} {n : Nat} {f : Freq40} {l r : NodeNum} (h : ns[n]? = some (Node.internal f l r)) :
    nfreqOf ns n = f.toNat := by
  rw [nfreqOf, List.getD_eq_getElem?_getD, h]
  rfl

theorem IsMerge.internal {ns : List Node} {k : Nat} (h : IsMerge ns k) :
    ∃ (f : Freq40) (l r : NodeNum), ns[k]? = some (Node.internal f l r) := by
  obtain ⟨a, b, f, hnode, -⟩ := h
  exact ⟨f, _, _, hnode⟩

section

variable {freq : Table Word} {ns : List Node} (hB : Built freq ns)
include hB

/-- Being a child takes a node out of the queue, and a later parent would have to find it there. -/
theorem Built.not_lt_of_common_child {n j k : Nat} {f g : Freq40} {l r l' r' : NodeNum} (hj : ns[j]? = some (Node.internal f l r))
    (hk : ns[k]? = some (Node.internal g l' r')) (hnj : l.toNat = n ∨ r.toNat = n) (hnk : l'.toNat = n ∨ r'.toNat = n) :
    ¬ j < k := by
  intro hlt
  obtain ⟨-, hleft, hright, -⟩ := hB.fields hk
  have hqueue : InQueue ns k n := by
    rcases hnk with rfl | rfl
    · exact hleft
    · exact hright
  obtain ⟨hl, hr⟩ := hqueue.2 j hlt f l r hj
  exact hnj.elim hl hr

/-- Every node but the last has a parent, as only the last one is in the queue at the end. -/
theorem Built.parent_exists {n : Nat} (hn : n < ns.length) (hlast : n + 1 ≠ ns.length) :
    ∃ (k : Nat) (f : Freq40) (l r : NodeNum), ns[k]? = some (Node.internal f l r) ∧ (l.toNat = n ∨ r.toNat = n) := by
  by_contra hno
  refine hlast (hB.last n ⟨hn, fun j _ f l r hj => ⟨fun hl => hno ?_, fun hr => hno ?_⟩⟩)
  · exact ⟨j, f, l, r, hj, .inl hl⟩
  · exact ⟨j, f, l, r, hj, .inr hr⟩

theorem Built.nfreqOf_eq_sum {n : Nat} {f : Freq40} {l r : NodeNum} (hn : ns[n]? = some (Node.internal f l r)) :
    nfreqOf ns n = nfreqOf ns l.toNat + nfreqOf ns r.toNat := by
  obtain ⟨hsum, -⟩ := hB.fields hn
  rw [nfreqOf_internal hn, hsum]

/-- A node still in the queue after merge `k`, other than the new one, was passed over for both children. -/
theorem Built.children_le_queued {k n : Nat} {f : Freq40} {l r : NodeNum} (hk : ns[k]? = some (Node.internal f l r))
    (hn : InQueue ns (k + 1) n) (hne : n ≠ k) : nfreqOf ns l.toNat ≤ nfreqOf ns n ∧ nfreqOf ns r.toNat ≤ nfreqOf ns n := by
  obtain ⟨-, -, -, -, hfirst, hsecond⟩ := hB.fields hk
  obtain ⟨hl, hr⟩ := hn.2 k k.lt_succ_self f l r hk
  have hqueue : InQueue ns k n := hn.of_le (lt_of_le_of_ne (Nat.le_of_lt_succ hn.1) hne) k.le_succ
  exact ⟨(hfirst n hqueue hl.symm).nfreqOf_le, (hsecond n hqueue hl.symm hr.symm).nfreqOf_le⟩

/-- The node made after `k` has `k` for a child, or two nodes that `k` passed over for its own children. -/
theorem Built.nfreqOf_le_succ {k : Nat} (hleaves : (leafList freq).length ≤ k) (hk : k + 1 < ns.length) :
    nfreqOf ns k ≤ nfreqOf ns (k + 1) := by
  obtain ⟨f, l, r, hnode⟩ := (hB.merged k hleaves (by omega)).internal
  obtain ⟨g, l', r', hnext⟩ := (hB.merged (k + 1) (by omega) hk).internal
  obtain ⟨-, hleft, hright, -⟩ := hB.fields hnext
  rw [hB.nfreqOf_eq_sum hnext]
  by_cases hl : l'.toNat = k
  · exact hl ▸ Nat.le_add_right _ _
  · by_cases hr : r'.toNat = k
    · exact hr ▸ Nat.le_add_left _ _
    · rw [hB.nfreqOf_eq_sum hnode]
      exact Nat.add_le_add (hB.children_le_queued hnode hleft hl).1 (hB.children_le_queued hnode hright hr).2

theorem Built.nfreqOf_mono {j k : Nat} (hleaves : (leafList freq).length ≤ j) (hjk : j ≤ k) (hk : k < ns.length) :
    nfreqOf ns j ≤ nfreqOf ns k := by
  induction k, hjk using Nat.le_induction with
  | base => exact le_rfl
  | succ k hjk ih => exact (ih (by omega)).trans (hB.nfreqOf_le_succ (hleaves.trans hjk) hk)

/-- The last node is over all leaves. -/
theorem Built.nfreqOf_last (hne : ns ≠ []) :
    nfreqOf ns (ns.length - 1) = ((List.range 256).map fun x => (Table.get freq (BitVec.ofNat 8 x)).toNat).sum := by
  obtain ⟨t, -, hperm, hweight⟩ := hB.tree hne
  rw [hweight, HTree.weight, weight_perm hperm, leafList_total]

end

theorem TreeOK.root_of_ne_nil {s : State} (hT : TreeOK s) (hne : s.nodes ≠ []) : s.root.toNat = s.nodes.length - 1 := by
  rw [hT.rootIs, if_neg hne]

/-- A held tree is a tree that `HF.BUILD` built, so it has the shape of one. -/
theorem TreeOK.isTreeShaped {s : State} (hT : TreeOK s) (hv : s.tvalid = true) (hne : s.nodes ≠ []) : IsTreeShaped s := by
  obtain ⟨freq, hF⟩ := hT.built hv
  have hB := hF.built
  have hroot : s.root.toNat + 1 = s.nodes.length := by
    rw [hT.root_of_ne_nil hne, Nat.sub_add_cancel (List.length_pos_iff.mpr hne)]
  refine ⟨fun n f l r hn => ?children, fun n hn hnr => ?parent, fun j k f g l r l' r' hjk hj hk => ?rising, hroot,
    fun n c hp => (hp.depth hB hroot).2⟩
  case children =>
    obtain ⟨hl, hr⟩ := hB.lower n f l r hn
    obtain ⟨-, -, -, hlr, -⟩ := hB.fields hn
    exact ⟨hl, hr, fun h => hlr (congrArg _ h)⟩
  case parent =>
    obtain ⟨k, f, l, r, hk, hchild⟩ := hB.parent_exists hn (by omega)
    refine ⟨k, ⟨f, l, r, hk, hchild⟩, fun j ⟨g, l', r', hj, hchild'⟩ => ?_⟩
    exact le_antisymm (not_lt.mp (hB.not_lt_of_common_child hk hj hchild hchild'))
      (not_lt.mp (hB.not_lt_of_common_child hj hk hchild' hchild))
  case rising =>
    obtain ⟨-, hleaves, -⟩ := hB.merge_of_internal hj
    obtain ⟨hlt, -, -⟩ := hB.merge_of_internal hk
    rw [← nfreqOf_internal hj, ← nfreqOf_internal hk]
    exact hB.nfreqOf_mono hleaves hjk hlt

/-- Settles O45: a tree that `HF.BUILD` leaves is a held tree, and its last node is over all leaves. -/
theorem treeShape : Obligations.TreeShape := by
  refine ⟨fun s t hbuild hne => ?_, fun s => TreeOK.isTreeShaped⟩
  cases (exec_hfBuild s).symm.trans hbuild
  have hT := setTree_treeOK s
  refine ⟨hT.isTreeShaped rfl hne, ?_⟩
  rw [hT.root_of_ne_nil hne]
  exact (buildTree_built s.freq).nfreqOf_last hne

end Sys2Proof.Machine
end

section
/-! PROOF. The Huffman codebook family: the codebook that `HF.DERIVE` writes from the held tree (R231 to R235) and what it is
after `HF.BUILD` (R234). -/

namespace Sys2Proof.Machine

/-! ### The entries of a list of codes (R119, R233) -/

theorem lookup_eq_none_of_no_code {l : List (Byte × BitStr)} {x : Byte} (h : ∀ c, (x, c) ∉ l) : l.lookup x = none :=
  List.lookup_eq_none_iff.mpr fun e he => bne_iff_ne.mpr fun hx => h e.2 (hx ▸ he)

section

variable {l : List (Byte × BitStr)} {x : Byte}

theorem codebookLengths_of_no_code (h : ∀ c, (x, c) ∉ l) : Table.get (codebookLengths l) x = 0 := by
  rw [codebookLengths, Table.get_tabulate, lookup_eq_none_of_no_code h]

theorem codebookWords_of_no_code (h : ∀ c, (x, c) ∉ l) : Table.get (codebookWords l) x = 0 := by
  rw [codebookWords, Table.get_tabulate, lookup_eq_none_of_no_code h]

variable {c : BitStr} (hnodup : (l.map (·.1)).Nodup) (hmem : (x, c) ∈ l) (hlen : c.length ≤ 255)
include hnodup hmem hlen

theorem codebookLengths_toNat : (Table.get (codebookLengths l) x).toNat = c.length := by
  rw [codebookLengths, Table.get_tabulate, (lookup_eq_some_of_mem hnodup).mpr hmem]
  exact Nat.mod_eq_of_lt (Nat.lt_succ_of_le hlen)

/-- A code of at most 255 bits has a value that fits in its entry. -/
theorem codebookWords_toNat : (Table.get (codebookWords l) x).toNat = val c := by
  have hfits : val c < 2 ^ 256 := (val_lt c).trans_le (Nat.pow_le_pow_right two_pos (by omega))
  rw [codebookWords, Table.get_tabulate, (lookup_eq_some_of_mem hnodup).mpr hmem]
  exact Nat.mod_eq_of_lt hfits

end

/-! ### `HF.DERIVE` -/

theorem exec_hfDerive_of_no_tree {s : State} (hv : s.tvalid = false) : exec .hfDerive s = .next (faulted 0x20 0 s) := by
  show execHfDerive s = _
  rw [execHfDerive, if_neg (by simp [hv])]
  rfl

/-- The code of a symbol after `HF.DERIVE`: discarding the tree leaves the codebook (R235). -/
theorem code_derived {s : State} {freq : Table Word} (hT : TreeOK s) (hF : IsHuffTree freq s.nodes) (x : Byte) (c : BitStr) :
    code (discardTree (setCodebook (treeCodes s) s)) x = some c ↔ (x, c) ∈ treeCodes s :=
  code_treeCodes hT hF s x c

/-- Settles O46: the two tables hold the list of the tree's codes, which is exactly `TreeCode`. -/
theorem derivesCodebook : Obligations.DerivesCodebook := by
  refine fun s hT => ⟨exec_hfDerive_of_no_tree, fun hv => ?_⟩
  obtain ⟨freq, hF⟩ := hT.built hv
  have hcodes := treeCodes_codesOf hT hF
  refine ⟨_, exec_hfDerive hv, rfl, fun x c hc => ?coded, fun x hno => ?absent⟩
  case coded =>
    have hmem := (hcodes.mem x c).mpr hc
    have hlen := (hcodes.lengths _ hmem).2
    exact ⟨codebookLengths_toNat hcodes.nodup hmem hlen, codebookWords_toNat hcodes.nodup hmem hlen,
      (code_derived hT hF x c).mpr hmem⟩
  case absent =>
    have hnone : ∀ c, (x, c) ∉ treeCodes s := fun c hmem => hno c ((hcodes.mem x c).mp hmem)
    exact ⟨codebookLengths_of_no_code hnone, codebookWords_of_no_code hnone⟩

/-! ### The codebook after `HF.BUILD` and `HF.DERIVE` (R234) -/

/-- Of two beginnings of one bit sequence one begins the other, so with a prefix-free code they are one symbol's. -/
theorem PrefixFree.symbol_unique {code : Byte → Option BitStr} (hfree : PrefixFree code) {g : Nat → Bool} {x y : Byte}
    {m n : Nat} (hx : code x = some ((List.range m).map g)) (hy : code y = some ((List.range n).map g)) : x = y := by
  have hprefix : ∀ {i j}, i ≤ j → (List.range i).map g <+: (List.range j).map g := fun hij =>
    (List.prefix_iff_eq_take.mpr (by simp [List.take_range, hij])).map g
  by_contra hne
  rcases le_total m n with hmn | hnm
  · exact hfree x y _ _ hne hx hy (hprefix hmn)
  · exact hfree y x _ _ (Ne.symm hne) hy hx (hprefix hnm)

/-- Settles O47: the tree built is held, so its codes have R234's properties; they are counted by its own table. -/
theorem derivedCodebookIsPrefixFree : Obligations.DerivedCodebookIsPrefixFree := by
  intro s t u hbuild hderive
  cases (exec_hfBuild s).symm.trans hbuild
  cases (exec_hfDerive (s := setTree (buildTree s.freq) s) rfl).symm.trans hderive
  have hT := setTree_treeOK s
  have hF : IsHuffTree s.freq (setTree (buildTree s.freq) s).nodes := buildTree_isHuffTree s.freq
  have hcodes := treeCodes_codesOf hT hF
  have hmem := code_derived hT hF
  have hfree := prefixFree_setCodebook_treeCodes hT rfl (setTree (buildTree s.freq) s)
  refine ⟨hfree, cbOK_of_prefixFree hfree, fun x => ?symbols, fun x c hc => hcodes.lengths _ ((hmem x c).mp hc),
    fun hnodes g => ?complete⟩
  case symbols => simp only [hmem, hcodes.symbols]
  case complete =>
    obtain ⟨⟨x, c⟩, he, hc⟩ := hcodes.complete (hT.count ▸ hnodes) g
    have hx := ((hmem x c).mpr he).trans (congrArg some hc)
    exact ⟨x, ⟨_, hx⟩, fun y ⟨n, hy⟩ => hfree.symbol_unique hy hx⟩

end Sys2Proof.Machine
end

section
/-! PROOF. The Huffman bitstream family: the codes of single symbols (R242), the encoder pipeline (R243), one symbol of the
decoder (R244, R245), the decoder pipeline as repeated steps (R246), and the round trip (R248). -/

namespace Sys2Proof.Machine

/-! ### The round trip -/

/-- Settles O54: no code that `HF.DERIVE` leaves begins another, so `HF.DEC` reads back what `HF.ENC` wrote. -/
theorem huffmanRoundTrip : Obligations.HuffmanRoundTrip := by
  intro s t hcaps herr h hfit hroom
  have hsetup : SameSetup s t := afterAll_sameSetup (by decide) h
  obtain ⟨u, hu, hout⟩ := hfDec_inverts hcaps herr h (hfit.trans_eq hsetup.ibufCap.symm) hroom
  exact ⟨u, hu, afterAll_err (afterAll_err herr h) hu, (olen_byteStream hout).trans (inputBytes_length s),
    outBytes_byteStream hout⟩

/-! ### Checks that fail -/

section

variable {s : State} (k : Except Raise State)

theorem complete_badLen (h : ¬ LenOK s) : complete s (checkLen s k) = .next (faulted 0x03 s.inLen s) := by
  rw [checkLen_fail h]
  rfl

theorem complete_badPbits (hlen : LenOK s) (h : 8 * s.inLen.toNat < s.pbits.toNat) :
    complete s (checkLen s (checkPbits s k)) = .next (faulted 0x25 s.pbits s) := by
  rw [checkLen_pass hlen, checkPbits_fail h]
  rfl

theorem complete_firstDup {a b : Byte} (h : IsFirstDup s a b) : complete s (checkCodebook (codebook s) k) =
    .next (faulted 0x21 (BitVec.ofNat 32 (256 * b.toNat + a.toNat)) s) := by
  rw [checkCodebook_fail h]
  rfl

end

/-! ### Single symbols -/

theorem putSymbol_of_no_code {s : State} {x : Byte} (h : code s x = none) :
    putSymbol x s = .error (.hfMissingKey, BitVec.ofNat 32 x.toNat) := by
  rw [putSymbol, h, BitVec.ofNat_toNat]

theorem putSymbol_of_code {s : State} {x : Byte} {c : BitStr} (h : code s x = some c) : putSymbol x s = putUnit c s := by
  rw [putSymbol, h]

theorem exec_hfPuts {s : State} (hcb : CbOK s) (x : Byte) : exec (.hfPuts x) s = complete s (putSymbol x s) := by
  show execHfPuts x s = _
  rw [execHfPuts, checkCodebook_true hcb]

/-- Settles O50: by the check of the codebook, then whether the symbol has a code, then whether the code fits. -/
theorem putsSymbol : Obligations.PutsSymbol := by
  refine fun x s => ⟨fun a b hdup => complete_firstDup _ hdup, fun hcb hnone => ?_, fun hcb c hc =>
    ⟨fun hroom => ?_, fun hfull => ?_⟩⟩
  · rw [exec_hfPuts hcb, putSymbol_of_no_code hnone]
    rfl
  · rw [exec_hfPuts hcb, putSymbol_of_code hc, putUnit_ok hroom]
    rfl
  · rw [exec_hfPuts hcb, putSymbol_of_code hc]
    exact complete_putUnit_full hfull

/-! ### `HF.ENC` -/

/-- The codes of a byte sequence are as long as the lengths in the codebook say (R119). -/
theorem encSymbols_length {s : State} {w : List Byte} {c : BitStr} (h : encSymbols (code s) w = some c) :
    c.length = (w.map fun b => (Table.get s.cbl b).toNat).sum := by
  induction w generalizing c with
  | nil => simp [← Option.some.inj h]
  | cons x w ih =>
    simp only [encSymbols, Option.bind_eq_some_iff, Option.map_eq_some_iff] at h
    obtain ⟨d, hd, e, he, rfl⟩ := h
    obtain ⟨hlen, -⟩ := code_length hd
    rw [List.length_append, hlen, ih he, List.map_cons, List.sum_cons]

/-- The symbol that the loop of `HF.ENC` encodes after `k` symbols is byte `k` of the input. -/
theorem encodeSymbol_encodedTo {s : State} {k : Nat} (hk : k ≤ s.inLen.toNat) (c : BitStr) :
    encodeSymbol (encodedTo s k c) = (putSymbol (ibufAt s k) (encodedTo s k c)).map (setPos (k + 1)) := by
  rw [encodeSymbol, encodedTo_pos hk]
  rfl

section

variable {s : State} (hlen : LenOK s) (hcb : CbOK s) {c : BitStr}
include hlen hcb

/-- With a code and room for every symbol, the loop runs through and the payload is padded. -/
theorem exec_hfEnc_of_codes (henc : encSymbols (code s) (inputBytes s) = some c) (hroom : c.length ≤ 8 * s.obufCap) :
    exec .hfEnc s = .next { s with
      ostr := padded c, pbits := BitVec.ofNat 32 c.length, pos := s.inLen, endFlag := true } := by
  rw [exec_hfEnc s hlen hcb, iterate_encodeSymbol henc hroom, finish_none]
  simp [encodeEnd, encodedTo, flushOut, setEnd, padded, State.obits]

/-- A symbol that raises ends `HF.ENC` with its fault in the state after the symbols before it. -/
theorem exec_hfEnc_of_raise {k : Nat} {r : Raise} (hk : k < s.inLen.toNat)
    (henc : encSymbols (code s) ((inputBytes s).take k) = some c) (hroom : c.length ≤ 8 * s.obufCap)
    (hraise : putSymbol (ibufAt s k) (encodedTo s k c) = .error r) :
    exec .hfEnc s = .next (raise r (encodedTo s k c)) := by
  have hunit : encodeSymbol (encodedTo s k c) = .error r := by rw [encodeSymbol_encodedTo hk.le, hraise, map_error]
  rw [exec_hfEnc s hlen hcb, iterate_encodeSymbol_raised hk henc hroom hunit, finish_some]

end

/-- Settles O51: the loop encodes symbol after symbol, to the end of the input or to the first symbol that raises. -/
theorem huffmanEncodes : Obligations.HuffmanEncodes := by
  refine fun s => ⟨fun h => complete_badLen _ h, fun hlen a b hdup => ?dup, fun hlen hcb => ⟨fun c henc hroom =>
    ⟨exec_hfEnc_of_codes hlen hcb henc hroom, encSymbols_length henc⟩, fun k c hk henc hroom => ⟨fun hnone => ?missing,
    fun d hd hfull => ?full⟩⟩⟩
  case dup =>
    show complete s (checkLen s _) = _
    rw [checkLen_pass hlen]
    exact complete_firstDup _ hdup
  case missing =>
    exact exec_hfEnc_of_raise hlen hcb hk henc hroom (putSymbol_of_no_code (s := encodedTo s k c) hnone)
  case full =>
    have hraise : putSymbol (ibufAt s k) (encodedTo s k c) = .error (raiseAt .obufFull c.length) :=
      (putSymbol_of_code (s := encodedTo s k c) hd).trans (putUnit_full (s := encodedTo s k c) hfull)
    exact exec_hfEnc_of_raise hlen hcb hk henc hroom hraise

/-! ### `HF.DSYM` -/

section

variable {s : State} (hlen : LenOK s) (hpbits : s.pbits.toNat ≤ 8 * s.inLen.toNat)
include hlen hpbits

theorem exec_hfDsym : exec .hfDsym s =
    complete s (checkAligned s (checkCodebook (codebook s) (decodeSymbol (codebook s) s))) := by
  show execHfDsym s = _
  rw [execHfDsym, checkLen_pass hlen, checkPbits_pass hpbits]

theorem exec_hfDsym_of_aligned (h8 : s.obits % 8 = 0) :
    exec .hfDsym s = complete s (checkCodebook (codebook s) (decodeSymbol (codebook s) s)) := by
  rw [exec_hfDsym hlen hpbits, checkAligned_pass h8]

theorem exec_hfDsym_of_cbOK (h8 : s.obits % 8 = 0) (hcb : CbOK s) :
    exec .hfDsym s = complete s (decodeSymbol (codebook s) s) := by
  rw [exec_hfDsym_of_aligned hlen hpbits h8, checkCodebook_true hcb]

end

/-- Settles O52: by the four checks in their order, then by the unit of the decoder, which completes or raises. -/
theorem decodesOneSymbol : Obligations.DecodesOneSymbol := by
  refine fun s => ⟨fun h => complete_badLen _ h, fun hlen h => complete_badPbits _ hlen h, fun hlen hpbits h8 => ?unaligned,
    fun hlen hpbits h8 a b hdup => ?dup, fun hlen hpbits h8 hcb => ⟨fun t hstep => ?step, fun n w hfault => ?fault,
    symbol_total s⟩⟩
  case unaligned =>
    rw [exec_hfDsym hlen hpbits, checkAligned_fail h8]
    rfl
  case dup =>
    rw [exec_hfDsym_of_aligned hlen hpbits h8]
    exact complete_firstDup _ hdup
  case step =>
    rw [exec_hfDsym_of_cbOK hlen hpbits h8 hcb, hstep.ok hcb]
    rfl
  case fault =>
    obtain ⟨c, rfl, hraise⟩ := hfault.error hcb
    rw [exec_hfDsym_of_cbOK hlen hpbits h8 hcb, hraise]
    rfl

/-! ### `HF.DEC` by steps -/

/-- A symbol that faults is not the end: payload bits are left (R245). -/
theorem SymbolFault.more {s : State} {n : BitVec 8} {w : Word} (h : SymbolFault s n w) :
    s.bitpos.toNat < s.pbits.toNat := by
  cases h <;> assumption

/-- The terminal step clears the token registers (R245). -/
theorem AtPayloadEnd.tKind {s : State} (h : AtPayloadEnd s) (hend : s.endFlag = true) : s.tKind = .none :=
  congrArg State.tKind (h hend).1

/-- At the end no symbol is left to fault (R245). -/
theorem AtPayloadEnd.endFlag_of_fault {s : State} {n : BitVec 8} {w : Word} (h : AtPayloadEnd s)
    (hfault : SymbolFault s n w) : s.endFlag = false := by
  refine Bool.eq_false_iff.mpr fun hend => ?_
  obtain ⟨-, hstop⟩ := h hend
  exact absurd hfault.more (not_lt.mpr hstop)

/-- The unit raises only where the spec has a fault, under the codebook of the pipeline. -/
theorem symbolFault_of_error {s a : State} {r : Raise} (hcb : CbOK s) (ha : SamePayload s a)
    (h : decodeSymbol (codebook s) a = .error r) : ∃ n w, SymbolFault a n w := by
  rcases symbol_total a with ⟨u, hstep⟩ | hfault
  · cases h.symm.trans ((decodeSymbol_ok_iff' hcb ha).mpr hstep)
  · exact hfault

section

variable {s t : State} (hcb : CbOK s)
include hcb

/-- The bound of the loop is enough for its steps to come to the end or to a fault (R250). -/
theorem decodeStart_symbol_path_ends :
    ∃ t, Relation.ReflTransGen SymbolStep (decodeStart s) t ∧ (t.endFlag = true ∨ ∃ n w, SymbolFault t n w) := by
  obtain ⟨hpath, hsame⟩ := symbol_steps (a := decodeStart s) hcb ⟨rfl, rfl, rfl⟩
    (iterate_path (s.pbits.toNat + 1) (decodeStart s))
  refine ⟨_, hpath, ?_⟩
  rcases iterate_end symbolFuel (SamePayload s) (symbol_measure hcb) symbol_zero (s := decodeStart s) ⟨rfl, rfl, rfl⟩
    (Nat.le_refl _) with ⟨-, hend⟩ | ⟨r, -, -, hraise⟩
  · exact .inl hend
  · exact .inr (symbolFault_of_error hcb hsame hraise)

variable (hpath : Relation.ReflTransGen SymbolStep (decodeStart s) t)
include hpath

/-- Steps of the loop are its rounds; they keep the codebook and the payload length, and stop at the terminal step. -/
theorem decodeStart_symbol_rounds :
    Relation.ReflTransGen (Round (·.endFlag) (decodeSymbol (codebook s))) (decodeStart s) t ∧ SamePayload s t ∧
      AtPayloadEnd t :=
  symbol_rounds (a := decodeStart s) hcb ⟨rfl, rfl, rfl⟩ rfl hpath

/-- The payload is read to its last bit and no further (R246). -/
theorem decodeStart_symbol_path_bitpos (hend : t.endFlag = true) : t.bitpos = s.pbits := by
  obtain ⟨-, ⟨-, -, hpbits⟩, hatEnd⟩ := decodeStart_symbol_rounds hcb hpath
  obtain ⟨-, hstop⟩ := hatEnd hend
  have hle := symbol_path_bitpos_le hpath (Nat.zero_le _)
  exact hpbits ▸ BitVec.eq_of_toNat_eq (hle.antisymm hstop)

variable (hlen : LenOK s) (hpbits : s.pbits.toNat ≤ 8 * s.inLen.toNat)
include hlen hpbits

/-- Steps that reach `END = 1` are all of `HF.DEC`. -/
theorem exec_hfDec_of_done (hend : t.endFlag = true) : exec .hfDec s = .next t := by
  obtain ⟨hrounds, -, -⟩ := decodeStart_symbol_rounds hcb hpath
  have hloop := iterate_eq_done symbolFuel (SamePayload s) (symbol_measure hcb) symbol_zero (fuel := s.pbits.toNat + 1)
    (s := decodeStart s) ⟨rfl, rfl, rfl⟩ (Nat.le_refl _) hrounds hend
  rw [exec_hfDec s hlen hpbits hcb, hloop]
  rfl

/-- Steps that reach a symbol that faults end `HF.DEC` with its fault there. -/
theorem exec_hfDec_of_fault {n : BitVec 8} {w : Word} (hfault : SymbolFault t n w) :
    exec .hfDec s = .next (faulted n w t) := by
  obtain ⟨hrounds, ⟨hcbl, hcbc, -⟩, hatEnd⟩ := decodeStart_symbol_rounds hcb hpath
  obtain ⟨c, rfl, hraise⟩ := hfault.error (hcb.congr hcbl hcbc)
  rw [codebook_congr hcbl hcbc] at hraise
  have hloop := iterate_eq_raised symbolFuel (SamePayload s) (symbol_measure hcb) symbol_zero (fuel := s.pbits.toNat + 1)
    (s := decodeStart s) ⟨rfl, rfl, rfl⟩ (Nat.le_refl _) hrounds (hatEnd.endFlag_of_fault hfault) hraise
  rw [exec_hfDec s hlen hpbits hcb, hloop]
  rfl

end

/-- Settles O53: the loop runs the steps to their one end, and its bound is enough. -/
theorem huffmanDecodes : Obligations.HuffmanDecodes := by
  refine fun s => ⟨fun h => complete_badLen _ h, fun hlen h => complete_badPbits _ hlen h, fun hlen hpbits a b hdup => ?dup,
    fun hlen hpbits hcb => ⟨fun t hpath hend => ?done, fun t n w hpath hfault => ?fault, decodeStart_symbol_path_ends hcb⟩⟩
  case dup =>
    show complete s (checkLen s _) = _
    rw [checkLen_pass hlen, checkPbits_pass hpbits]
    exact complete_firstDup _ hdup
  case done =>
    obtain ⟨-, -, hatEnd⟩ := decodeStart_symbol_rounds hcb hpath
    exact ⟨exec_hfDec_of_done hcb hpath hlen hpbits hend, decodeStart_symbol_path_bitpos hcb hpath hend, hatEnd.tKind hend⟩
  case fault =>
    obtain ⟨-, -, hatEnd⟩ := decodeStart_symbol_rounds hcb hpath
    exact ⟨exec_hfDec_of_fault hcb hpath hlen hpbits hfault, hatEnd.endFlag_of_fault hfault⟩

end Sys2Proof.Machine
end

section
/-! PROOF. The system family: a write to `CMD` by its gate and its decoding (R275), the system commands `NOP`, `BUF.XFER` and
`SYS.CLRERR` (R271 to R273), and a write to any other register (R278). -/

namespace Sys2Proof.Machine

/-! ### A write to `CMD` -/

section

variable {w : Word} {s : State}

/-- The gate stops a word exactly while a fault is recorded, and never the words of `SYS.CLRERR` and `SYS.RESET` (R295). -/
theorem gated_iff : gated w s = true ↔ s.err = true ∧ w ≠ 0x7E000000 ∧ w ≠ 0x7F000000 := by
  simp only [gated, Bool.and_eq_true, bne_iff_ne, and_assoc]

theorem gated_eq_false_iff : gated w s = false ↔ s.err = false ∨ w = 0x7E000000 ∨ w = 0x7F000000 := by
  rw [← Bool.not_eq_true, gated_iff, not_and_or, not_and_or, not_not, not_not, Bool.not_eq_true]

theorem hostWriteCmd_of_gated (hgate : gated w s = true) : hostWriteCmd w s = .next s := if_pos hgate

/-- An illegal word that the gate lets pass raises `ILLEGAL_CMD` (R275). -/
theorem hostWriteCmd_of_decode_error {e : Illegal} (hgate : gated w s = false) (hdec : decode w = .error e) :
    hostWriteCmd w s = .next (faulted 0x01 w s) := by
  simp only [hostWriteCmd, hgate, hdec, Bool.false_eq_true, if_false]
  rfl

end

/-- A write to `CMD` completes: it is ignored, raises `ILLEGAL_CMD`, or runs a command, and commands leave the host's queue. -/
theorem hostWriteCmd_completes (w : Word) (s : State) : ∃ t, hostWriteCmd w s = .next t ∧ t.hostq = s.hostq := by
  cases hgate : gated w s with
  | true => exact ⟨s, hostWriteCmd_of_gated hgate, rfl⟩
  | false =>
    cases hdec : decode w with
    | error e => exact ⟨_, hostWriteCmd_of_decode_error hgate hdec, rfl⟩
    | ok i =>
      obtain ⟨t, hexec, hframe⟩ := exec_frame i s
      obtain ⟨-, -, hhostq, -⟩ := hframe.host
      exact ⟨t, (hostWriteCmd_of_decode hgate hdec).trans hexec, hhostq⟩

/-- Settles O6: a step performs the write at the head of the queue, which its gate and its decoding decide. -/
theorem commandWriteOrder : Obligations.CommandWriteOrder := by
  intro s w q hq
  have hstep : step s = hostWriteCmd w { s with hostq := q } := step_of_hostq hq
  rw [hstep]
  refine ⟨fun herr hclr hrst => hostWriteCmd_of_gated (gated_iff.mpr ⟨herr, hclr, hrst⟩), fun hpass => ?passes,
    hostWriteCmd_completes w { s with hostq := q }⟩
  case passes =>
    have hgate : gated w { s with hostq := q } = false := gated_eq_false_iff.mpr hpass
    exact ⟨fun _ hdec => hostWriteCmd_of_decode_error hgate hdec, fun _ hdec => hostWriteCmd_of_decode hgate hdec⟩

/-! ### `BUF.XFER` -/

/-- The bytes of the input buffer after the move: those of the output, and from `OLEN` on those it had (R272). -/
theorem ibufAt_moveOutput (s : State) (i : Nat) :
    ibufAt (moveOutput s) i = if i < s.olen then outByte s i else ibufAt s i := by
  simp only [ibufAt, moveOutput_ibuf, moveOutput_epoch, Memory.read?_writeList, Nat.zero_le, true_and, Nat.zero_add,
    Nat.sub_zero, outBytes_length]
  split
  case isTrue h => simp [outBytes, h]
  case isFalse => rfl

theorem exec_bufXfer_of_badLen {s : State} (h : s.ibufCap < s.olen) :
    exec .bufXfer s = .next (faulted 0x03 (BitVec.ofNat 32 s.olen) s) := by
  show execBufXfer s = _
  rw [execBufXfer, if_neg (not_le.mpr h)]
  rfl

/-- Settles O21: the output fits the input buffer and is moved, or `BAD_LEN` is raised. -/
theorem transferMovesOutput : Obligations.TransferMovesOutput := fun s =>
  ⟨fun hfit => ⟨moveOutput s, exec_bufXfer hfit, rfl, fun i hi => (ibufAt_moveOutput s i).trans (if_pos hi),
    fun i hi => (ibufAt_moveOutput s i).trans (if_neg (not_lt.mpr hi))⟩, exec_bufXfer_of_badLen⟩

/-! ### A write to another register -/

theorem hostWriteReg_of_ne_zero {n : BitVec 5} (hn : n ≠ 0) (v : Word) (s : State) :
    hostWriteReg n v s = .next (writeDataReg n v s) := if_neg hn

/-- Read-only and reserved registers ignore a write (R278). -/
theorem writeDataReg_ignored {n : BitVec 5} (hn : n.toNat ∈ [1, 2, 9, 10] ∨ 14 ≤ n.toNat) (v : Word) (s : State) :
    writeDataReg n v s = s := by
  unfold writeDataReg
  split
  case h_10 => rfl
  all_goals
    rename_i hnum
    simp [hnum] at hn

/-- Settles O12: the read-write registers one by one, each truncating to its field; the others ignore the write. -/
theorem registerWrites : Obligations.RegisterWrites := by
  intro s v
  refine ⟨rfl, rfl, rfl, rfl, rfl, rfl, rfl, rfl, rfl, rfl, fun n hn => ?ignored⟩
  case ignored =>
    have hne : n ≠ 0 := by
      rintro rfl
      simp at hn
    rw [hostWriteReg_of_ne_zero hne, writeDataReg_ignored hn]

/-! ### `NOP` and `SYS.CLRERR` -/

theorem exec_nop (s : State) : exec .nop s = .next s := rfl

/-- Settles O19: the gate ignores the word of `NOP`, or lets the command pass, which has no effect either. -/
theorem nopDoesNothing : Obligations.NopDoesNothing := by
  refine fun s => ⟨exec_nop s, ?write⟩
  case write =>
    cases hgate : gated 0x00000000 s with
    | true => exact hostWriteCmd_of_gated hgate
    | false => exact (hostWriteCmd_of_decode hgate (decode_encode .nop)).trans (exec_nop s)

/-- Settles O20: the gate never stops the word of `SYS.CLRERR`, and the command is `clearFault`. -/
theorem clearErrorClearsFaultOnly : Obligations.ClearErrorClearsFaultOnly := fun s => ⟨rfl, hostWriteCmd_clrerr s⟩

end Sys2Proof.Machine
end

section
/-! PROOF. The exceptions family: the faults each command can raise (R291), the precision of a fault of a single-unit command
(R294), and the constant state between transactions (R299). -/

namespace Sys2Proof.Machine

/-! ### What an outcome may raise -/

/-- The state records no fault, or one of `cs`. -/
def RecordsOnly (cs : List ErrCode) (t : State) : Prop := t.err = true → ∃ c ∈ cs, t.errCode = c.code

/-- The outcome is a fault of `cs`, or a state that records no other: a pipeline's loop records its fault in its state. -/
def RaisesOnly (cs : List ErrCode) : Except Raise State → Prop
  | .ok t => RecordsOnly cs t
  | .error r => r.1 ∈ cs

/-- A unit raises the faults of `cs` only, and when it completes it leaves `ERR`. -/
structure UnitRaises (cs : List ErrCode) (unit : State → Except Raise State) : Prop where
  err : ∀ {s t : State}, unit s = .ok t → t.err = s.err
  code : ∀ {s : State} {r : Raise}, unit s = .error r → r.1 ∈ cs

section

variable {cs ds : List ErrCode} {s t : State} {k : Except Raise State}

theorem RecordsOnly.of_noFault (h : t.err = false) : RecordsOnly cs t := fun ht => absurd (h.symm.trans ht) (by decide)

theorem RecordsOnly.raise {r : Raise} (h : r.1 ∈ cs) : RecordsOnly cs (raise r s) := fun _ => ⟨r.1, h, rfl⟩

theorem RaisesOnly.ok (h : t.err = false) : RaisesOnly cs (.ok t) := RecordsOnly.of_noFault h

theorem RaisesOnly.recordsOnly (h : RaisesOnly cs k) (e : complete s k = .next t) : RecordsOnly cs t := by
  rcases complete_cases s k with ⟨u, rfl, he⟩ | ⟨r, rfl, he⟩ <;> cases he.symm.trans e
  · exact h
  · exact .raise h

/-! A check adds its own fault to those of what it stands before. -/

theorem RaisesOnly.checkCfg (hc : .cfgErr ∈ cs) (h : RaisesOnly cs k) : RaisesOnly cs (checkCfg s k) := by
  rcases checkCfg_cases s k with ⟨-, e⟩ | ⟨-, e⟩ <;> rw [e]
  · exact h
  · exact hc

theorem RaisesOnly.checkLen (hc : .badLen ∈ cs) (h : RaisesOnly cs k) : RaisesOnly cs (checkLen s k) := by
  rcases checkLen_cases s k with ⟨-, e⟩ | ⟨-, e⟩ <;> rw [e]
  · exact h
  · exact hc

theorem RaisesOnly.checkAligned (hc : .unaligned ∈ cs) (h : RaisesOnly cs k) : RaisesOnly cs (checkAligned s k) := by
  rcases checkAligned_cases s k with ⟨-, e⟩ | ⟨-, e⟩ <;> rw [e]
  · exact h
  · exact hc

theorem RaisesOnly.checkPbits (hc : .hfBadPbits ∈ cs) (h : RaisesOnly cs k) : RaisesOnly cs (checkPbits s k) := by
  rcases checkPbits_cases s k with ⟨-, e⟩ | ⟨-, e⟩ <;> rw [e]
  · exact h
  · exact hc

theorem RaisesOnly.checkCodebook (hc : .hfCbDup ∈ cs) (h : RaisesOnly cs k) :
    RaisesOnly cs (checkCodebook (codebook s) k) := by
  rcases checkCodebook_cases s k with ⟨-, e⟩ | ⟨x, y, -, e⟩ <;> rw [e]
  · exact h
  · exact hc

/-! ### Units and loops -/

variable {unit : State → Except Raise State}

theorem UnitRaises.raisesOnly (h : UnitRaises cs unit) (hs : s.err = false) (hsub : cs ⊆ ds) : RaisesOnly ds (unit s) := by
  cases hu : unit s with
  | ok t => exact .ok ((h.err hu).trans hs)
  | error r => exact hsub (h.code hu)

/-- A pipeline's loop records what its unit raises, if its start and its end leave `ERR` (R294). -/
theorem UnitRaises.finish (h : UnitRaises cs unit) {done : State → Bool} {fuel : Nat} {f : State → State}
    (hf : ∀ a, (f a).err = a.err) (hs : s.err = false) (hsub : cs ⊆ ds) :
    RaisesOnly ds (.ok (finish f (iterate done unit fuel s))) := by
  have hloop : (iterate done unit fuel s).1.err = false :=
    iterate_keeps (·.err = false) (fun _ _ ha _ hu => (h.err hu).trans ha) fuel s hs
  rcases finish_cases f (iterate done unit fuel s) with ⟨-, e⟩ | ⟨r, hr, e⟩ <;> rw [e]
  · exact .ok ((hf _).trans hloop)
  · exact RecordsOnly.raise (hsub (h.code (iterate_error hr)))

end

theorem putUnit_unitRaises (c : BitStr) : UnitRaises [.obufFull] (putUnit c) where
  err h := by
    obtain ⟨-, rfl⟩ := putUnit_eq_ok h
    rfl
  code h := List.mem_singleton.mpr (putUnit_raises h)

theorem putSymbol_unitRaises (x : Byte) : UnitRaises [.hfMissingKey, .obufFull] (putSymbol x) where
  err h := by
    obtain ⟨c, -, -, rfl⟩ := putSymbol_ok h
    rfl
  code h := by simpa using putSymbol_raises h

theorem encodeToken_unitRaises : UnitRaises [.obufFull] encodeToken where
  err h := (congrArg State.err (encodeToken_writes h) :)
  code h := List.mem_singleton.mpr (encodeToken_raises h)

theorem decodeToken_unitRaises : UnitRaises [.obufFull, .lzTrunc, .lzDistZero, .lzDistRange] decodeToken where
  err h := (congrArg State.err (decodeToken_writes h) :)
  code h := by simpa using decodeToken_raises h

theorem encodeSymbol_unitRaises : UnitRaises [.hfMissingKey, .obufFull] encodeSymbol where
  err h := (congrArg State.err (encodeSymbol_writes h) :)
  code h := by simpa using encodeSymbol_raises h

theorem decodeSymbol_unitRaises (cb : List (Byte × BitStr)) :
    UnitRaises [.hfNoCode, .hfTrunc, .obufFull] (decodeSymbol cb) where
  err h := (congrArg State.err (decodeSymbol_writes h) :)
  code h := by simpa using decodeSymbol_raises h

/-! ### Commands -/

/-- The faults R291 lists for each command, by name. -/
def mayRaise : Instr → List ErrCode
  | .lzFind => [.cfgErr, .badLen]
  | .lzPutl _ => [.obufFull]
  | .lzPutm => [.cfgErr, .tokenRange, .obufFull]
  | .lzStep | .lzEnc => [.cfgErr, .badLen, .obufFull]
  | .lzDstep => [.cfgErr, .badLen, .obufFull, .unaligned, .lzTrunc, .lzDistZero, .lzDistRange]
  | .lzDec => [.cfgErr, .badLen, .obufFull, .lzTrunc, .lzDistZero, .lzDistRange]
  | .hfCount | .bufXfer => [.badLen]
  | .hfDerive => [.hfNotree]
  | .hfPuts _ => [.obufFull, .hfCbDup, .hfMissingKey]
  | .hfEnc => [.badLen, .obufFull, .hfCbDup, .hfMissingKey]
  | .hfDsym => [.badLen, .obufFull, .unaligned, .hfCbDup, .hfNoCode, .hfTrunc, .hfBadPbits]
  | .hfDec => [.badLen, .obufFull, .hfCbDup, .hfNoCode, .hfTrunc, .hfBadPbits]
  | .nop | .hfBuild | .bsInit | .bsFlush | .sysClrerr | .sysReset => []

/-- Each command is its checks before its unit or its loop, and raises what they raise (R291). -/
theorem exec_raisesOnly (i : Instr) {s : State} (hs : s.err = false) :
    ∃ k, exec i s = complete s k ∧ RaisesOnly (mayRaise i) k := by
  cases i with
  | nop | hfBuild | bsInit | bsFlush => exact ⟨_, rfl, .ok hs⟩
  | sysClrerr | sysReset => exact ⟨_, rfl, .ok rfl⟩
  | lzFind => exact ⟨_, rfl, .checkCfg (by decide) (.checkLen (by decide) (.ok hs))⟩
  | lzPutl b => exact ⟨_, rfl, (putUnit_unitRaises _).raisesOnly hs (List.Subset.refl _)⟩
  | lzPutm =>
    refine ⟨_, rfl, .checkCfg (by decide) ?_⟩
    split
    · exact (putUnit_unitRaises _).raisesOnly hs (by decide)
    · exact (by decide : ErrCode.tokenRange ∈ mayRaise .lzPutm)
  | lzStep =>
    refine ⟨_, rfl, .checkCfg (by decide) (.checkLen (by decide) ?_)⟩
    split
    · exact .ok hs
    · exact encodeToken_unitRaises.raisesOnly hs (by decide)
  | lzEnc =>
    exact ⟨_, rfl, .checkCfg (by decide) (.checkLen (by decide)
      (encodeToken_unitRaises.finish (fun _ => rfl) hs (by decide)))⟩
  | lzDstep =>
    exact ⟨_, rfl, .checkCfg (by decide) (.checkLen (by decide) (.checkAligned (by decide)
      (decodeToken_unitRaises.raisesOnly hs (by decide))))⟩
  | lzDec =>
    exact ⟨_, rfl, .checkCfg (by decide) (.checkLen (by decide)
      (decodeToken_unitRaises.finish (fun _ => rfl) hs (by decide)))⟩
  | hfCount => exact ⟨_, rfl, .checkLen (by decide) (.ok hs)⟩
  | hfDerive =>
    refine ⟨_, rfl, ?_⟩
    split
    · exact .ok hs
    · exact (by decide : ErrCode.hfNotree ∈ mayRaise .hfDerive)
  | hfPuts x =>
    exact ⟨_, rfl, .checkCodebook (by simp [mayRaise]) ((putSymbol_unitRaises x).raisesOnly hs (by simp [mayRaise]))⟩
  | hfEnc =>
    exact ⟨_, rfl, .checkLen (by decide) (.checkCodebook (by decide)
      (encodeSymbol_unitRaises.finish (fun _ => rfl) hs (by decide)))⟩
  | hfDsym =>
    exact ⟨_, rfl, .checkLen (by decide) (.checkPbits (by decide) (.checkAligned (by decide) (.checkCodebook (by decide)
      ((decodeSymbol_unitRaises _).raisesOnly hs (by decide)))))⟩
  | hfDec =>
    exact ⟨_, rfl, .checkLen (by decide) (.checkPbits (by decide) (.checkCodebook (by decide)
      ((decodeSymbol_unitRaises _).finish (fun _ => rfl) hs (by decide))))⟩
  | bufXfer =>
    refine ⟨_, rfl, ?_⟩
    split
    · exact .ok hs
    · exact (by decide : ErrCode.badLen ∈ mayRaise .bufXfer)

/-- The effect of a command records no fault; `SYS.CLRERR` alone writes `ERR` in it, which `mayWrite` leaves open. -/
theorem mayWrite_noFault {i : Instr} {s t : State} (hi : i ≠ .sysClrerr) (hs : s.err = false) (h : mayWrite i s t) :
    t.err = false := by
  cases i with
  | sysClrerr => exact absurd rfl hi
  | sysReset => exact congrArg State.err h
  | _ => exact (congrArg State.err h).trans hs

/-! ### The obligations -/

/-- Settles O23: each command records only what its checks, its unit or its loop raises. -/
theorem faultCodesPerCommand : Obligations.FaultCodesPerCommand := by
  intro i s t hs hexec ht
  obtain ⟨k, hk, hraises⟩ := exec_raisesOnly i hs
  obtain ⟨c, hc, hcode⟩ := hraises.recordsOnly (hk.symm.trans hexec) ht
  have hmem : t.errCode.toNat ∈ (mayRaise i).map (·.code.toNat) := hcode ▸ List.mem_map_of_mem hc
  cases i <;> exact hmem

/-- Settles O22: a command that is no pipeline takes its effect, which records no fault, or records one in the state it found. -/
theorem singleUnitFaultsArePrecise : Obligations.SingleUnitFaultsArePrecise := by
  intro i s t hlzEnc hlzDec hhfEnc hhfDec hs hexec ht
  have hsingle : isPipeline i = false := by
    cases i with
    | lzEnc => exact absurd rfl hlzEnc
    | lzDec => exact absurd rfl hlzDec
    | hfEnc => exact absurd rfl hhfEnc
    | hfDec => exact absurd rfl hhfDec
    | _ => rfl
  have hclr : i ≠ .sysClrerr := by
    rintro rfl
    cases hexec
    cases ht
  obtain ⟨r, hr, heffect⟩ := exec_single hsingle s
  rcases complete_cases s r with ⟨u, hu, he⟩ | ⟨e, -, he⟩ <;> cases (hr.trans he).symm.trans hexec
  · exact absurd ((mayWrite_noFault hclr hs (heffect _ hu)).symm.trans ht) (by decide)
  · rfl

/-- Settles O8: with an empty queue a step performs no transaction. -/
theorem idleStepChangesNothing : Obligations.IdleStepChangesNothing := by
  intro s hq
  rw [step, nextTxn, hq]

end Sys2Proof.Machine
end
